-- ==== Sys2Proof/Word.lean ====
section
/-! DEFINITION. The plain data types the model is written in: word widths (R6, R8), the closed operand
enumerations of the commands (R90, R91, R92), the two-valued register select, pairs indexed by it, and
exact fractions (R9: "there is no floating point in this spec"). -/

namespace Sys2Proof

/-- An emitted word, and the width of the control register (R6: 16 bits). -/
abbrev U16 := BitVec 16

/-- A frequency tuning word (R6: 28 bits). -/
abbrev U28 := BitVec 28

/-- One half of a tuning word (R6: 14 bits). -/
abbrev U14 := BitVec 14

/-- A phase word's payload (R6: 12 bits). -/
abbrev U12 := BitVec 12

/-- A register-select operand as a command word carries it (R97: unsigned, 0 to 255). -/
abbrev U8 := BitVec 8

/-- A raw frequency or angle operand (R95, R96: 48 bits, two's complement). -/
abbrev Raw48 := BitVec 48

/-- A command word (R80, R86: 64 bits). -/
abbrev CommandWord := BitVec 64

/-- The unit of an angle operand (R90: UNIT = 0 is radians, UNIT = 1 is degrees). -/
inductive AngleUnit where
  | radians
  | degrees
deriving DecidableEq, Repr

/-- The write modes (R91), in the source's order. -/
inductive WriteMode where
  | both
  | mostSignificantOnly
  | leastSignificantOnly
deriving DecidableEq, Repr

/-- The output modes (R36, R92), in the source's order. -/
inductive OutputMode where
  | reset
  | off
  | sine
  | triangle
  | square
  | squareDivTwo
deriving DecidableEq, Repr

/-- A register select that passed validation: the operand `reg` in {0, 1} (R11, R97). -/
inductive Reg where
  | r0
  | r1
deriving DecidableEq, Repr

/-- Two like things, one for each register select (R37: `FCACHE[0]`, `FCACHE[1]`). -/
structure Pair (α : Type) where
  e0 : α
  e1 : α
deriving DecidableEq, Repr

/-- The entry that a register select names. -/
def Pair.get {α : Type} (p : Pair α) : Reg → α
  | .r0 => p.e0
  | .r1 => p.e1

/-- The pair with the entry that a register select names replaced. -/
def Pair.set {α : Type} (p : Pair α) (r : Reg) (v : α) : Pair α :=
  match r with
  | .r0 => { p with e0 := v }
  | .r1 => { p with e1 := v }

/-- An exact rational number `num / den` (R9: exact arithmetic over the rationals). The physical units
of the Encoder, Hz and radians or degrees, are such numbers; a denominator of 0 names no number and no
operand form produces one. -/
structure Frac where
  num : Int
  den : Nat
deriving DecidableEq, Repr

/-- Mask of the implemented bits of `CTRL` (R21: `CTRL_IMPL = 0x3DEA`). -/
def ctrlImpl : U16 := 0x3DEA#16

/-- Mask of the reserved bits of `CTRL` (R21: `CTRL_RSVD = 0xC215`). -/
def ctrlRsvd : U16 := 0xC215#16

end Sys2Proof
end

