-- ==== Sys2Proof/Config.lean ====
section
/-! DEFINITION. What is fixed for the life of the block and is not state (R43), as plain data carried beside the
state; and the one free value, the transport's answer (R63, U19). -/

namespace Sys2Proof

/-- The transport's answer to one transaction (R63). -/
inductive Answer where
  | ok
  | err
deriving DecidableEq, Repr, Inhabited

/-- The six VAL constants of `SETOMODE` (R132). The source gives no table (N1), so they are parameters
`OM_VAL[m]` (D7, U12). -/
structure OutputModeTable where
  reset        : U16
  off          : U16
  sine         : U16
  triangle     : U16
  square       : U16
  squareDivTwo : U16
deriving DecidableEq, Repr

/-- The configuration of one block: `FMCLK` (R43, D19) and the output-mode constants (D7). -/
structure Config where
  fmclk : Nat
  omVal : OutputModeTable
deriving DecidableEq, Repr

/-- The rows of R132, this spec's default for the parameters `OM_VAL`. -/
def OutputModeTable.default : OutputModeTable where
  reset        := 0x0100#16
  off          := 0x00C0#16
  sine         := 0x0000#16
  triangle     := 0x0002#16
  square       := 0x0028#16
  squareDivTwo := 0x0020#16

/-- The configuration the spec gives as default: `FMCLK` is 25,000,000 Hz (R6, R43). -/
def Config.default : Config where
  fmclk := 25000000
  omVal := OutputModeTable.default

/-- Mask of the bits an output mode governs (R36, R132). -/
def omMask : U16 := 0x01EA#16

/-- What the spec asks of a configuration: `FMCLK > 0` (D19) and every `OM_VAL[m] & ~0x01EA = 0` (D7). -/
abbrev Config.wf (c : Config) : Prop :=
  0 < c.fmclk ∧ c.omVal.reset &&& ~~~omMask = 0#16 ∧ c.omVal.off &&& ~~~omMask = 0#16 ∧
    c.omVal.sine &&& ~~~omMask = 0#16 ∧ c.omVal.triangle &&& ~~~omMask = 0#16 ∧
    c.omVal.square &&& ~~~omMask = 0#16 ∧ c.omVal.squareDivTwo &&& ~~~omMask = 0#16

/-- FREE VALUE (R63, U19, D18; log entry 1): what the transport answers to the transaction that is number
`n` of the run, where no script of answers stands in the state. It has no body, so no proof can see it. -/
opaque Config.transportAnswer : Nat → Answer

end Sys2Proof
end

