-- ==== Sys2Proof/Syntax.lean ====
section
/-! DEFINITION. The instructions: one constructor for each row of spec/opcode_table.json. Six are the
commands the host gives the block (R87); five are the words the block emits (R81 to R84), each of which is one
transaction of the transmit phase (R52, R150). -/

namespace Sys2Proof

/-- The rows of spec/opcode_table.json. -/
inductive Instr where
  /-- `SETCTL` (R88, R151): MASK names the provided fields, VAL carries their values. -/
  | setctl (mask val : U16)
  /-- `SETFREQ` (R89, R152): REG and the raw frequency operand HZ. -/
  | setfreq (reg : U8) (hz : Raw48)
  /-- `SETPHASE` (R90, R153): REG, UNIT and the raw angle operand ANG. -/
  | setphase (reg : U8) (unit : AngleUnit) (ang : Raw48)
  /-- `SETWMODE` (R91, R154). -/
  | setwmode (mode : WriteMode)
  /-- `SETOMODE` (R92, R155). -/
  | setomode (mode : OutputMode)
  /-- `SELREG` (R93, R156): FSEL and PSEL. -/
  | selreg (fsel psel : U8)
  /-- `CTRLW` (R82): a control word, the ten fields at their bit positions. -/
  | ctrlw (word : U16)
  /-- `FREQ0W` (R83): a half of the tuning word for frequency register 0. -/
  | freq0w (half : U14)
  /-- `FREQ1W` (R83): a half of the tuning word for frequency register 1. -/
  | freq1w (half : U14)
  /-- `PHASE0W` (R84): the phase word for phase register 0. -/
  | phase0w (phase : U12)
  /-- `PHASE1W` (R84): the phase word for phase register 1. -/
  | phase1w (phase : U12)
deriving DecidableEq, Repr

end Sys2Proof
end

