-- ==== Sys2Proof/WellFormed.lean ====
section
/-! DEFINITION. Which instructions the encodings admit: the two legality conditions of `SETCTL` (R88) and
the reserved bits of a control word (R82). Every other operand is legal at every value of its type; register selects
above 1 are legal encodings that raise `RangeError` (R94, R97). -/

namespace Sys2Proof

/-- `MASK & 0xC215 = 0`: only implemented bits can be provided (R88). -/
def maskLegal (mask : U16) : Bool := mask &&& ctrlRsvd == 0#16

/-- `VAL & ~MASK = 0`: no value without its mask bit (R88). -/
def valLegal (mask val : U16) : Bool := val &&& ~~~mask == 0#16

/-- `w & 0xC215 = 0`: the reserved bits of a control word are zero (R82). -/
def controlWordLegal (w : U16) : Bool := w &&& ctrlRsvd == 0#16

/-- The encodings' own conditions on the operands. -/
def Instr.wf : Instr → Bool
  | .setctl mask val => maskLegal mask && valLegal mask val
  | .setfreq _ _ => true
  | .setphase _ _ _ => true
  | .setwmode _ => true
  | .setomode _ => true
  | .selreg _ _ => true
  | .ctrlw w => controlWordLegal w
  | .freq0w _ => true
  | .freq1w _ => true
  | .phase0w _ => true
  | .phase1w _ => true

/-- A well-formed instruction: one that some word encodes. -/
abbrev WellFormed (i : Instr) : Prop := i.wf = true

/-- The rows a host gives the block as commands (R87); the others are words the block emits (R81). -/
def Instr.isCommand : Instr → Bool
  | .setctl _ _ => true
  | .setfreq _ _ => true
  | .setphase _ _ _ => true
  | .setwmode _ => true
  | .setomode _ => true
  | .selreg _ _ => true
  | .ctrlw _ => false
  | .freq0w _ => false
  | .freq1w _ => false
  | .phase0w _ => false
  | .phase1w _ => false

end Sys2Proof
end

