-- ==== Sys2Proof/Decode.lean ====
section
/-! DEFINITION. The decoder, total on every command word and every 16-bit word, rejecting by name (R85, R94),
and after it the encoder, written from the same formats (R82 to R84, R88 to R93). -/

namespace Sys2Proof

/-- Why a word is no instruction. The first five are the cases of R94; the last two are the words of R85
that the block never emits. -/
inductive Reject where
  /-- R94 (a): OP is 0 or 7 to 15. -/
  | illegalOpcode
  /-- R94 (b): a zero-required bit of the format is 1. -/
  | zeroRequiredBit
  /-- R94 (c): `MASK & 0xC215 != 0`, or `VAL & ~MASK != 0`. -/
  | illegalFieldUpdate
  /-- R94 (d): OP = 4 and WM = 3. -/
  | illegalWriteMode
  /-- R94 (e): OP = 5 and OM is 6 or 7. -/
  | illegalOutputMode
  /-- R85 (a): a control word with a reserved bit set. -/
  | reservedControlBit
  /-- R85 (b): a phase word with bit 12 set. -/
  | phaseBit12
deriving DecidableEq, Repr

/-- A word of one of the two lengths (R80). -/
inductive EncodedWord where
  | command (c : CommandWord)
  | emitted (w : U16)
deriving DecidableEq, Repr

/-! ## Command words -/

/-- OP, bits 63:60 (R86). -/
def opField (c : CommandWord) : BitVec 4 := c.extractLsb' 60 4

/-- MASK, bits 31:16 (R88). -/
def maskField (c : CommandWord) : U16 := c.extractLsb' 16 16

/-- VAL, bits 15:0 (R88). -/
def valField (c : CommandWord) : U16 := c.extractLsb' 0 16

/-- REG, bits 59:52 (R89, R90). -/
def regField (c : CommandWord) : U8 := c.extractLsb' 52 8

/-- HZ or ANG, bits 47:0 (R89, R90). -/
def rawField (c : CommandWord) : Raw48 := c.extractLsb' 0 48

/-- UNIT, bit 51 (R90). -/
def unitField (c : CommandWord) : AngleUnit := if c.getLsbD 51 then .degrees else .radians

/-- FSEL, bits 15:8 (R93). -/
def fselField (c : CommandWord) : U8 := c.extractLsb' 8 8

/-- PSEL, bits 7:0 (R93). -/
def pselField (c : CommandWord) : U8 := c.extractLsb' 0 8

/-- The write mode of code WM (R91); 3 names none. -/
def writeModeOfCode (wm : BitVec 2) : Option WriteMode :=
  match wm.toNat with
  | 0 => some .both
  | 1 => some .mostSignificantOnly
  | 2 => some .leastSignificantOnly
  | _ => none

/-- The output mode of code OM (R92); 6 and 7 name none. -/
def outputModeOfCode (om : BitVec 3) : Option OutputMode :=
  match om.toNat with
  | 0 => some .reset
  | 1 => some .off
  | 2 => some .sine
  | 3 => some .triangle
  | 4 => some .square
  | 5 => some .squareDivTwo
  | _ => none

/-- R88: bits 59:32 are zero-required. -/
def decodeSetctl (c : CommandWord) : Except Reject Instr :=
  if c.extractLsb' 32 28 ≠ 0#28 then .error .zeroRequiredBit
  else if maskLegal (maskField c) && valLegal (maskField c) (valField c) then
    .ok (.setctl (maskField c) (valField c))
  else .error .illegalFieldUpdate

/-- R89: bits 51:48 are zero-required. -/
def decodeSetfreq (c : CommandWord) : Except Reject Instr :=
  if c.extractLsb' 48 4 ≠ 0#4 then .error .zeroRequiredBit
  else .ok (.setfreq (regField c) (rawField c))

/-- R90: bits 50:48 are zero-required. -/
def decodeSetphase (c : CommandWord) : Except Reject Instr :=
  if c.extractLsb' 48 3 ≠ 0#3 then .error .zeroRequiredBit
  else .ok (.setphase (regField c) (unitField c) (rawField c))

/-- R91: bits 59:2 are zero-required. -/
def decodeSetwmode (c : CommandWord) : Except Reject Instr :=
  if c.extractLsb' 2 58 ≠ 0#58 then .error .zeroRequiredBit
  else match writeModeOfCode (c.extractLsb' 0 2) with
    | some m => .ok (.setwmode m)
    | none => .error .illegalWriteMode

/-- R92: bits 59:3 are zero-required. -/
def decodeSetomode (c : CommandWord) : Except Reject Instr :=
  if c.extractLsb' 3 57 ≠ 0#57 then .error .zeroRequiredBit
  else match outputModeOfCode (c.extractLsb' 0 3) with
    | some m => .ok (.setomode m)
    | none => .error .illegalOutputMode

/-- R93: bits 59:16 are zero-required. -/
def decodeSelreg (c : CommandWord) : Except Reject Instr :=
  if c.extractLsb' 16 44 ≠ 0#44 then .error .zeroRequiredBit
  else .ok (.selreg (fselField c) (pselField c))

/-- The opcode map (R87). -/
def decodeCommand (c : CommandWord) : Except Reject Instr :=
  match (opField c).toNat with
  | 1 => decodeSetctl c
  | 2 => decodeSetfreq c
  | 3 => decodeSetphase c
  | 4 => decodeSetwmode c
  | 5 => decodeSetomode c
  | 6 => decodeSelreg c
  | _ => .error .illegalOpcode

/-! ## Emitted words -/

/-- TAG, bits 15:14 (R81). -/
def tagField (w : U16) : BitVec 2 := w.extractLsb' 14 2

/-- The formats of R81, told apart by bits 15:14, and within the phase words by bit 13 (R84). -/
def decodeEmitted (w : U16) : Except Reject Instr :=
  match (tagField w).toNat with
  | 0 => if controlWordLegal w then .ok (.ctrlw w) else .error .reservedControlBit
  | 1 => .ok (.freq0w (w.extractLsb' 0 14))
  | 2 => .ok (.freq1w (w.extractLsb' 0 14))
  | _ =>
    if w.getLsbD 12 then .error .phaseBit12
    else if w.getLsbD 13 then .ok (.phase1w (w.extractLsb' 0 12))
    else .ok (.phase0w (w.extractLsb' 0 12))

/-- The decoder over words of either length. -/
def decode : EncodedWord → Except Reject Instr
  | .command c => decodeCommand c
  | .emitted w => decodeEmitted w

/-- The instruction the decoder reads from the row of `nbits` bits whose bits are `w`: 64-bit rows are command
words, 16-bit rows emitted words; there is no other length (R80). -/
def decodeTableWord (nbits w : Nat) : Option Instr :=
  if nbits = 64 then (decodeCommand (BitVec.ofNat 64 w)).toOption
  else if nbits = 16 then (decodeEmitted (BitVec.ofNat 16 w)).toOption
  else none

/-! ## The encoder -/

/-- The code WM of a write mode (R91). -/
def WriteMode.code : WriteMode → BitVec 2
  | .both => 0#2
  | .mostSignificantOnly => 1#2
  | .leastSignificantOnly => 2#2

/-- The code OM of an output mode (R92). -/
def OutputMode.code : OutputMode → BitVec 3
  | .reset => 0#3
  | .off => 1#3
  | .sine => 2#3
  | .triangle => 3#3
  | .square => 4#3
  | .squareDivTwo => 5#3

/-- The bit UNIT (R90). -/
def AngleUnit.code : AngleUnit → BitVec 1
  | .radians => 0#1
  | .degrees => 1#1

/-- The words of the instructions, field by field from the high end (R82 to R84, R88 to R93). -/
def encode : Instr → EncodedWord
  | .setctl mask val => .command (1#4 ++ 0#28 ++ mask ++ val)
  | .setfreq reg hz => .command (2#4 ++ reg ++ 0#4 ++ hz)
  | .setphase reg unit ang => .command (3#4 ++ reg ++ unit.code ++ 0#3 ++ ang)
  | .setwmode mode => .command (4#4 ++ 0#58 ++ mode.code)
  | .setomode mode => .command (5#4 ++ 0#57 ++ mode.code)
  | .selreg fsel psel => .command (6#4 ++ 0#44 ++ fsel ++ psel)
  | .ctrlw word => .emitted word
  | .freq0w half => .emitted (1#2 ++ half)
  | .freq1w half => .emitted (2#2 ++ half)
  | .phase0w phase => .emitted (3#2 ++ 0#1 ++ 0#1 ++ phase)
  | .phase1w phase => .emitted (3#2 ++ 1#1 ++ 0#1 ++ phase)

end Sys2Proof
end

