-- ==== Sys2Proof/Machine/State.lean ====
section
/-! DEFINITION. The state of the block, as plain data (R20, R41, R44, R46), the reasons a step can stop, and the
state after reset. Fields come in four groups: the architectural state of R20 with the sequencer's position of R41; the
observations a model keeps (R44, R202); the inputs from outside the block (R12, R13); the configuration (R43). -/

namespace Sys2Proof.Machine

/-- The status a command ends with (R99, R190). -/
inductive Status where
  | ok
  | rangeError
  | transportError
  | illegalCommand
deriving DecidableEq, Repr

/-- A phase cache entry's content: the unit and the angle operand exactly as supplied (R38). -/
structure PhaseEntry where
  unit  : AngleUnit
  angle : Raw48
deriving DecidableEq, Repr

/-- One transaction of the transmit history: the word and the transport's answer (R44). -/
structure TxEntry where
  word   : U16
  result : Answer
deriving DecidableEq, Repr

/-- The sequencer's position (R41): no command, or the index `k` of the next word to transmit over the list of
words that the command in progress computed. -/
inductive SeqPos where
  | idle
  | sending (words : List U16) (k : Nat)
deriving DecidableEq, Repr

/-- Why a step stops. -/
inductive Fault where
  /-- Raised by `step` alone, when the word at the sequencer's position has none of the formats R82 to R84, a word
  of R85 ("Words the block never emits"). Safe: no state that meets the invariant `Inv` of Safety.lean holds such a
  word, and the machine stops instead of emitting it (log entry 8). -/
  | wordNeverEmitted
deriving DecidableEq, Repr

/-- Why an instruction has no meaning. -/
inductive Refusal where
  /-- Raised by an arm of `exec` whose instruction has no meaning yet. Safe. No arm raises it at present. -/
  | notModelled (mnemonic : String)
deriving DecidableEq, Repr

/-- The state of the machine. -/
@[ext]
structure State where
  /-- `CTRL`, the shadow of the target's control register (R21). -/
  ctrl : U16
  /-- `FCACHE[0]`, `FCACHE[1]` (R37): `none` is valid = 0, `some raw` is valid = 1 with the raw operand. -/
  fcache : Pair (Option Raw48)
  /-- `PCACHE[0]`, `PCACHE[1]` (R38): `none` is valid = 0. -/
  pcache : Pair (Option PhaseEntry)
  /-- `FAULT`, sticky (R39). -/
  fault : Bool
  /-- The sequencer's position (R41). -/
  seq : SeqPos
  /-- `TXLOG`, the transactions since reset, oldest first (R44): an observation. -/
  txLog : List TxEntry
  /-- The statuses returned to the host since reset, oldest first (R202): an observation, nothing latches it. -/
  statusLog : List Status
  /-- Input: the command words the host presents, the first one first (R13, R158). -/
  cmdPort : List CommandWord
  /-- Input: the level of the reset line at the coming sampling points, `true` where it is asserted; no longer
  asserted where the list ends (R230). -/
  resetLine : List Bool
  /-- Input: the transport's coming answers, where the environment is scripted (R63, U19). -/
  answers : List Answer
  /-- The model's own counter of transactions of the run, which `Config.transportAnswer` is applied to. -/
  draws : Nat
  /-- Configuration, not state: never written (R43). -/
  config : Config
deriving DecidableEq, Repr

/-- The state right after reset (R46), with the default configuration (R6), nothing presented at any input and no
transaction made. -/
def State.reset : State where
  ctrl := 0x2100#16
  fcache := ⟨none, none⟩
  pcache := ⟨none, none⟩
  fault := false
  seq := .idle
  txLog := []
  statusLog := []
  cmdPort := []
  resetLine := []
  answers := []
  draws := 0
  config := Config.default

end Sys2Proof.Machine
end

