-- ==== Sys2Proof/Machine/Flags.lean ====
section
/-! DEFINITION. The bits: the ten fields of `CTRL` (R21 to R31), the write-mode and output-mode projections
(R32, R36), the status codes (R99). The block has no condition codes (R42); its one status-like bit is `FAULT`, which
Ops.lean sets. -/

namespace Sys2Proof.Machine

/-- The ten implemented fields of `CTRL` (R21). -/
inductive CtrlField where
  | b28
  | hlb
  | fselect
  | pselect
  | reset
  | sleep1
  | sleep12
  | opbiten
  | div2
  | mode
deriving DecidableEq, Repr

/-- The bit positions of R21. -/
def CtrlField.bit : CtrlField → Nat
  | .b28 => 13
  | .hlb => 12
  | .fselect => 11
  | .pselect => 10
  | .reset => 8
  | .sleep1 => 7
  | .sleep12 => 6
  | .opbiten => 5
  | .div2 => 3
  | .mode => 1

/-- `CTRL.FIELD` of a control register value. -/
def ctrlGet (ctrl : U16) (f : CtrlField) : Bool := ctrl.getLsbD f.bit

/-- The write mode, a function of `CTRL`: HLB is ignored when B28 = 1 (R32). -/
def writeModeOf (ctrl : U16) : WriteMode :=
  if ctrlGet ctrl .b28 then .both
  else if ctrlGet ctrl .hlb then .mostSignificantOnly
  else .leastSignificantOnly

/-- The code of a status (R99). -/
def Status.code : Status → BitVec 2
  | .ok => 0#2
  | .rangeError => 1#2
  | .transportError => 2#2
  | .illegalCommand => 3#2

/-- The status that the answer to a command's last transaction gives (R150). -/
def statusOfAnswer : Answer → Status
  | .ok => .ok
  | .err => .transportError

end Sys2Proof.Machine
end

