-- ==== Sys2Proof/Machine/Operands.lean ====
section
/-! DEFINITION. Operand assembly (R95 to R97) and the range checks of the validation phase (R152, R191). -/

namespace Sys2Proof.Machine

/-- The frequency operand `sext_48(raw) / 2^16` Hz (R95). -/
def hzOperand (raw : Raw48) : Frac := ⟨raw.toInt, 2 ^ 16⟩

/-- The angle operand `sext_48(raw) / 2^24` radians or degrees (R96). -/
def angleOperand (raw : Raw48) : Frac := ⟨raw.toInt, 2 ^ 24⟩

/-- A register-select operand: only 0 and 1 are valid (R97). -/
def regSelect (v : U8) : Option Reg :=
  if v = 0#8 then some .r0
  else if v = 1#8 then some .r1
  else none

/-- The bit a valid register select stands for. -/
def regBit : Reg → Bool
  | .r0 => false
  | .r1 => true

/-- The operand that names a register: the number 0 or 1 (R97). -/
def regOperand : Reg → U8
  | .r0 => 0#8
  | .r1 => 1#8

/-- `hz < 0 or 2 * hz >= FMCLK`, compared exactly (R152, D24). -/
def hzOutOfRange (hz : Frac) (fmclk : Nat) : Bool :=
  decide (hz.num < 0) || decide (2 * hz.num ≥ (fmclk : Int) * (hz.den : Int))

end Sys2Proof.Machine
end

