-- ==== Sys2Proof/Machine/Rounding.lean ====
section
/-! DEFINITION. The one rounding of the spec, exact on every rational (R9, R122). -/

namespace Sys2Proof.Machine

/-- `rnd(num / den) = floor(num / den + 1/2)`: nearest integer, a tie goes toward +infinity (R9, D1). `/` on
integers is the floored quotient for a positive divisor (R9's `div`). -/
def rnd (num : Int) (den : Nat) : Int := (2 * num + (den : Int)) / (2 * (den : Int))

/-- `rnd` is the floor of R9, in every field with a floor. -/
theorem rnd_eq_floor (K : Type) [Field K] [LinearOrder K] [IsStrictOrderedRing K] [FloorRing K]
    (num : Int) (den : Nat) : rnd num den = ⌊(num : K) / den + 1 / 2⌋ := by
  rcases Nat.eq_zero_or_pos den with rfl | h
  · norm_num [rnd]
  · have h' : (0 : K) < den := by exact_mod_cast h
    have e : (num : K) / den + 1 / 2 = ((2 * num + den : ℤ) : K) / ((2 * den : ℕ) : K) := by
      push_cast
      field_simp
    rw [e, Int.floor_div_natCast, Int.floor_intCast, rnd]
    push_cast
    rfl

end Sys2Proof.Machine
end

