-- ==== Sys2Proof/Machine/Radians.lean ====
section
/-! DEFINITION. The radians quantiser on every rational (R127, R129, D4). PI is irrational, so a nonzero rational angle
is never on a boundary, and bounds of PI that are close enough decide its value, as R129 has a test do. The bounds of the
first attempt are two fixed fractions; they decide every angle operand of a command word. Where they do not, the bounds
are partial sums of Machin's series, taken as far as the angle needs. -/

namespace Sys2Proof.Machine

open Filter Topology

/-- `rnd(angle * 4096 / (2 * p))`, with the fraction `p` for PI. -/
def radIndex (angle p : Frac) : Int := rnd (angle.num * 2048 * p.den) (angle.den * p.num.toNat)

/-- A fraction below PI (`pi_gt_fraction`). -/
def piBelow : Frac := ⟨8958937768937, 2851718461558⟩

/-- A fraction above PI (`pi_lt_fraction`). -/
def piAbove : Frac := ⟨139755218526789, 44485467702853⟩

/-- The first `n` terms of the series of `arctan (1 / x)`. -/
def arctanSum (x n : Nat) : ℚ := ∑ i ∈ Finset.range n, (-1) ^ i * ((x : ℚ)⁻¹ ^ (2 * i + 1) / (2 * i + 1))

/-- A sequence of rationals that rises to PI: `PI = 16 * arctan (1/5) - 4 * arctan (1/239)`. -/
def piLow (n : Nat) : ℚ := 16 * arctanSum 5 (2 * n) - 4 * arctanSum 239 (2 * n + 1)

/-- A sequence of rationals that falls to PI. -/
def piHigh (n : Nat) : ℚ := 16 * arctanSum 5 (2 * n + 1) - 4 * arctanSum 239 (2 * n)

/-- A rational as a fraction. -/
def fracOfRat (q : ℚ) : Frac := ⟨q.num, q.den⟩

/-- The `n`-th bounds of PI leave one value of the quantiser. -/
abbrev RadSettled (angle : Frac) (n : Nat) : Prop :=
  0 < piLow n ∧ radIndex angle (fracOfRat (piLow n)) = radIndex angle (fracOfRat (piHigh n))

/-- The terms of the series, over the reals. -/
theorem arctanSum_cast (x n : Nat) : ((arctanSum x n : ℚ) : ℝ) =
    ∑ i ∈ Finset.range n, (-1) ^ i * ((x : ℝ)⁻¹ ^ (2 * i + 1) / (2 * i + 1)) := by
  simp [arctanSum]

/-- The sums tend to the arctangent. -/
theorem arctanSum_tendsto {x : Nat} (hx : 1 < x) :
    Tendsto (fun n => ((arctanSum x n : ℚ) : ℝ)) atTop (𝓝 (Real.arctan (x : ℝ)⁻¹)) := by
  have hx' : (1 : ℝ) < x := by exact_mod_cast hx
  have h : ‖(x : ℝ)⁻¹‖ < 1 := by
    rw [norm_inv, inv_lt_one₀ (by simp; omega)]
    simpa using hx'
  have := (Real.hasSum_arctan h).tendsto_sum_nat
  simp only [arctanSum_cast]
  refine this.congr fun n => Finset.sum_congr rfl fun i _ => ?_
  push_cast
  ring

/-- The terms fall. -/
theorem arctanTerm_antitone {x : Nat} (hx : 1 < x) :
    Antitone fun i : Nat => (x : ℝ)⁻¹ ^ (2 * i + 1) / (2 * i + 1) := by
  intro i j h
  have hx' : (1 : ℝ) < x := by exact_mod_cast hx
  have h1 : (x : ℝ)⁻¹ ≤ 1 := inv_le_one_of_one_le₀ hx'.le
  have h' : (i : ℝ) ≤ j := by exact_mod_cast h
  have h2 : (x : ℝ)⁻¹ ^ (2 * j + 1) ≤ (x : ℝ)⁻¹ ^ (2 * i + 1) :=
    pow_le_pow_of_le_one (by positivity) h1 (by omega)
  dsimp only
  gcongr

/-- An even number of terms is a lower bound. -/
theorem arctanSum_even_le {x : Nat} (hx : 1 < x) (n : Nat) :
    ((arctanSum x (2 * n) : ℚ) : ℝ) ≤ Real.arctan (x : ℝ)⁻¹ := by
  have ht := arctanSum_tendsto hx
  simp only [arctanSum_cast] at ht ⊢
  exact (arctanTerm_antitone hx).alternating_series_le_tendsto ht n

/-- An odd number of terms is an upper bound. -/
theorem le_arctanSum_odd {x : Nat} (hx : 1 < x) (n : Nat) :
    Real.arctan (x : ℝ)⁻¹ ≤ ((arctanSum x (2 * n + 1) : ℚ) : ℝ) := by
  have ht := arctanSum_tendsto hx
  simp only [arctanSum_cast] at ht ⊢
  exact (arctanTerm_antitone hx).tendsto_le_alternating_series ht n

/-- Machin's formula. -/
theorem machin : 16 * Real.arctan (5 : ℝ)⁻¹ - 4 * Real.arctan (239 : ℝ)⁻¹ = Real.pi := by
  have := Real.four_mul_arctan_inv_5_sub_arctan_inv_239
  linarith

/-- `piLow` bounds PI from below. -/
theorem piLow_le_pi (n : Nat) : (piLow n : ℝ) ≤ Real.pi := by
  have h1 := arctanSum_even_le (x := 5) (by norm_num) n
  have h2 := le_arctanSum_odd (x := 239) (by norm_num) n
  rw [← machin, piLow]
  push_cast at *
  linarith

/-- `piHigh` bounds PI from above. -/
theorem pi_le_piHigh (n : Nat) : Real.pi ≤ piHigh n := by
  have h1 := le_arctanSum_odd (x := 5) (by norm_num) n
  have h2 := arctanSum_even_le (x := 239) (by norm_num) n
  rw [← machin, piHigh]
  push_cast at *
  linarith

/-- The even numbers of terms. -/
theorem tendsto_two_mul : Tendsto (fun n : Nat => 2 * n) atTop atTop :=
  tendsto_atTop_mono (fun n => (by omega : n ≤ 2 * n)) tendsto_id

/-- The odd numbers of terms. -/
theorem tendsto_two_mul_succ : Tendsto (fun n : Nat => 2 * n + 1) atTop atTop :=
  tendsto_atTop_mono (fun n => (by omega : n ≤ 2 * n + 1)) tendsto_id

/-- `piLow` tends to PI. -/
theorem piLow_tendsto : Tendsto (fun n => (piLow n : ℝ)) atTop (𝓝 Real.pi) := by
  have h1 := (arctanSum_tendsto (x := 5) (by norm_num)).comp tendsto_two_mul
  have h2 := (arctanSum_tendsto (x := 239) (by norm_num)).comp tendsto_two_mul_succ
  have := (h1.const_mul 16).sub (h2.const_mul 4)
  push_cast at this
  rw [machin] at this
  refine this.congr fun n => ?_
  simp [piLow]

/-- `piHigh` tends to PI. -/
theorem piHigh_tendsto : Tendsto (fun n => (piHigh n : ℝ)) atTop (𝓝 Real.pi) := by
  have h1 := (arctanSum_tendsto (x := 5) (by norm_num)).comp tendsto_two_mul_succ
  have h2 := (arctanSum_tendsto (x := 239) (by norm_num)).comp tendsto_two_mul
  have := (h1.const_mul 16).sub (h2.const_mul 4)
  push_cast at this
  rw [machin] at this
  refine this.congr fun n => ?_
  simp [piHigh]

/-- `radIndex` over the reals. -/
theorem radIndex_eq_floor (angle : Frac) {p : Frac} (hn : 0 < p.num) (hd : 0 < p.den) :
    radIndex angle p = ⌊(angle.num : ℝ) / angle.den * 2048 / (p.num / p.den) + 1 / 2⌋ := by
  have hn' : (0 : ℝ) < p.num := by exact_mod_cast hn
  have hd' : (0 : ℝ) < p.den := by exact_mod_cast hd
  have ht : ((p.num.toNat : ℕ) : ℝ) = p.num := by
    exact_mod_cast Int.toNat_of_nonneg hn.le
  rw [radIndex, rnd_eq_floor ℝ]
  push_cast
  rw [ht]
  congr 2
  rcases Nat.eq_zero_or_pos angle.den with h | h
  · simp [h]
  · field_simp

/-- The same with a rational for PI. -/
theorem radIndex_ofRat_eq_floor (angle : Frac) {q : ℚ} (hq : 0 < q) :
    radIndex angle (fracOfRat q) = ⌊(angle.num : ℝ) / angle.den * 2048 / q + 1 / 2⌋ := by
  rw [radIndex_eq_floor angle (p := fracOfRat q) (Rat.num_pos.2 hq) q.den_pos]
  simp only [fracOfRat]
  rw [← Rat.cast_def]

/-- The value of the quantiser over the reals is no integer before the floor, but for the angle 0 (R129: no ties). -/
theorem rad_no_tie {num : Int} {den : Nat} (hn : num ≠ 0) (hd : 0 < den) (m : Int) :
    (m : ℝ) ≠ (num : ℝ) / den * 2048 / Real.pi + 1 / 2 := by
  intro h
  have hd' : (den : ℝ) ≠ 0 := by exact_mod_cast hd.ne'
  have hn' : (num : ℝ) ≠ 0 := by exact_mod_cast hn
  have hp := Real.pi_ne_zero
  have hk : (2 * (m : ℝ) - 1) * (den * Real.pi) = num * 4096 := by
    have h2 : (2 * (m : ℝ) - 1) = num / den * 2048 / Real.pi * 2 := by linarith
    rw [h2]
    field_simp
    ring
  have hm : (2 * (m : ℝ) - 1) ≠ 0 := by
    intro h0
    rw [h0, zero_mul] at hk
    exact hn' (by linarith)
  refine irrational_pi ⟨(num * 4096 : ℚ) / ((2 * m - 1) * den), ?_⟩
  push_cast
  rw [← hk]
  field_simp

/-- Bounds of PI close enough to settle the value exist, for every angle. -/
theorem exists_radSettled (angle : Frac) : ∃ n, RadSettled angle n := by
  have hpos : ∀ᶠ n in atTop, 0 < piLow n := by
    filter_upwards [piLow_tendsto.eventually_const_lt Real.pi_pos] with n h
    exact_mod_cast h
  by_cases h0 : angle.num = 0 ∨ angle.den = 0
  · obtain ⟨n, h⟩ := hpos.exists
    refine ⟨n, h, ?_⟩
    rcases h0 with h0 | h0 <;> simp [radIndex, rnd_eq_floor ℝ, h0]
  · push Not at h0
    obtain ⟨hn, hd⟩ := h0
    set x : ℝ := (angle.num : ℝ) / angle.den * 2048 / Real.pi + 1 / 2 with hx
    have hc : ∀ {f : ℕ → ℚ}, Tendsto (fun n => (f n : ℝ)) atTop (𝓝 Real.pi) →
        ∀ᶠ n in atTop, ⌊(angle.num : ℝ) / angle.den * 2048 / f n + 1 / 2⌋ = ⌊x⌋ := by
      intro f hf
      have ht : Tendsto (fun n => (angle.num : ℝ) / angle.den * 2048 / f n + 1 / 2) atTop (𝓝 x) :=
        (tendsto_const_nhds.div hf Real.pi_ne_zero).add_const _
      have h1 : (⌊x⌋ : ℝ) < x := lt_of_le_of_ne (Int.floor_le x) (rad_no_tie hn (Nat.pos_of_ne_zero hd) _)
      filter_upwards [ht.eventually_const_lt h1, ht.eventually_lt_const (Int.lt_floor_add_one x)] with n a b
      exact Int.floor_eq_iff.2 ⟨a.le, b⟩
    obtain ⟨n, h, hl, hh⟩ := (hpos.and ((hc piLow_tendsto).and (hc piHigh_tendsto))).exists
    refine ⟨n, h, ?_⟩
    have hq : 0 < piHigh n := by
      have := Real.pi_pos.trans_le (pi_le_piHigh n)
      exact_mod_cast this
    rw [radIndex_ofRat_eq_floor angle h, radIndex_ofRat_eq_floor angle hq, hl, hh]

/-- The first bounds that settle the value. -/
def radSettledAt (angle : Frac) : Nat := Nat.find (exists_radSettled angle)

/-- `rnd(angle * 4096 / (2 * PI))`, exactly (`radNearest_eq_floor`). -/
def radNearest (angle : Frac) : Int :=
  if radIndex angle piBelow = radIndex angle piAbove then radIndex angle piBelow
  else radIndex angle (fracOfRat (piLow (radSettledAt angle)))

/-- The radians quantiser `quantRad`: `rnd(angle * 4096 / (2 * PI)) mod 4096`, with the real PI, on every rational (R127,
R129, D4). -/
def quantRad (angle : Frac) : U12 := BitVec.ofInt 12 (radNearest angle)

end Sys2Proof.Machine
end

