-- ==== Sys2Proof/Machine/Encoder.lean ====
section
/-! DEFINITION. The Encoder: pure functions from fields and physical units to register words (R120 to R132), over
exact rational arithmetic (R9, R122). -/

namespace Sys2Proof.Machine

/-- A field's bit at its position in the control word. -/
def fieldBits (ctrl : U16) (f : CtrlField) : U16 := (BitVec.ofBool (ctrlGet ctrl f)).setWidth 16 <<< f.bit

/-- `encodeControlWord` (R120). -/
def encodeControlWord (ctrl : U16) : U16 :=
  fieldBits ctrl .b28 ||| fieldBits ctrl .hlb ||| fieldBits ctrl .fselect ||| fieldBits ctrl .pselect |||
    fieldBits ctrl .reset ||| fieldBits ctrl .sleep1 ||| fieldBits ctrl .sleep12 ||| fieldBits ctrl .opbiten |||
    fieldBits ctrl .div2 ||| fieldBits ctrl .mode

/-- `encodeFrequencyWord(hz, fmclk) = rnd(hz * 2^28 / fmclk) mod 2^28` (R121): total, the range check is
`SETFREQ`'s (R124). -/
def encodeFrequencyWord (hz : Frac) (fmclk : Nat) : U28 :=
  BitVec.ofInt 28 (rnd (hz.num * 2 ^ 28) (hz.den * fmclk))

/-- `TAG(reg) = reg + 1` (R125). -/
def freqTag : Reg → BitVec 2
  | .r0 => 1#2
  | .r1 => 2#2

/-- A word of format FREQW: TAG and HALF (R83). -/
def freqWord (r : Reg) (half : U14) : U16 := freqTag r ++ half

/-- MSB14, the top half of a tuning word (R125). -/
def msb14 (word28 : U28) : U14 := word28.extractLsb' 14 14

/-- LSB14, the bottom half of a tuning word (R125). -/
def lsb14 (word28 : U28) : U14 := word28.extractLsb' 0 14

/-- `splitFrequencyWord(word28, reg) = (msbWord, lsbWord)` (R125). -/
def splitFrequencyWord (word28 : U28) (r : Reg) : U16 × U16 :=
  (freqWord r (msb14 word28), freqWord r (lsb14 word28))

/-- The tuning word that two halves make up (R126). -/
def joinHalves (msbWord lsbWord : U16) : U28 := msbWord.extractLsb' 0 14 ++ lsbWord.extractLsb' 0 14

/-- `decodeFrequency` (R126): the frequency that two words stand for, `W * fmclk / 2^28`. A specification
function; the block does not implement it. -/
def decodeFrequency (msbWord lsbWord : U16) (fmclk : Nat) : Frac :=
  ⟨(joinHalves msbWord lsbWord).toNat * fmclk, 2 ^ 28⟩

/-- The degrees quantiser: `rnd(deg * 4096 / 360) mod 4096` (R127, R128). -/
def quantDeg (angle : Frac) : U12 := BitVec.ofInt 12 (rnd (angle.num * 4096) (angle.den * 360))

/-- The phase of an angle, by its unit. -/
def quantPhase (angle : Frac) : AngleUnit → U12
  | .radians => quantRad angle
  | .degrees => quantDeg angle

/-- A word of format PHASEW: `11`, REG, 0, PHASE (R84). -/
def phaseWord (r : Reg) (phase : U12) : U16 := 3#2 ++ BitVec.ofBool (regBit r) ++ 0#1 ++ phase

/-- `encodePhaseWord` (R127). -/
def encodePhaseWord (angle : Frac) (unit : AngleUnit) (r : Reg) : U16 := phaseWord r (quantPhase angle unit)

/-- `writeModeBits(mode) = (B28, HLB)` (R131). -/
def writeModeBits : WriteMode → Bool × Bool
  | .both => (true, false)
  | .mostSignificantOnly => (false, true)
  | .leastSignificantOnly => (false, false)

/-- The parameter `OM_VAL[m]` of a mode (R132, D7). -/
def omVal (c : Config) : OutputMode → U16
  | .reset => c.omVal.reset
  | .off => c.omVal.off
  | .sine => c.omVal.sine
  | .triangle => c.omVal.triangle
  | .square => c.omVal.square
  | .squareDivTwo => c.omVal.squareDivTwo

/-- `outputModeBits(mode)`, as VAL at the governed bits' positions (R132). A mode mutates only the bits it governs
(R36), so a parameter's other bits, zero in every well-formed configuration, are not taken. -/
def outputModeBits (c : Config) (mode : OutputMode) : U16 := omVal c mode &&& omMask

/-- The projection `OM(CTRL)` from the governed bits back to a mode, partial (R36, D28): the first mode whose row
equals `CTRL & 0x01EA`. No rule of the block uses it. -/
def outputModeOf (c : Config) (ctrl : U16) : Option OutputMode :=
  [OutputMode.reset, .off, .sine, .triangle, .square, .squareDivTwo].find?
    fun m => outputModeBits c m == ctrl &&& omMask

end Sys2Proof.Machine
end

