-- ==== Sys2Proof/Machine/Ops.lean ====
section
/-! DEFINITION. The shared operations on the state: writing the registers, the store primitive `Transmit` (R52),
ending a command with a status (the three exceptions and their return, R190 to R204), the reset line (R230), and the
transmit phase of a command (R150). -/

namespace Sys2Proof.Machine

/-! ## Registers -/

/-- Write `CTRL`: the reserved bits are hardwired to zero (R21). -/
def State.writeCtrl (v : U16) (s : State) : State := { s with ctrl := v &&& ctrlImpl }

/-- `FCACHE[r] <- (1, raw)` (R37). -/
def State.writeFCache (r : Reg) (raw : Raw48) (s : State) : State := { s with fcache := s.fcache.set r (some raw) }

/-- `PCACHE[r] <- (1, unit, angle)` (R38). -/
def State.writePCache (r : Reg) (e : PhaseEntry) (s : State) : State := { s with pcache := s.pcache.set r (some e) }

/-- `FAULT <- 1` (R39). -/
def State.setFault (s : State) : State := { s with fault := true }

/-- Move the sequencer (R41). -/
def State.withSeq (p : SeqPos) (s : State) : State := { s with seq := p }

/-! ## The debug view -/

/-- What the host sees between commands (R47): the tuple of R20. -/
structure DebugView where
  ctrl   : U16
  fcache : Pair (Option Raw48)
  pcache : Pair (Option PhaseEntry)
  fault  : Bool
deriving DecidableEq, Repr

/-- The debug view: read-only, without side effect; reserved bits read as zero (R21, R47). -/
def State.debugView (s : State) : DebugView where
  ctrl := encodeControlWord s.ctrl
  fcache := s.fcache
  pcache := s.pcache
  fault := s.fault

/-! ## Ending a command -/

/-- End the command in progress: present its one status to the host and return to `IDLE` (R201, R202, R204). -/
def State.endCommand (st : Status) (s : State) : State :=
  { s with seq := .idle, statusLog := s.statusLog ++ [st] }

/-- `raise RangeError`: nothing has been written and nothing transmitted (R192). -/
def raiseRangeError (s : State) : State := s.endCommand .rangeError

/-- `raise IllegalCommand`: no effect but the status (R193). -/
def raiseIllegalCommand (s : State) : State := s.endCommand .illegalCommand

/-- `raise TransportError`: `FAULT <- 1`, the remaining words are dropped, what was written stays (R197). A word
transmitted while no command is in progress belongs to no command and returns no status. -/
def raiseTransportError (s : State) : State :=
  match s.seq with
  | .idle => s.setFault
  | .sending _ _ => s.setFault.endCommand .transportError

/-- After a word answered Ok: the next word, or `complete(Ok)` after the last (R150). -/
def advance (s : State) : State :=
  match s.seq with
  | .idle => s
  | .sending ws k => if k + 1 < ws.length then s.withSeq (.sending ws (k + 1)) else s.endCommand .ok

/-! ## The transport -/

/-- The transport's answer to the next transaction: the script's where there is one, else the free value (R63). -/
def State.nextAnswer (s : State) : Answer :=
  match s.answers with
  | a :: _ => a
  | [] => Config.transportAnswer s.draws

/-- One transaction: append (w, answer) to `TXLOG` (R52). -/
def State.transact (w : U16) (s : State) : State :=
  { s with
    txLog := s.txLog ++ [⟨w, s.nextAnswer⟩]
    answers := s.answers.tail
    draws := s.draws + 1 }

/-- One round of the transmit phase: `Transmit(w)`, then the next position or the `TransportError` (R150). -/
def transmitWord (w : U16) (s : State) : State :=
  match s.nextAnswer with
  | .ok => advance (s.transact w)
  | .err => raiseTransportError (s.transact w)

/-- The two bytes of a transaction's payload, high byte first (R52, R53). -/
def payload (w : U16) : List (BitVec 8) := [w.extractLsb' 8 8, w.extractLsb' 0 8]

/-- The bits of a word in the order they are on the wire, bit 15 first (R54). -/
def wireBits (w : U16) : List Bool := (List.range 16).map fun i => w.getLsbD (15 - i)

/-- What the transport is seen to do. -/
inductive BusEvent where
  | selectLow
  | byte (b : BitVec 8)
  | selectHigh
deriving DecidableEq, Repr

/-- One transaction on the bus: the select line is low for exactly its two bytes and released on every exit path,
whatever the answer (R52, R55). -/
def TxEntry.bus (e : TxEntry) : List BusEvent :=
  .selectLow :: (payload e.word).map .byte ++ [.selectHigh]

/-- The bus history of a transmit history. -/
def busTrace (log : List TxEntry) : List BusEvent := log.flatMap TxEntry.bus

/-! ## Reset -/

/-- Whether reset is asserted at this sampling point (R230). -/
def State.resetAsserted (s : State) : Bool := s.resetLine.headD false

/-- Go past a sampling point of the reset line. -/
def State.popReset (s : State) : State := { s with resetLine := s.resetLine.tail }

/-- Reset of the block (R46, R230): every element of R46 at its value; the configuration is not reset (R43), the
host's presented commands and the other inputs are outside the block. -/
def State.resetBlock (s : State) : State :=
  { State.reset with
    cmdPort := s.cmdPort
    resetLine := s.resetLine
    answers := s.answers
    draws := s.draws
    config := s.config }

/-! ## The command port -/

/-- Take the presented command from the port (R158). -/
def State.popCommand (s : State) : State := { s with cmdPort := s.cmdPort.tail }

/-! ## The transmit phase -/

/-- One round of the transmit phase of the command in progress: the word at the sequencer's position, or
`complete(Ok)` past the last one (R150). -/
def sendNext (s : State) : State :=
  match s.seq with
  | .idle => s
  | .sending ws k =>
    match ws[k]? with
    | some w => transmitWord w s
    | none => s.endCommand .ok

/-- A round, unless reset is asserted before it: a reset while a command is in progress abandons the command, and
words not yet handed to the transport are never sent (R230). -/
def sendNextUnlessReset (s : State) : State :=
  if s.resetAsserted then s.popReset.resetBlock else sendNext s.popReset

/-- At most `n` rounds, as long as a command is in progress. -/
def drain : Nat → State → State
  | 0, s => s
  | n + 1, s =>
    match s.seq with
    | .idle => s
    | .sending _ _ => drain n (sendNextUnlessReset s)

/-- Put the list of words a command computed at the sequencer, the first one next (R41, R150 phase 4). -/
def State.startSending (ws : List U16) (s : State) : State := s.withSeq (.sending ws 0)

/-- The transmit phase of the command in progress, to its end (R150, phase 5). -/
def transmitPhase (s : State) : State :=
  match s.seq with
  | .idle => s
  | .sending ws k => drain (ws.length - k) s

/-- The merge of `setControlFields` (R151): unprovided fields keep their value. -/
def mergeFields (ctrl mask val : U16) : U16 := (ctrl &&& ~~~mask) ||| val

/-- Update and encode of `setControlFields` (R151), which `SETWMODE`, `SETOMODE` and `SELREG` run too (R101, R154 to
R156): the merge, and the control word as the one word to send. -/
def setControlFields (mask val : U16) (s : State) : State :=
  let t := s.writeCtrl (mergeFields s.ctrl mask val)
  t.startSending [encodeControlWord t.ctrl]

end Sys2Proof.Machine
end

