-- ==== Sys2Proof/Machine/ControlCommands.lean ====
section
/-! DEFINITION. The commands that write and transmit the control word: `SETCTL`, `SETWMODE`, `SETOMODE`,
`SELREG` (R151, R154 to R156). Of each, `begin…` is its phases up to the words to send (R150, phases 2 to 4) and
`exec…` the whole command. Each answers a next state on every path: a range error is the command's status. -/

namespace Sys2Proof.Machine

/-- `SETCTL` up to its control word (R151): there is nothing to validate. -/
def beginSetctl (mask val : U16) (s : State) : State := setControlFields mask val s

/-- `SETCTL` (R151). -/
def execSetctl (mask val : U16) (s : State) : Host.Outcome State Fault Refusal :=
  .next (transmitPhase (beginSetctl mask val s))

/-- VAL of `SETWMODE`: `b<<13 | h<<12` (R154). -/
def writeModeVal (mode : WriteMode) : U16 :=
  (BitVec.ofBool (writeModeBits mode).1).setWidth 16 <<< 13 ||| (BitVec.ofBool (writeModeBits mode).2).setWidth 16 <<< 12

/-- `SETWMODE` up to its control word (R154): both bits, always. -/
def beginSetwmode (mode : WriteMode) (s : State) : State := setControlFields 0x3000#16 (writeModeVal mode) s

/-- `SETWMODE` (R154). -/
def execSetwmode (mode : WriteMode) (s : State) : Host.Outcome State Fault Refusal :=
  .next (transmitPhase (beginSetwmode mode s))

/-- `SETOMODE` up to its control word (R155): the six governed bits, always. -/
def beginSetomode (mode : OutputMode) (s : State) : State :=
  setControlFields omMask (outputModeBits s.config mode) s

/-- `SETOMODE` (R155). -/
def execSetomode (mode : OutputMode) (s : State) : Host.Outcome State Fault Refusal :=
  .next (transmitPhase (beginSetomode mode s))

/-- VAL of `SELREG`: `fsel<<11 | psel<<10` (R156). -/
def selregVal (f p : Reg) : U16 :=
  (BitVec.ofBool (regBit f)).setWidth 16 <<< 11 ||| (BitVec.ofBool (regBit p)).setWidth 16 <<< 10

/-- `SELREG` up to its control word (R156): a select outside {0, 1} raises `RangeError`. -/
def beginSelreg (fsel psel : U8) (s : State) : State :=
  match regSelect fsel, regSelect psel with
  | some f, some p => setControlFields 0x0C00#16 (selregVal f p) s
  | _, _ => raiseRangeError s

/-- `SELREG` (R156). -/
def execSelreg (fsel psel : U8) (s : State) : Host.Outcome State Fault Refusal :=
  .next (transmitPhase (beginSelreg fsel psel s))

end Sys2Proof.Machine
end

