-- ==== Sys2Proof/Machine/DataCommands.lean ====
section
/-! DEFINITION. The commands that transmit a frequency or a phase: `SETFREQ`, `SETPHASE` (R152, R153). Of each,
`begin…` is its phases up to the words to send (R150, phases 2 to 4) and `exec…` the whole command. -/

namespace Sys2Proof.Machine

/-- The words of a frequency request in each write mode, in order: LSB word then MSB word in Both (R152). -/
def freqWords (mode : WriteMode) (word28 : U28) (r : Reg) : List U16 :=
  match mode with
  | .both => [(splitFrequencyWord word28 r).2, (splitFrequencyWord word28 r).1]
  | .mostSignificantOnly => [(splitFrequencyWord word28 r).1]
  | .leastSignificantOnly => [(splitFrequencyWord word28 r).2]

/-- `SETFREQ` up to its words (R152): validate, write the cache, encode by the write mode in force. -/
def beginSetfreq (reg : U8) (raw : Raw48) (s : State) : State :=
  match regSelect reg with
  | none => raiseRangeError s
  | some r =>
    if hzOutOfRange (hzOperand raw) s.config.fmclk then raiseRangeError s
    else
      (s.writeFCache r raw).startSending
        (freqWords (writeModeOf s.ctrl) (encodeFrequencyWord (hzOperand raw) s.config.fmclk) r)

/-- `SETFREQ` (R152). -/
def execSetfreq (reg : U8) (raw : Raw48) (s : State) : Host.Outcome State Fault Refusal :=
  .next (transmitPhase (beginSetfreq reg raw s))

/-- `SETPHASE` up to its word (R153): validate, write the cache, encode; one word whatever the write mode. -/
def beginSetphase (reg : U8) (unit : AngleUnit) (raw : Raw48) (s : State) : State :=
  match regSelect reg with
  | none => raiseRangeError s
  | some r => (s.writePCache r ⟨unit, raw⟩).startSending [encodePhaseWord (angleOperand raw) unit r]

/-- `SETPHASE` (R153). -/
def execSetphase (reg : U8) (unit : AngleUnit) (raw : Raw48) (s : State) : Host.Outcome State Fault Refusal :=
  .next (transmitPhase (beginSetphase reg unit raw s))

end Sys2Proof.Machine
end

