-- ==== Sys2Proof/Machine/EmittedWords.lean ====
section
/-! DEFINITION. The emitted words: each is one transaction of the transmit phase (R52, R150 phase 5) at the
sequencer's position: `Transmit(w)`, `TXLOG`, then the next word, `complete(Ok)` or `TransportError`. -/

namespace Sys2Proof.Machine

/-- `CTRLW` (R82): transmit a control word. -/
def execCtrlw (word : U16) (s : State) : Host.Outcome State Fault Refusal := .next (transmitWord word s)

/-- `FREQ0W` (R83): transmit a half for frequency register 0. -/
def execFreq0w (half : U14) (s : State) : Host.Outcome State Fault Refusal := .next (transmitWord (freqWord .r0 half) s)

/-- `FREQ1W` (R83): transmit a half for frequency register 1. -/
def execFreq1w (half : U14) (s : State) : Host.Outcome State Fault Refusal := .next (transmitWord (freqWord .r1 half) s)

/-- `PHASE0W` (R84): transmit the phase word for phase register 0. -/
def execPhase0w (phase : U12) (s : State) : Host.Outcome State Fault Refusal := .next (transmitWord (phaseWord .r0 phase) s)

/-- `PHASE1W` (R84): transmit the phase word for phase register 1. -/
def execPhase1w (phase : U12) (s : State) : Host.Outcome State Fault Refusal := .next (transmitWord (phaseWord .r1 phase) s)

end Sys2Proof.Machine
end

