-- ==== Sys2Proof/Machine/Dispatch.lean ====
section
/-! DEFINITION. The dispatch of an instruction to its meaning, one arm per row of spec/opcode_table.json. -/

namespace Sys2Proof.Machine

/-- The meaning of an instruction. -/
def exec (i : Instr) (s : State) : Host.Outcome State Fault Refusal :=
  match i with
  | .setctl mask val => Sys2Proof.Machine.execSetctl mask val s
  | .setfreq reg hz => Sys2Proof.Machine.execSetfreq reg hz s
  | .setphase reg unit ang => Sys2Proof.Machine.execSetphase reg unit ang s
  | .setwmode mode => Sys2Proof.Machine.execSetwmode mode s
  | .setomode mode => Sys2Proof.Machine.execSetomode mode s
  | .selreg fsel psel => Sys2Proof.Machine.execSelreg fsel psel s
  | .ctrlw word => Sys2Proof.Machine.execCtrlw word s
  | .freq0w half => Sys2Proof.Machine.execFreq0w half s
  | .freq1w half => Sys2Proof.Machine.execFreq1w half s
  | .phase0w phase => Sys2Proof.Machine.execPhase0w phase s
  | .phase1w phase => Sys2Proof.Machine.execPhase1w phase s

end Sys2Proof.Machine
end

