-- ==== Sys2Proof/Machine/Fetch.lean ====
section
/-! DEFINITION. What the next step does: the reset line is sampled first (R230); then the command in progress goes
on with the word at its position (R150); else the next presented command word is taken and decoded (R150 phase 1, R158);
else the block waits in `IDLE`. -/

namespace Sys2Proof.Machine

/-- What a step finds, with the state it goes on from. -/
inductive Fetched where
  /-- Reset is asserted. -/
  | reset (s : State)
  /-- No command in progress and none presented. -/
  | waiting (s : State)
  /-- A command in progress has no word left. -/
  | finished (s : State)
  /-- A word of R85 at the sequencer's position. -/
  | neverEmitted
  /-- A presented command word that is illegal (R94); the port has been read. -/
  | illegal (s : State)
  /-- An instruction: a command taken from the port, or the word at the sequencer's position. -/
  | instruction (i : Instr) (s : State)
deriving DecidableEq, Repr

/-- The word at position `k` of the command in progress. -/
def fetchWord (ws : List U16) (k : Nat) (s : State) : Fetched :=
  match ws[k]? with
  | none => .finished s
  | some w =>
    match decodeEmitted w with
    | .ok i => .instruction i s
    | .error _ => .neverEmitted

/-- The command word presented at the port. -/
def fetchCommand (s : State) : Fetched :=
  match s.cmdPort with
  | [] => .waiting s
  | c :: _ =>
    match decodeCommand c with
    | .ok i => .instruction i s.popCommand
    | .error _ => .illegal s.popCommand

/-- What the next step finds. -/
def fetch (s : State) : Fetched :=
  if s.resetAsserted then .reset s.popReset
  else
    match s.seq with
    | .sending ws k => fetchWord ws k s.popReset
    | .idle => fetchCommand s.popReset

/-- The reset line's coming level forced low, later levels kept. -/
def lowNow (line : List Bool) : List Bool :=
  match line with
  | [] => []
  | _ :: rest => false :: rest

/-- The word of a 64-bit row presented first at the port of an idle block, that of a 16-bit row the one word of a
command in progress, in both cases with reset not asserted at the next step. Another length names no row. -/
def placeWord (s : State) (nbits w : Nat) : State :=
  if nbits = 64 then
    { s with seq := .idle, cmdPort := BitVec.ofNat 64 w :: s.cmdPort, resetLine := lowNow s.resetLine }
  else if nbits = 16 then
    { s with seq := .sending [BitVec.ofNat 16 w] 0, resetLine := lowNow s.resetLine }
  else s

end Sys2Proof.Machine
end

