-- ==== Sys2Proof/Machine/Step.lean ====
section
/-! DEFINITION. One step of the machine. From `IDLE` a step is one whole command (R150, R250: "each command is one
atomic step"); with a command in progress it is one round of the transmit phase. -/

namespace Sys2Proof.Machine

/-- One step: next state or fault. -/
def step (s : State) : Host.Outcome State Fault Refusal :=
  match fetch s with
  | .reset t => .next t.resetBlock
  | .waiting t => .next t
  | .finished t => .next (t.endCommand .ok)
  | .neverEmitted => .fault .wordNeverEmitted
  | .illegal t => .next (raiseIllegalCommand t)
  | .instruction i t => exec i t

/-- `s` with a row's word stored where `step` fetches its next instruction (log entry 9). -/
def State.withFetchWord (s : State) (nbits w : Nat) : State := placeWord s nbits w

end Sys2Proof.Machine
end

