-- ==== Sys2Proof/Machine/RealPhase.lean ====
section
/-! DEFINITION. The phase word of every real angle, the definition over the reals that R127 and R129 make normative:
the abstract function of R130, which takes the angle `angle + k * 2 * PI` that no rational is. The machine computes
`encodePhaseWord`, which is this function on the rationals. -/

namespace Sys2Proof.Machine

/-- The real number that a fraction is. -/
noncomputable def fracReal (q : Frac) : ℝ := (q.num : ℝ) / q.den

/-- `turns` (R127). -/
noncomputable def turnsReal (angle : ℝ) : AngleUnit → ℝ
  | .radians => angle / (2 * Real.pi)
  | .degrees => angle / 360

/-- The period `T` in a unit (R130). -/
noncomputable def period : AngleUnit → ℝ
  | .radians => 2 * Real.pi
  | .degrees => 360

/-- `P = rnd(turns * 4096) mod 4096` (R9, R127). -/
noncomputable def phaseReal (angle : ℝ) (unit : AngleUnit) : U12 :=
  BitVec.ofInt 12 ⌊turnsReal angle unit * 4096 + 1 / 2⌋

/-- `encodePhaseWord` on every real angle (R127, R130). -/
noncomputable def encodePhaseWordReal (angle : ℝ) (unit : AngleUnit) (r : Reg) : U16 :=
  phaseWord r (phaseReal angle unit)

end Sys2Proof.Machine
end

