-- ==== Sys2Proof/Machine/EncoderLaws.lean ====
section
/-! DEFINITION. The six laws of R133, each under a name of its own, about the functions of the Encoder and, for law 6,
about the update that `SETOMODE` makes. -/

namespace Sys2Proof.Machine

/-- R133 law 1: split and decode. -/
def SplitDecodeLaw : Prop :=
  ∀ (W : U28) (r : Reg) (F : Nat),
    joinHalves (splitFrequencyWord W r).1 (splitFrequencyWord W r).2 = W ∧
    decodeFrequency (splitFrequencyWord W r).1 (splitFrequencyWord W r).2 F = ⟨W.toNat * F, 2 ^ 28⟩

/-- R133 law 2: quantisation. -/
def QuantisationLaw : Prop :=
  ∀ (hz : Frac) (r : Reg) (F : Nat), 0 < hz.den → 0 < F → 0 ≤ hz.num → 2 * fracReal hz < F →
    let p := splitFrequencyWord (encodeFrequencyWord hz F) r
    |fracReal (decodeFrequency p.1 p.2 F) - fracReal hz| ≤ (F : ℝ) / 2 ^ 29

/-- R133 law 3: phase periodicity (R130), for every real angle in both units; on a rational angle the word is the one
the machine computes. -/
def PhasePeriodicityLaw : Prop :=
  (∀ (angle : ℝ) (unit : AngleUnit) (r : Reg) (k : ℤ),
    encodePhaseWordReal (angle + k * period unit) unit r = encodePhaseWordReal angle unit r) ∧
  (∀ (angle : Frac) (unit : AngleUnit) (r : Reg), 0 < angle.den →
    encodePhaseWord angle unit r = encodePhaseWordReal (fracReal angle) unit r)

/-- R133 law 4: the tags. -/
def TagLaw : Prop :=
  (∀ (W : U28) (r : Reg),
    ((splitFrequencyWord W r).1.extractLsb' 14 2).toNat = (regOperand r).toNat + 1 ∧
    ((splitFrequencyWord W r).2.extractLsb' 14 2).toNat = (regOperand r).toNat + 1) ∧
  (∀ (angle : Frac) (unit : AngleUnit) (r : Reg),
    (encodePhaseWord angle unit r).extractLsb' 14 2 = 0b11#2 ∧
    ((encodePhaseWord angle unit r).extractLsb' 13 1).toNat = (regOperand r).toNat ∧
    (encodePhaseWord angle unit r).extractLsb' 12 1 = 0#1)

/-- R133 law 5: the control word is injective on the ten fields, and its image. -/
def ControlWordLaw : Prop :=
  (∀ c d : U16, encodeControlWord c = encodeControlWord d → ∀ f, ctrlGet c f = ctrlGet d f) ∧
  (∀ w : U16, (∃ c, encodeControlWord c = w) ↔ w &&& 0xC215#16 = 0#16)

/-- R133 law 6: mode idempotence. -/
def ModeIdempotenceLaw : Prop :=
  ∀ (m₁ m₂ : OutputMode) (s : State),
    (beginSetomode m₂ (beginSetomode m₁ s)).ctrl = (beginSetomode m₂ s).ctrl

end Sys2Proof.Machine
end

