-- ==== Sys2Proof/Machine/Assembler.lean ====
section
/-! DEFINITION. Commands at the abstract level (R95, R96, R100) and their assembly: partial field updates, Hz and
angles as rationals, register selects as numbers. `none` where no command word represents the operand. -/

namespace Sys2Proof.Machine

/-- A command as the host writes it, in the operand order of R100. -/
inductive AsmCommand where
  | setctl (fields : List (CtrlField × Bool))
  | setfreq (hz : Frac) (reg : Nat)
  | setphase (angle : Frac) (reg : Nat) (unit : AngleUnit)
  | setwmode (mode : WriteMode)
  | setomode (mode : OutputMode)
  | selreg (fsel psel : Nat)
deriving DecidableEq, Repr

/-- The mnemonics of R87 with the source's operation names, which are accepted as synonyms (R100), and their
opcodes. -/
def commandNames : List (String × String × BitVec 4) :=
  [("SETCTL", "setControlFields", 1#4), ("SETFREQ", "setFrequency", 2#4), ("SETPHASE", "setPhase", 3#4),
    ("SETWMODE", "setWriteMode", 4#4), ("SETOMODE", "setOutputMode", 5#4), ("SELREG", "selectActiveRegisters", 6#4)]

/-- The opcode a mnemonic or operation name stands for. -/
def opcodeOfName (name : String) : Option (BitVec 4) :=
  (commandNames.find? fun e => e.1 == name || e.2.1 == name).map fun e => e.2.2

/-- A field's mask bit. -/
def CtrlField.mask (f : CtrlField) : U16 := 1#16 <<< f.bit

/-- MASK of a field update: a 1 at each provided field's position (R88). -/
def asmMask (fields : List (CtrlField × Bool)) : U16 := fields.foldl (fun m f => m ||| f.1.mask) 0#16

/-- VAL of a field update: the provided values at the same positions (R88). -/
def asmVal (fields : List (CtrlField × Bool)) : U16 :=
  fields.foldl (fun v f => if f.2 then v ||| f.1.mask else v) 0#16

/-- The raw operand with `fracBits` fractional bits that a rational is, where there is one of 48 bits (R95, R96). -/
def asmRaw (q : Frac) (fracBits : Nat) : Option Raw48 :=
  let scaled := q.num * 2 ^ fracBits
  if q.den = 0 then none
  else if scaled % (q.den : Int) ≠ 0 then none
  else
    let n := scaled / (q.den : Int)
    if -(2 ^ 47) ≤ n ∧ n < 2 ^ 47 then some (BitVec.ofInt 48 n) else none

/-- A register select as an 8-bit operand (R97). -/
def asmSelect (n : Nat) : Option U8 := if n < 256 then some (BitVec.ofNat 8 n) else none

/-- The instruction of a command; a field may be provided once only (R100). -/
def assemble : AsmCommand → Option Instr
  | .setctl fields =>
    if (fields.map Prod.fst).Nodup then some (.setctl (asmMask fields) (asmVal fields)) else none
  | .setfreq hz reg =>
    match asmRaw hz 16, asmSelect reg with
    | some raw, some r => some (.setfreq r raw)
    | _, _ => none
  | .setphase angle reg unit =>
    match asmRaw angle 24, asmSelect reg with
    | some raw, some r => some (.setphase r unit raw)
    | _, _ => none
  | .setwmode mode => some (.setwmode mode)
  | .setomode mode => some (.setomode mode)
  | .selreg fsel psel =>
    match asmSelect fsel, asmSelect psel with
    | some f, some p => some (.selreg f p)
    | _, _ => none

/-- The expansions of R101: the `SETCTL` that a wrapper command is. The values of `SETOMODE` are the parameters
`OM_VAL` (D7). -/
def expand (c : Config) : Instr → Option Instr
  | .setwmode .both => some (.setctl 0x3000#16 0x2000#16)
  | .setwmode .mostSignificantOnly => some (.setctl 0x3000#16 0x1000#16)
  | .setwmode .leastSignificantOnly => some (.setctl 0x3000#16 0x0000#16)
  | .setomode m => some (.setctl 0x01EA#16 (omVal c m))
  | .selreg fsel psel =>
    if fsel.toNat ≤ 1 ∧ psel.toNat ≤ 1 then
      some (.setctl 0x0C00#16 (BitVec.ofNat 16 (fsel.toNat * 2 ^ 11 + psel.toNat * 2 ^ 10)))
    else none
  | .setctl _ _ => none
  | .setfreq _ _ => none
  | .setphase _ _ _ => none
  | .ctrlw _ => none
  | .freq0w _ => none
  | .freq1w _ => none
  | .phase0w _ => none
  | .phase1w _ => none

end Sys2Proof.Machine
end

