-- ==== Sys2Proof/Machine/AssemblerText.lean ====
section
/-! DEFINITION. The written form of a command (R100): `MNEMONIC operand, operand`, a field update between braces,
numbers decimal unless prefixed (`0x`, `0b`, with `_` as a visual separator, R8), a rational as a fraction or with a
decimal point, register and mode names as R21, R91 and R92 spell them. `none` where a line is no command. -/

namespace Sys2Proof.Machine

/-- The pieces of a line. -/
inductive Token where
  | word (w : String)
  | comma
  | equals
  | openBrace
  | closeBrace
deriving DecidableEq, Repr

/-- The token of a character that stands alone. -/
def symbolOf (c : Char) : Option Token :=
  match c.toNat with
  | 44 => some .comma
  | 61 => some .equals
  | 123 => some .openBrace
  | 125 => some .closeBrace
  | _ => none

/-- The word collected so far, its characters in reverse, before the tokens that follow. -/
def flushWord (collected : List Char) (rest : List Token) : List Token :=
  match collected with
  | [] => rest
  | _ :: _ => .word (String.ofList collected.reverse) :: rest

/-- A line as tokens; a blank ends a word. -/
def tokens : List Char → List Char → List Token
  | [], collected => flushWord collected []
  | c :: rest, collected =>
    if c.toNat = 32 then flushWord collected (tokens rest [])
    else
      match symbolOf c with
      | some t => flushWord collected (t :: tokens rest [])
      | none => tokens rest (c :: collected)

/-! ## Numbers -/

/-- The value of a digit in a base. -/
def digitValue (base : Nat) (c : Char) : Option Nat :=
  let n := c.toNat
  let v :=
    if 48 ≤ n ∧ n ≤ 57 then n - 48
    else if 97 ≤ n ∧ n ≤ 102 then n - 87
    else if 65 ≤ n ∧ n ≤ 70 then n - 55
    else base
  if v < base then some v else none

/-- Digits read from the left onto a value, a separator `_` (R8) skipped. -/
def digitsOnto (base : Nat) : Nat → List Char → Option Nat
  | value, [] => some value
  | value, c :: rest =>
    if c.toNat = 95 then digitsOnto base value rest
    else
      match digitValue base c with
      | some d => digitsOnto base (value * base + d) rest
      | none => none

/-- A run of digits as a number. `_` separates digits inside a literal (R8): a literal that has no digit, or that begins
or ends with `_`, is refused, and more than one `_` in a row is one separator, which is the model's choice (log entry
17). -/
def digitsOf (base : Nat) (cs : List Char) : Option Nat :=
  if cs.isEmpty || cs.head? == some '_' || cs.getLast? == some '_' then none else digitsOnto base 0 cs

/-- A natural number: decimal, or with a prefix `0x` or `0b`. -/
def naturalOf (cs : List Char) : Option Nat :=
  match cs with
  | '0' :: 'x' :: rest => digitsOf 16 rest
  | '0' :: 'b' :: rest => digitsOf 2 rest
  | rest => digitsOf 10 rest

/-- The parts of a word before and after a character that stands in it. -/
def splitAtChar (mark : Nat) : List Char → Option (List Char × List Char)
  | [] => none
  | c :: rest =>
    if c.toNat = mark then some ([], rest)
    else (splitAtChar mark rest).map fun p => (c :: p.1, p.2)

/-- A rational without sign: `n`, `n/d` or `n.fraction`. -/
def magnitudeOf (cs : List Char) : Option Frac :=
  match splitAtChar 47 cs with
  | some (n, d) =>
    match naturalOf n, naturalOf d with
    | some n, some d => if d = 0 then none else some ⟨n, d⟩
    | _, _ => none
  | none =>
    match splitAtChar 46 cs with
    | some (whole, fraction) =>
      match digitsOf 10 whole, digitsOf 10 fraction with
      | some n, some f =>
        let places := (fraction.filter fun c => c.toNat ≠ 95).length
        some ⟨n * 10 ^ places + f, 10 ^ places⟩
      | _, _ => none
    | none => (naturalOf cs).map fun n => ⟨n, 1⟩

/-- A rational with an optional minus sign. -/
def rationalOf (cs : List Char) : Option Frac :=
  match cs with
  | '-' :: rest => (magnitudeOf rest).map fun q => ⟨-q.num, q.den⟩
  | rest => magnitudeOf rest

/-! ## Names -/

/-- The field names of R21. -/
def fieldNames : List (String × CtrlField) :=
  [("B28", .b28), ("HLB", .hlb), ("FSELECT", .fselect), ("PSELECT", .pselect), ("RESET", .reset),
    ("SLEEP1", .sleep1), ("SLEEP12", .sleep12), ("OPBITEN", .opbiten), ("DIV2", .div2), ("MODE", .mode)]

/-- The unit names of R100. -/
def unitNames : List (String × AngleUnit) := [("rad", .radians), ("deg", .degrees)]

/-- The write mode names of R91. -/
def writeModeNames : List (String × WriteMode) :=
  [("Both", .both), ("MostSignificantOnly", .mostSignificantOnly), ("LeastSignificantOnly", .leastSignificantOnly)]

/-- The output mode names of R92. -/
def outputModeNames : List (String × OutputMode) :=
  [("Reset", .reset), ("Off", .off), ("Sine", .sine), ("Triangle", .triangle), ("Square", .square),
    ("SquareDivTwo", .squareDivTwo)]

/-- The thing a name stands for in a table. -/
def lookupName {α : Type} (table : List (String × α)) (name : String) : Option α :=
  (table.find? fun e => e.1 == name).map Prod.snd

/-! ## Lines -/

/-- The field updates of a brace list, after its opening brace. -/
def fieldList : List Token → Option (List (CtrlField × Bool))
  | [.closeBrace] => some []
  | [.word f, .equals, .word v, .closeBrace] =>
    match lookupName fieldNames f, naturalOf v.toList with
    | some f, some v => if v ≤ 1 then some [(f, v == 1)] else none
    | _, _ => none
  | .word f :: .equals :: .word v :: .comma :: .word g :: rest =>
    match lookupName fieldNames f, naturalOf v.toList with
    | some f, some v => if v ≤ 1 then (fieldList (.word g :: rest)).map ((f, v == 1) :: ·) else none
    | _, _ => none
  | _ => none

/-- The command of a line's tokens, by the opcode its first word names. -/
def commandOfTokens (opcode : Nat) (operands : List Token) : Option AsmCommand :=
  match opcode, operands with
  | 1, .openBrace :: rest => (fieldList rest).map .setctl
  | 2, [.word hz, .comma, .word reg] =>
    match rationalOf hz.toList, naturalOf reg.toList with
    | some hz, some reg => some (.setfreq hz reg)
    | _, _ => none
  | 3, [.word angle, .comma, .word reg, .comma, .word unit] =>
    match rationalOf angle.toList, naturalOf reg.toList, lookupName unitNames unit with
    | some angle, some reg, some unit => some (.setphase angle reg unit)
    | _, _, _ => none
  | 4, [.word mode] => (lookupName writeModeNames mode).map .setwmode
  | 5, [.word mode] => (lookupName outputModeNames mode).map .setomode
  | 6, [.word fsel, .comma, .word psel] =>
    match naturalOf fsel.toList, naturalOf psel.toList with
    | some fsel, some psel => some (.selreg fsel psel)
    | _, _ => none
  | _, _ => none

/-- The command a line of text is (R100). -/
def parseCommand (line : String) : Option AsmCommand :=
  match tokens line.toList [] with
  | .word name :: operands =>
    match opcodeOfName name with
    | some op => commandOfTokens op.toNat operands
    | none => none
  | _ => none

/-- A text between braces, as `SETCTL` writes its fields. -/
def inBraces (text : String) : String :=
  String.ofList (Char.ofNat 123 :: text.toList ++ [Char.ofNat 125])

/-- The command word of a line of text. -/
def assembleLine (line : String) : Option EncodedWord :=
  ((parseCommand line).bind assemble).map encode

end Sys2Proof.Machine
end

