-- ==== Sys2Proof/Machine/Target.lean ====
section
/-! DEFINITION. What can be known of the target chip's registers from the transmit history (R45: "The target's
state is a function of the words in it whose result is Ok"), under the premises D18 (a word answered Ok was delivered,
in order) and the environment notes R65. It is a view of `TXLOG`, no part of the state: the block never reads it. `none`
is unknown, which is what the block's reset leaves of everything (R46, R232). A claim about the target takes `FAULT = 0`
as a premise (R39). -/

namespace Sys2Proof.Machine

/-- The five registers of the target register space (R51). -/
inductive TargetReg where
  | control
  | freq (r : Reg)
  | phase (r : Reg)
deriving DecidableEq, Repr

/-- The register a word addresses, by its bits 15:14 and 13 (R51): total on all words. -/
def targetReg (w : U16) : TargetReg :=
  match (tagField w).toNat with
  | 0 => .control
  | 1 => .freq .r0
  | 2 => .freq .r1
  | _ => if w.getLsbD 13 then .phase .r1 else .phase .r0

/-- The words the block never emits (R85): what the target does with one is not in the source (U10). -/
def neverEmitted (w : U16) : Bool :=
  (tagField w == 0#2 && w &&& 0x0215#16 != 0#16) || (tagField w == 3#2 && w.getLsbD 12)

/-- Where the target is in a Both-mode pair (R65 (a), R242). -/
inductive Pairing where
  /-- Not known, so the next frequency word may be taken as either half (R198). -/
  | unknown
  /-- The next frequency word is taken as a low half. -/
  | ready
  /-- A low half for a register has arrived and is not committed. -/
  | lowHeld (r : Reg) (half : U14)
deriving DecidableEq, Repr

/-- What is known of the target. -/
structure TargetView where
  control : Option U16
  freqHi  : Pair (Option U14)
  freqLo  : Pair (Option U14)
  phase   : Pair (Option U12)
  pairing : Pairing
deriving DecidableEq, Repr

/-- Nothing is known (R232). -/
def TargetView.unknown : TargetView where
  control := none
  freqHi := ⟨none, none⟩
  freqLo := ⟨none, none⟩
  phase := ⟨none, none⟩
  pairing := .unknown

/-- The frequency registers are unknown (R198, R242). -/
def TargetView.loseFreq (v : TargetView) : TargetView :=
  { v with freqHi := ⟨none, none⟩, freqLo := ⟨none, none⟩, pairing := .unknown }

/-- A frequency half arrives while the target's write mode is Both: the first word is held as the low half, the
second commits both halves (R65 (a)); anything but a pair for one register leaves the registers unknown (R242; the model's
choice, log entry 10). -/
def TargetView.receivePairHalf (r : Reg) (half : U14) (v : TargetView) : TargetView :=
  match v.pairing with
  | .ready => { v with pairing := .lowHeld r half }
  | .lowHeld q lo =>
    if q = r then
      { v with
        freqHi := v.freqHi.set r (some half)
        freqLo := v.freqLo.set r (some lo)
        pairing := .ready }
    else v.loseFreq
  | .unknown => v.loseFreq

/-- A frequency half arrives in a split mode: one half is replaced, the other is the stale one (R65 (b), R241). After a
broken pair what the target does with a frequency word is not in the source (R242): the registers are then unknown, which is
the model's choice (log entry 10). -/
def TargetView.receiveSplitHalf (v replaced : TargetView) : TargetView :=
  match v.pairing with
  | .ready => replaced
  | .unknown => v.loseFreq
  | .lowHeld _ _ => v.loseFreq

/-- A frequency half arrives: the target decides from its own B28 and HLB which half it is (R51, R240, R241). After a
broken pair, and where the control word is not known, the registers are unknown: the model's choice where the source says
nothing (R242, log entry 10). -/
def TargetView.receiveFreq (r : Reg) (half : U14) (v : TargetView) : TargetView :=
  match v.control with
  | none => v.loseFreq
  | some c =>
    match writeModeOf c with
    | .both => v.receivePairHalf r half
    | .mostSignificantOnly => v.receiveSplitHalf { v with freqHi := v.freqHi.set r (some half) }
    | .leastSignificantOnly => v.receiveSplitHalf { v with freqLo := v.freqLo.set r (some half) }

/-- A control word arrives (R233). The pair starts anew after it (R65 (a), R246). No passage says what a control word
inside a pair does (C17): the frequency registers are then unknown, and so is what the next frequency word is taken for, until
one more control word, which is the model's choice (log entry 10). -/
def TargetView.receiveControl (w : U16) (v : TargetView) : TargetView :=
  match v.pairing with
  | .ready => { v with control := some w }
  | .unknown => { v with control := some w, pairing := .ready }
  | .lowHeld _ _ => { v.loseFreq with control := some w }

/-- A word answered Ok arrives whole (D18). -/
def TargetView.receive (w : U16) (v : TargetView) : TargetView :=
  if neverEmitted w then TargetView.unknown
  else
    match targetReg w with
    | .control => v.receiveControl w
    | .freq r => v.receiveFreq r (w.extractLsb' 0 14)
    | .phase r => { v with phase := v.phase.set r (some (w.extractLsb' 0 12)) }

/-- A control word answered Err: nothing is known of the control register, nor of how later frequency words are taken
(R197). Inside a pair, what a control word does is told by no passage (C17), and an Err may mean that the word arrived or that
it did not (R63): both frequency registers are then unknown, as after the same word answered Ok, and the pair may still
be open, so the next control word stands inside it too; that is the model's choice (log entry 10). -/
def TargetView.loseControl (v : TargetView) : TargetView :=
  match v.pairing with
  | .ready => { v with control := none, pairing := .unknown }
  | .unknown => { v with control := none, pairing := .unknown }
  | .lowHeld r half => { v.loseFreq with control := none, pairing := .lowHeld r half }

/-- A word answered Err may have arrived whole, in part or not at all (R63): nothing is known of the register it
addressed; after a frequency word, the next one for either register may be taken as a high half (R197, R198), and both
frequency registers are unknown until they are loaded again (R242, R246; log entry 10). A word of R85 that may have arrived
leaves nothing known (U10). -/
def TargetView.lose (w : U16) (v : TargetView) : TargetView :=
  if neverEmitted w then TargetView.unknown
  else
    match targetReg w with
    | .control => v.loseControl
    | .freq _ => v.loseFreq
    | .phase r => { v with phase := v.phase.set r none }

/-- One transaction, as the target may have seen it. -/
def TargetView.see (v : TargetView) (e : TxEntry) : TargetView :=
  match e.result with
  | .ok => v.receive e.word
  | .err => v.lose e.word

/-- What a transmit history says of the target (R45). -/
def targetView (log : List TxEntry) : TargetView := log.foldl TargetView.see TargetView.unknown

/-- The tuning word of a frequency register, where both halves are known. -/
def TargetView.freqWord (v : TargetView) (r : Reg) : Option U28 :=
  match v.freqHi.get r, v.freqLo.get r with
  | some hi, some lo => some (hi ++ lo)
  | _, _ => none

/-- The register select a control bit stands for. -/
def regOfBit (b : Bool) : Reg := if b then .r1 else .r0

/-- The tuning word the DDS core reads: that of the register FSELECT names (R24, R65 (d)). -/
def TargetView.activeFreq (v : TargetView) : Option U28 :=
  match v.control with
  | none => none
  | some c => v.freqWord (regOfBit (ctrlGet c .fselect))

/-- The phase word the DDS core reads: that of the register PSELECT names (R25, R65 (d)). -/
def TargetView.activePhase (v : TargetView) : Option U12 :=
  match v.control with
  | none => none
  | some c => v.phase.get (regOfBit (ctrlGet c .pselect))

end Sys2Proof.Machine
end

