-- ==== Sys2Proof/Safety.lean ====
section
/-! DEFINITION. What counts as a safe state, and the terms the claims are stated in. -/

namespace Sys2Proof.Machine

/-- The invariant of reachable states. -/
structure Inv (s : State) : Prop where
  /-- `CTRL & 0xC215 = 0` (R21). -/
  ctrl_reserved : s.ctrl &&& ctrlRsvd = 0#16
  /-- The configuration is one the spec admits (D7, D19). -/
  config_wf : s.config.wf
  /-- The position is inside a list of one or two words (R6, R41). -/
  seq_bound : ∀ ws k, s.seq = .sending ws k → k < ws.length ∧ ws.length ≤ 2
  /-- No word of R85 is about to be sent. -/
  seq_emitted : ∀ ws k w, s.seq = .sending ws k → w ∈ ws → neverEmitted w = false
  /-- No word of R85 has been sent. -/
  log_emitted : ∀ e ∈ s.txLog, neverEmitted e.word = false
  /-- `FAULT` is set exactly when a transaction since reset was answered Err (R39, R44). -/
  fault_iff : s.fault = true ↔ ∃ e ∈ s.txLog, e.result = .err
  /-- A valid frequency cache entry holds an operand that passed validation (R37, R245). -/
  fcache_valid : ∀ r raw, s.fcache.get r = some raw → 0 ≤ raw.toInt ∧ raw.toInt < (s.config.fmclk : Int) * 2 ^ 15

/-- Reset is not asserted at the next `n` sampling points of the reset line (R230). -/
abbrev ResetLow (n : Nat) (s : State) : Prop := ∀ b ∈ s.resetLine.take n, b = false

/-- The words of the command in progress that are still to be sent (R41). -/
def SeqPos.pending : SeqPos → List U16
  | .idle => []
  | .sending ws k => ws.drop k

/-- A word of format CTRLW (R81). -/
def isControlWord (w : U16) : Bool := tagField w == 0#2

/-- The target's control register and the shadow: whatever control word the target is known to hold is the shadow's
value, or the shadow's value is on its way (R233, R240). -/
def ShadowMatches (s : State) : Prop :=
  (∀ w ∈ s.seq.pending, isControlWord w = true → w = s.ctrl) ∧
  (s.fault = false → ∀ c, (targetView s.txLog).control = some c →
    c = s.ctrl ∨ ∃ w ∈ s.seq.pending, isControlWord w = true)

/-- The answer to the transaction after the next one. -/
def State.secondAnswer (s : State) : Answer :=
  match s.answers with
  | _ :: a :: _ => a
  | _ => Config.transportAnswer (s.draws + 1)

/-- The state after a command's transmit phase over one word, reset staying low: the word with its answer in
`TXLOG`, `FAULT` set on Err, one status, `IDLE` (R150, R197). -/
def afterOneWord (w : U16) (s : State) : State :=
  { s with
    txLog := s.txLog ++ [⟨w, s.nextAnswer⟩]
    fault := s.fault || (s.nextAnswer == .err)
    statusLog := s.statusLog ++ [statusOfAnswer s.nextAnswer]
    seq := .idle
    resetLine := s.resetLine.drop 1
    answers := s.answers.drop 1
    draws := s.draws + 1 }

/-- The state after a command's transmit phase over two words, reset staying low: on Err to the first, the second
is not sent (R150, R198). -/
def afterTwoWords (w₀ w₁ : U16) (s : State) : State :=
  match s.nextAnswer with
  | .err => afterOneWord w₀ s
  | .ok =>
    { s with
      txLog := s.txLog ++ [⟨w₀, .ok⟩, ⟨w₁, s.secondAnswer⟩]
      fault := s.fault || (s.secondAnswer == .err)
      statusLog := s.statusLog ++ [statusOfAnswer s.secondAnswer]
      seq := .idle
      resetLine := s.resetLine.drop 2
      answers := s.answers.drop 2
      draws := s.draws + 2 }

/-- A command up to the words to send, or its `RangeError` (R150, phases 2 to 4): from here it can be run word by
word (R250). An emitted word has no such phases. -/
def beginCommand (i : Instr) (s : State) : State :=
  match i with
  | .setctl mask val => beginSetctl mask val s
  | .setfreq reg raw => beginSetfreq reg raw s
  | .setphase reg unit raw => beginSetphase reg unit raw s
  | .setwmode mode => beginSetwmode mode s
  | .setomode mode => beginSetomode mode s
  | .selreg fsel psel => beginSelreg fsel psel s
  | .ctrlw _ => s
  | .freq0w _ => s
  | .freq1w _ => s
  | .phase0w _ => s
  | .phase1w _ => s

/-- At most `n` steps of the machine, as long as a command is in progress. -/
def runCommand : Nat → State → Host.Outcome State Fault Refusal
  | 0, s => .next s
  | n + 1, s =>
    match s.seq with
    | .idle => .next s
    | .sending _ _ =>
      match step s with
      | .next t => runCommand n t
      | .fault f => .fault f
      | .refused r => .refused r

end Sys2Proof.Machine
end

