-- ==== Sys2Proof/Certificates/Slice0/Obligations.lean ====
section
/-! DEFINITION. The statements for the provers. Rule numbers are those of spec/. -/

open Sys2Proof Sys2Proof.Machine

/-! ## Reset -/

/-- R46: the reset values, reached from every state by a step that finds reset asserted. The model's own choices: that
the step samples the reset line (log entry 2), and that the presented commands are kept over a reset (log entry 9,
unsafe; log entry 11). -/
def Obligations.AssertedResetGivesResetValues : Prop :=
  ∀ (s : State) (rest : List Bool), s.resetLine = true :: rest →
    ∃ t, step s = .next t ∧
      t.ctrl = 0x2100#16 ∧ (∀ f, ctrlGet t.ctrl f = true ↔ f = .b28 ∨ f = .reset) ∧
      t.fcache.get .r0 = none ∧ t.fcache.get .r1 = none ∧ t.pcache.get .r0 = none ∧ t.pcache.get .r1 = none ∧
      t.fault = false ∧ t.seq = .idle ∧ t.txLog = [] ∧ t.config = s.config ∧
      writeModeOf t.ctrl = .both ∧ t.cmdPort = s.cmdPort ∧ t.resetLine = rest

/-- R46: the reset values, of the state the machine starts from (with the default FMCLK of R6) and of the state that
reset makes of any other; FMCLK is not reset; nothing is known of the target. -/
def Obligations.ResetStateHasResetValues : Prop :=
  (∀ t : State, (t = State.reset ∨ ∃ s : State, t = s.resetBlock) →
    t.ctrl = 0x2100#16 ∧ t.fcache = ⟨none, none⟩ ∧ t.pcache = ⟨none, none⟩ ∧ t.fault = false ∧ t.seq = .idle ∧
    t.txLog = [] ∧ writeModeOf t.ctrl = .both ∧ targetView t.txLog = TargetView.unknown) ∧
  (∀ s : State, s.resetBlock.config.fmclk = s.config.fmclk) ∧ State.reset.config.fmclk = 25000000

/-- R230: a reset inside a command abandons it. Before the first word it leaves the reset values; between the two words
of a frequency pair the first word has been answered and the second is never sent. The model's own choices: where the
reset line is sampled (log entry 2), that the presented commands are kept (log entry 9), that the status log is emptied
(log entry 11), and that the abandoned command returns no status (log entry 16). -/
def Obligations.ResetInsideCommandAbandonsIt : Prop :=
  (∀ (i : Instr) (s : State) (ws : List U16) (rest : List Bool), i.isCommand = true →
    (beginCommand i s).seq = .sending ws 0 → s.resetLine = true :: rest →
    exec i s = .next { State.reset with
      cmdPort := s.cmdPort, resetLine := rest, answers := s.answers, draws := s.draws, config := s.config }) ∧
  (∀ (i : Instr) (s : State) (w₀ w₁ : U16) (rest : List Bool), i.isCommand = true →
    (beginCommand i s).seq = .sending [w₀, w₁] 0 → s.resetLine = false :: true :: rest → s.nextAnswer = .ok →
    exec i s = .next { State.reset with
      cmdPort := s.cmdPort, resetLine := rest, answers := s.answers.drop 1, draws := s.draws + 1,
      config := s.config })

/-! ## The Encoder -/

/-- R120: the packing at the fixed positions; it is the value of `CTRL` where the reserved bits are zero; its range;
injective on the ten fields. -/
def Obligations.ControlWordPacksTenFields : Prop :=
  (∀ c : U16, encodeControlWord c =
    (c.extractLsb' 13 1).setWidth 16 <<< 13 ||| (c.extractLsb' 12 1).setWidth 16 <<< 12 |||
    (c.extractLsb' 11 1).setWidth 16 <<< 11 ||| (c.extractLsb' 10 1).setWidth 16 <<< 10 |||
    (c.extractLsb' 8 1).setWidth 16 <<< 8 ||| (c.extractLsb' 7 1).setWidth 16 <<< 7 |||
    (c.extractLsb' 6 1).setWidth 16 <<< 6 ||| (c.extractLsb' 5 1).setWidth 16 <<< 5 |||
    (c.extractLsb' 3 1).setWidth 16 <<< 3 ||| (c.extractLsb' 1 1).setWidth 16 <<< 1) ∧
  (∀ c : U16, encodeControlWord c &&& 0xC215#16 = 0#16) ∧
  (∀ c : U16, c &&& 0xC215#16 = 0#16 → encodeControlWord c = c) ∧
  (∀ c d : U16, encodeControlWord c = encodeControlWord d ↔ ∀ f, ctrlGet c f = ctrlGet d f) ∧
  encodeControlWord 0x2100#16 = 0x2100#16

/-- R121: the rational definition and the integer form on raw operands. -/
def Obligations.FrequencyWordIsRoundedQuotient : Prop :=
  (∀ (hz : Frac) (F : Nat), 0 < hz.den → 0 < F →
    ((encodeFrequencyWord hz F).toNat : ℤ) = ⌊(hz.num : ℚ) / hz.den * 2 ^ 28 / F + 1 / 2⌋ % 2 ^ 28) ∧
  (∀ (n : ℤ) (F : Nat), 0 < F →
    ((encodeFrequencyWord ⟨n, 2 ^ 16⟩ F).toNat : ℤ) = ((n * 2 ^ 13 + F) / (2 * F)) % 2 ^ 28) ∧
  encodeFrequencyWord ⟨1000, 1⟩ 25000000 = 0x29F1#28

/-- R123: range, error bound, the one value with bit 27 set, monotony and corner cases under the precondition
`0 <= hz < fmclk/2`. -/
def Obligations.FrequencyWordWithinHalfStep : Prop :=
  ∀ (hz : Frac) (F : Nat), 0 < hz.den → 0 < F → 0 ≤ hz.num → 2 * ((hz.num : ℚ) / hz.den) < F →
    (((encodeFrequencyWord hz F).toNat : ℤ) = ⌊(hz.num : ℚ) / hz.den * 2 ^ 28 / F + 1 / 2⌋) ∧
    (encodeFrequencyWord hz F).toNat ≤ 2 ^ 27 ∧
    ((encodeFrequencyWord hz F).getLsbD 27 = true ↔ (F : ℚ) / 2 - F / 2 ^ 29 ≤ (hz.num : ℚ) / hz.den) ∧
    |((encodeFrequencyWord hz F).toNat : ℚ) * F / 2 ^ 28 - (hz.num : ℚ) / hz.den| ≤ (F : ℚ) / 2 ^ 29 ∧
    (∀ hz' : Frac, 0 < hz'.den → (hz.num : ℚ) / hz.den ≤ (hz'.num : ℚ) / hz'.den →
      2 * ((hz'.num : ℚ) / hz'.den) < F →
      (encodeFrequencyWord hz F).toNat ≤ (encodeFrequencyWord hz' F).toNat) ∧
    ((hz.num : ℚ) / hz.den = 0 → (encodeFrequencyWord hz F).toNat = 0) ∧
    ((hz.num : ℚ) / hz.den = (F : ℚ) / 2 ^ 29 → (encodeFrequencyWord hz F).toNat = 1)

/-- R125: the two words of a tuning word, as numbers. -/
def Obligations.SplitTagsBothHalves : Prop :=
  ∀ W : U28,
    (splitFrequencyWord W .r0).1.toNat = 1 * 2 ^ 14 + W.toNat / 2 ^ 14 ∧
    (splitFrequencyWord W .r0).2.toNat = 1 * 2 ^ 14 + W.toNat % 2 ^ 14 ∧
    (splitFrequencyWord W .r1).1.toNat = 2 * 2 ^ 14 + W.toNat / 2 ^ 14 ∧
    (splitFrequencyWord W .r1).2.toNat = 2 * 2 ^ 14 + W.toNat % 2 ^ 14

/-- R126: the split loses nothing, and a frequency in range decodes to within half a step of itself. -/
def Obligations.SplitThenDecodeRecovers : Prop :=
  (∀ (W : U28) (r : Reg), joinHalves (splitFrequencyWord W r).1 (splitFrequencyWord W r).2 = W) ∧
  (∀ (W : U28) (r : Reg) (F : Nat),
    ((decodeFrequency (splitFrequencyWord W r).1 (splitFrequencyWord W r).2 F).num : ℚ) /
      (decodeFrequency (splitFrequencyWord W r).1 (splitFrequencyWord W r).2 F).den = (W.toNat : ℚ) * F / 2 ^ 28) ∧
  (∀ (hz : Frac) (r : Reg) (F : Nat), 0 < hz.den → 0 < F → 0 ≤ hz.num → 2 * ((hz.num : ℚ) / hz.den) < F →
    let p := splitFrequencyWord (encodeFrequencyWord hz F) r
    |((decodeFrequency p.1 p.2 F).num : ℚ) / (decodeFrequency p.1 p.2 F).den - (hz.num : ℚ) / hz.den|
      ≤ (F : ℚ) / 2 ^ 29)

/-- R84: the format of a phase word. -/
def Obligations.PhaseWordHasItsFormat : Prop :=
  ∀ (angle : Frac) (unit : AngleUnit) (r : Reg),
    encodePhaseWord angle unit r &&& 0xD000#16 = 0xC000#16 ∧
    (encodePhaseWord angle unit r).getLsbD 13 = decide (r = .r1) ∧
    (encodePhaseWord angle unit r).extractLsb' 0 12 = quantPhase angle unit

/-- R128: the degrees path is exact; the integer form on raw operands; ties go to the larger neighbour. -/
def Obligations.DegreesQuantiserIsExact : Prop :=
  (∀ angle : Frac, 0 < angle.den →
    ((quantPhase angle .degrees).toNat : ℤ) = ⌊(angle.num : ℚ) / angle.den * 512 / 45 + 1 / 2⌋ % 4096) ∧
  (∀ a : ℤ, ((quantPhase ⟨a, 2 ^ 24⟩ .degrees).toNat : ℤ) = ((2 * a + 1474560) / 2949120) % 4096) ∧
  (∀ angle : Frac, 0 < angle.den →
    ((∃ k : ℤ, (angle.num : ℚ) / angle.den * 512 / 45 = k + 1 / 2) ↔
      ∃ m : ℤ, m % 2 = 1 ∧ (angle.num : ℚ) / angle.den = 45 * m / 1024)) ∧
  (∀ m : ℤ, m % 2 = 1 → ((quantPhase ⟨45 * m, 1024⟩ .degrees).toNat : ℤ) = ((m + 1) / 2) % 4096)

/-- R129: the radians path is the definition over the reals on every rational angle; the left inequality is never an
equality, and the angle 0 gives 0; the form on raw operands. -/
def Obligations.RadiansQuantiserIsExact : Prop :=
  (∀ angle : Frac, 0 < angle.den → ∃ m : ℤ,
    (2 * (m : ℝ) - 1) * Real.pi ≤ (angle.num : ℝ) / angle.den * 4096 ∧
    (angle.num : ℝ) / angle.den * 4096 < (2 * (m : ℝ) + 1) * Real.pi ∧
    (∀ m' : ℤ, (2 * (m' : ℝ) - 1) * Real.pi ≤ (angle.num : ℝ) / angle.den * 4096 →
      (angle.num : ℝ) / angle.den * 4096 < (2 * (m' : ℝ) + 1) * Real.pi → m' = m) ∧
    ((quantPhase angle .radians).toNat : ℤ) = m % 4096 ∧
    (2 * (m : ℝ) - 1) * Real.pi ≠ (angle.num : ℝ) / angle.den * 4096 ∧
    (angle.num = 0 → quantPhase angle .radians = 0#12)) ∧
  (∀ (raw : Raw48) (m : ℤ), (2 * (m : ℝ) - 1) * 4096 * Real.pi ≤ raw.toInt →
    (raw.toInt : ℝ) < (2 * (m : ℝ) + 1) * 4096 * Real.pi →
    ((quantPhase (angleOperand raw) .radians).toNat : ℤ) = m % 4096)

/-- R130: a whole turn more gives the same phase word, for every real angle in both units, by the function over the
reals that R129 makes normative; the machine computes that function on every rational. Every phase is reached from an angle
operand, and the error is at most 1/8192 turn, in both units. -/
def Obligations.PhaseIsPeriodic : Prop :=
  (∀ (angle : ℝ) (unit : AngleUnit) (k : ℤ) (r : Reg),
    encodePhaseWordReal (angle + k * period unit) unit r = encodePhaseWordReal angle unit r) ∧
  (∀ (angle : Frac) (unit : AngleUnit) (r : Reg), 0 < angle.den →
    encodePhaseWord angle unit r = encodePhaseWordReal (fracReal angle) unit r) ∧
  (∀ (angle : Frac) (k : ℤ) (r : Reg), 0 < angle.den →
    encodePhaseWord ⟨angle.num + k * 360 * angle.den, angle.den⟩ .degrees r = encodePhaseWord angle .degrees r) ∧
  (∀ (unit : AngleUnit) (P : U12), ∃ raw : Raw48, quantPhase (angleOperand raw) unit = P) ∧
  (∀ (angle : Frac) (unit : AngleUnit), 0 < angle.den → ∃ m : ℤ,
    quantPhase angle unit = BitVec.ofInt 12 m ∧ |turnsReal (fracReal angle) unit - m / 4096| ≤ 1 / 8192)

/-- R32, R131: the projection of the write mode, and the table of `writeModeBits` as its right inverse. -/
def Obligations.WriteModeBitsInvertProjection : Prop :=
  (∀ c : U16, writeModeOf c =
    if c &&& 0x2000#16 ≠ 0#16 then WriteMode.both
    else if c &&& 0x1000#16 ≠ 0#16 then .mostSignificantOnly else .leastSignificantOnly) ∧
  writeModeBits .both = (true, false) ∧ writeModeBits .mostSignificantOnly = (false, true) ∧
  writeModeBits .leastSignificantOnly = (false, false) ∧
  writeModeVal .both = 0x2000#16 ∧ writeModeVal .mostSignificantOnly = 0x1000#16 ∧
  writeModeVal .leastSignificantOnly = 0x0000#16 ∧
  (∀ (c : U16) (m : WriteMode), writeModeOf (mergeFields c 0x3000#16 (writeModeVal m)) = m)

/-- R36, for the rows of R132 (log entry 4): the projection back to a mode names a mode exactly on the six rows. -/
def Obligations.OutputModeProjectionIsPartial : Prop :=
  ∀ (c : U16) (m : OutputMode),
    outputModeOf Config.default c = some m ↔ c &&& 0x01EA#16 = outputModeBits Config.default m

/-! ## Decoding -/

/-- R94: the illegal command words, exactly; presented to an idle block, one changes nothing that the host can see but
its status, and transmits nothing. -/
def Obligations.IllegalCommandWordsExactly : Prop :=
  (∀ (c : CommandWord) (e : Reject) (rest : List CommandWord) (s : State), decodeCommand c = .error e →
    ResetLow 1 s → s.seq = .idle → s.cmdPort = c :: rest →
    ∃ t, step s = .next t ∧ t.debugView = s.debugView ∧ t.seq = .idle ∧ t.txLog = s.txLog ∧
      t.statusLog = s.statusLog ++ [.illegalCommand]) ∧
  (∀ c : CommandWord, (∃ e, decodeCommand c = .error e) ↔
    ((c >>> 60).toNat = 0 ∨ 7 ≤ (c >>> 60).toNat) ∨
    ((c >>> 60 = 1#64 ∧ c &&& 0x0FFFFFFF00000000#64 ≠ 0#64) ∨ (c >>> 60 = 2#64 ∧ c &&& 0x000F000000000000#64 ≠ 0#64) ∨
     (c >>> 60 = 3#64 ∧ c &&& 0x0007000000000000#64 ≠ 0#64) ∨ (c >>> 60 = 4#64 ∧ c &&& 0x0FFFFFFFFFFFFFFC#64 ≠ 0#64) ∨
     (c >>> 60 = 5#64 ∧ c &&& 0x0FFFFFFFFFFFFFF8#64 ≠ 0#64) ∨
     (c >>> 60 = 6#64 ∧ c &&& 0x0FFFFFFFFFFF0000#64 ≠ 0#64)) ∨
    (c >>> 60 = 1#64 ∧ ((c >>> 16) &&& 0xC215#64 ≠ 0#64 ∨ c &&& 0xFFFF#64 &&& ~~~(c >>> 16) ≠ 0#64)) ∨
    (c >>> 60 = 4#64 ∧ c &&& 3#64 = 3#64) ∨
    (c >>> 60 = 5#64 ∧ (c &&& 7#64 = 6#64 ∨ c &&& 7#64 = 7#64)))

/-- R85: the words that are no emitted word, exactly. -/
def Obligations.NeverEmittedWordsExactly : Prop :=
  ∀ w : U16,
    ((∃ e, decodeEmitted w = .error e) ↔
      (w >>> 14 = 0#16 ∧ w &&& 0x0215#16 ≠ 0#16) ∨ (w >>> 14 = 3#16 ∧ w &&& 0x1000#16 ≠ 0#16)) ∧
    (neverEmitted w = true ↔ ∃ e, decodeEmitted w = .error e)

/-- R85, the inference the spec draws: every word that is not one of those is sent by some command in some state. -/
def Obligations.EveryOtherWordIsEmitted : Prop :=
  ∀ w : U16, neverEmitted w = false →
    ∃ (i : Instr) (s : State) (ws : List U16), i.isCommand = true ∧ WellFormed i ∧ Inv s ∧
      (beginCommand i s).seq = .sending ws 0 ∧ w ∈ ws

/-- R81 to R84, R86 to R93: decoding an encoded well-formed instruction gives it back, every operand at every
value. -/
def Obligations.DecodeOfEncode : Prop :=
  ∀ i : Instr, WellFormed i → decode (encode i) = .ok i

/-- D26: a word has one meaning: what it decodes to is well-formed and encodes to that word. -/
def Obligations.EncodeOfDecode : Prop :=
  ∀ (w : EncodedWord) (i : Instr), decode w = .ok i → WellFormed i ∧ encode i = w

/-- R100 and the vectors of 95_test_vectors.md: words written out, and the instructions they stand for. -/
def Obligations.SpecWordsDecodeToTheirCommands : Prop :=
  decodeCommand 0x1000000008000800#64 = .ok (.setctl 0x0800#16 0x0800#16) ∧
  decodeCommand 0x2000000003E80000#64 = .ok (.setfreq 0#8 0x03E80000#48) ∧
  decodeCommand 0x301800005A000000#64 = .ok (.setphase 1#8 .degrees 0x00005A000000#48) ∧
  decodeCommand 0x4000000000000002#64 = .ok (.setwmode .leastSignificantOnly) ∧
  decodeCommand 0x5000000000000002#64 = .ok (.setomode .sine) ∧
  decodeCommand 0x6000000000000100#64 = .ok (.selreg 1#8 0#8) ∧
  decodeEmitted 0x2100#16 = .ok (.ctrlw 0x2100#16) ∧ decodeEmitted 0x69F1#16 = .ok (.freq0w 0x29F1#14) ∧
  decodeEmitted 0x828F#16 = .ok (.freq1w 0x028F#14) ∧ decodeEmitted 0xC28C#16 = .ok (.phase0w 0x28C#12) ∧
  decodeEmitted 0xE400#16 = .ok (.phase1w 0x400#12)

/-- R100: the written form of each command, with its example's word, and the source's operation names as synonyms. -/
def Obligations.WrittenCommandsAssembleToTheirWords : Prop :=
  assembleLine ("SETCTL " ++ inBraces "FSELECT=1") = some (.command 0x1000000008000800#64) ∧
  assembleLine ("SETCTL " ++ inBraces "") = some (.command 0x1000000000000000#64) ∧
  assembleLine "SETFREQ 1000, 0" = some (.command 0x2000000003E80000#64) ∧
  assembleLine "SETPHASE 90, 1, deg" = some (.command 0x301800005A000000#64) ∧
  assembleLine "SETWMODE LeastSignificantOnly" = some (.command 0x4000000000000002#64) ∧
  assembleLine "SETOMODE Sine" = some (.command 0x5000000000000002#64) ∧
  assembleLine "SELREG 1, 0" = some (.command 0x6000000000000100#64) ∧
  assembleLine ("setControlFields " ++ inBraces "FSELECT=1") = some (.command 0x1000000008000800#64) ∧
  assembleLine "setFrequency 1000, 0" = some (.command 0x2000000003E80000#64) ∧
  assembleLine "setPhase 90, 1, deg" = some (.command 0x301800005A000000#64) ∧
  assembleLine "setWriteMode LeastSignificantOnly" = some (.command 0x4000000000000002#64) ∧
  assembleLine "setOutputMode Sine" = some (.command 0x5000000000000002#64) ∧
  assembleLine "selectActiveRegisters 1, 0" = some (.command 0x6000000000000100#64)

/-! ## The commands -/

/-- R151: `SETCTL` merges the provided fields, transmits exactly one control word and ends with Ok, or with
`TransportError` and `FAULT`. -/
def Obligations.SetctlMergesAndTransmits : Prop :=
  ∀ (mask val : U16) (s : State), WellFormed (.setctl mask val) → s.ctrl &&& 0xC215#16 = 0#16 → ResetLow 1 s →
    let w := (s.ctrl &&& ~~~mask) ||| val
    exec (.setctl mask val) s = .next (afterOneWord w { s with ctrl := w })

/-- R154: `SETWMODE` writes B28 and HLB and transmits the control word. -/
def Obligations.SetwmodeWritesBothModeBits : Prop :=
  ∀ (mode : WriteMode) (s : State), s.ctrl &&& 0xC215#16 = 0#16 → ResetLow 1 s →
    let val := match mode with
      | .both => 0x2000#16
      | .mostSignificantOnly => 0x1000#16
      | .leastSignificantOnly => 0x0000#16
    let w := (s.ctrl &&& ~~~0x3000#16) ||| val
    exec (.setwmode mode) s = .next (afterOneWord w { s with ctrl := w })

/-- R155: `SETOMODE` writes the six governed bits and transmits the control word; for every configuration with
`OM_VAL[m] & ~0x01EA = 0` (D7, log entry 4). -/
def Obligations.SetomodeWritesGovernedBits : Prop :=
  ∀ (mode : OutputMode) (s : State), s.config.wf → s.ctrl &&& 0xC215#16 = 0#16 → ResetLow 1 s →
    let w := (s.ctrl &&& ~~~0x01EA#16) ||| omVal s.config mode
    exec (.setomode mode) s = .next (afterOneWord w { s with ctrl := w })

/-- R156: `SELREG` writes FSELECT and PSELECT and transmits the control word; a select outside {0, 1} raises
`RangeError` with nothing changed or sent. -/
def Obligations.SelregWritesBothSelects : Prop :=
  ∀ (fsel psel : U8) (s : State), s.ctrl &&& 0xC215#16 = 0#16 → ResetLow 1 s →
    let w := (s.ctrl &&& ~~~0x0C00#16) ||| BitVec.ofNat 16 (fsel.toNat * 2 ^ 11 + psel.toNat * 2 ^ 10)
    (fsel.toNat ≤ 1 ∧ psel.toNat ≤ 1 → exec (.selreg fsel psel) s = .next (afterOneWord w { s with ctrl := w })) ∧
    (1 < fsel.toNat ∨ 1 < psel.toNat →
      exec (.selreg fsel psel) s = .next { s with seq := .idle, statusLog := s.statusLog ++ [.rangeError] })

/-- R152: `SETFREQ` on operands in range writes the cache entry and transmits the words of the write mode in force,
LSB word first in Both; on the others it raises `RangeError`. -/
def Obligations.SetfreqTransmitsByWriteMode : Prop :=
  ∀ (reg : U8) (raw : Raw48) (s : State), ResetLow 2 s →
    (∀ r : Reg, reg = regOperand r →
      0 ≤ raw.toInt → raw.toInt < (s.config.fmclk : ℤ) * 2 ^ 15 →
      let p := splitFrequencyWord (encodeFrequencyWord ⟨raw.toInt, 2 ^ 16⟩ s.config.fmclk) r
      let t := { s with fcache := s.fcache.set r (some raw) }
      exec (.setfreq reg raw) s = .next (match writeModeOf s.ctrl with
        | .both => afterTwoWords p.2 p.1 t
        | .mostSignificantOnly => afterOneWord p.1 t
        | .leastSignificantOnly => afterOneWord p.2 t)) ∧
    (1 < reg.toNat ∨ raw.toInt < 0 ∨ (s.config.fmclk : ℤ) * 2 ^ 15 ≤ raw.toInt →
      exec (.setfreq reg raw) s = .next { s with seq := .idle, statusLog := s.statusLog ++ [.rangeError] })

/-- R153: `SETPHASE` writes the cache entry and transmits exactly one word, whatever the write mode; a register select
outside {0, 1} raises `RangeError`; no angle is out of range. -/
def Obligations.SetphaseTransmitsOneWord : Prop :=
  ∀ (reg : U8) (unit : AngleUnit) (raw : Raw48) (s : State), ResetLow 1 s →
    (∀ r : Reg, reg = regOperand r →
      exec (.setphase reg unit raw) s = .next (afterOneWord (encodePhaseWord ⟨raw.toInt, 2 ^ 24⟩ unit r)
        { s with pcache := s.pcache.set r (some ⟨unit, raw⟩) })) ∧
    (1 < reg.toNat →
      exec (.setphase reg unit raw) s = .next { s with seq := .idle, statusLog := s.statusLog ++ [.rangeError] })

/-- R101: each wrapper command is the `SETCTL` it expands to (for `SETOMODE` with the parameters of log entry 4). -/
def Obligations.WrappersAreTheirExpansion : Prop :=
  ∀ (i j : Instr) (s : State), s.config.wf → expand s.config i = some j →
    WellFormed j ∧ exec i s = exec j s

/-- R52, R150 phase 5, R197: each of `CTRLW`, `FREQ0W`, `FREQ1W`, `PHASE0W`, `PHASE1W` is one transaction and completes
in every state; inside a command the sequencer then goes to the next word, completes with Ok after the last, or ends
the command with `TransportError` and `FAULT`. With no command in progress (log entry 6) it is the transaction alone. -/
def Obligations.EmittedWordIsOneTransaction : Prop :=
  ∀ (i : Instr) (w : U16) (s : State), encode i = .emitted w →
    let t : State := { s with
      txLog := s.txLog ++ [⟨w, s.nextAnswer⟩], answers := s.answers.drop 1, draws := s.draws + 1 }
    (∀ ws k, s.seq = .sending ws k → s.nextAnswer = .ok → k + 1 < ws.length →
      exec i s = .next { t with seq := .sending ws (k + 1) }) ∧
    (∀ ws k, s.seq = .sending ws k → s.nextAnswer = .ok → ws.length ≤ k + 1 →
      exec i s = .next { t with seq := .idle, statusLog := s.statusLog ++ [.ok] }) ∧
    (∀ ws k, s.seq = .sending ws k → s.nextAnswer = .err →
      exec i s = .next { t with
        fault := true, seq := .idle, statusLog := s.statusLog ++ [.transportError] }) ∧
    (s.seq = .idle → exec i s = .next { t with fault := s.fault || (s.nextAnswer == .err) })

/-- R197, R198: what a `TransportError` leaves: the update of phase 3 stays, the failed word is the last of `TXLOG`,
later words are not sent, `FAULT` is set and the block is in `IDLE`. -/
def Obligations.TransportErrorKeepsUpdateAndDropsRest : Prop :=
  ∀ (i : Instr) (s : State) (w₀ : U16) (ws : List U16), i.isCommand = true → ResetLow 2 s →
    (beginCommand i s).seq = .sending (w₀ :: ws) 0 →
    (s.nextAnswer = .err →
      exec i s = .next { beginCommand i s with
        txLog := s.txLog ++ [⟨w₀, .err⟩], fault := true, seq := .idle
        statusLog := s.statusLog ++ [.transportError]
        resetLine := s.resetLine.drop 1, answers := s.answers.drop 1, draws := s.draws + 1 }) ∧
    (∀ w₁, ws = [w₁] → s.nextAnswer = .ok → s.secondAnswer = .err →
      exec i s = .next { beginCommand i s with
        txLog := s.txLog ++ [⟨w₀, .ok⟩, ⟨w₁, .err⟩], fault := true, seq := .idle
        statusLog := s.statusLog ++ [.transportError]
        resetLine := s.resetLine.drop 2, answers := s.answers.drop 2, draws := s.draws + 2 })

/-- R191: exactly these operands raise `RangeError`, the other three commands never do. -/
def Obligations.RangeErrorExactly : Prop :=
  ∀ (i : Instr) (s t : State), i.isCommand = true → ResetLow 2 s → exec i s = .next t →
    (t.statusLog = s.statusLog ++ [.rangeError] ↔
      match i with
      | .setfreq reg raw => 1 < reg.toNat ∨ raw.toInt < 0 ∨ (s.config.fmclk : ℤ) * 2 ^ 15 ≤ raw.toInt
      | .setphase reg _ _ => 1 < reg.toNat
      | .selreg fsel psel => 1 < fsel.toNat ∨ 1 < psel.toNat
      | _ => False)

/-- R192: a `RangeError` leaves everything as it was; only its status is seen. -/
def Obligations.RangeErrorChangesNothing : Prop :=
  ∀ (i : Instr) (s t : State), i.isCommand = true → s.seq = .idle → ResetLow 2 s → exec i s = .next t →
    t.statusLog = s.statusLog ++ [.rangeError] → t = { s with statusLog := s.statusLog ++ [.rangeError] }

/-- R157: the transactions of a command that ends with Ok. -/
def Obligations.TransactionsPerCommand : Prop :=
  ∀ (i : Instr) (s t : State), i.isCommand = true → ResetLow 2 s → exec i s = .next t →
    t.statusLog = s.statusLog ++ [.ok] →
    t.txLog.length = s.txLog.length + (match i with
      | .setfreq _ _ => if writeModeOf s.ctrl = .both then 2 else 1
      | _ => 1)

/-- R160: what each command leaves alone, and that none clears `FAULT`. -/
def Obligations.CommandsKeepTheirFrame : Prop :=
  ∀ (i : Instr) (s t : State), i.isCommand = true → s.ctrl &&& 0xC215#16 = 0#16 → ResetLow 2 s →
    exec i s = .next t →
    t.config = s.config ∧ t.cmdPort = s.cmdPort ∧ (s.fault = true → t.fault = true) ∧ t.seq = .idle ∧
    (∃ es, t.txLog = s.txLog ++ es) ∧ t.ctrl &&& 0xC215#16 = 0#16 ∧
    (match i with
      | .setctl mask _ =>
        (WellFormed i → t.ctrl &&& ~~~mask = s.ctrl &&& ~~~mask) ∧ t.fcache = s.fcache ∧ t.pcache = s.pcache
      | .setwmode _ => t.ctrl &&& ~~~0x3000#16 = s.ctrl &&& ~~~0x3000#16 ∧ t.fcache = s.fcache ∧ t.pcache = s.pcache
      | .setomode _ => t.ctrl &&& ~~~0x01EA#16 = s.ctrl &&& ~~~0x01EA#16 ∧ t.fcache = s.fcache ∧ t.pcache = s.pcache
      | .selreg _ _ => t.ctrl &&& ~~~0x0C00#16 = s.ctrl &&& ~~~0x0C00#16 ∧ t.fcache = s.fcache ∧ t.pcache = s.pcache
      | .setfreq reg _ =>
        t.ctrl = s.ctrl ∧ t.pcache = s.pcache ∧
        (reg ≠ 0#8 → t.fcache.get .r0 = s.fcache.get .r0) ∧ (reg ≠ 1#8 → t.fcache.get .r1 = s.fcache.get .r1)
      | .setphase reg _ _ =>
        t.ctrl = s.ctrl ∧ t.fcache = s.fcache ∧
        (reg ≠ 0#8 → t.pcache.get .r0 = s.pcache.get .r0) ∧ (reg ≠ 1#8 → t.pcache.get .r1 = s.pcache.get .r1)
      | _ => True)

/-- R150 phase 5, R160: what the transmission of a word leaves alone. -/
def Obligations.EmittedWordsKeepTheirFrame : Prop :=
  ∀ (i : Instr) (s t : State), i.isCommand = false → exec i s = .next t →
    t.ctrl = s.ctrl ∧ t.fcache = s.fcache ∧ t.pcache = s.pcache ∧ t.config = s.config ∧ t.cmdPort = s.cmdPort ∧
    t.resetLine = s.resetLine ∧ (s.fault = true → t.fault = true)

/-- R133 law 6: the result of an output mode does not depend on the mode before it. -/
def Obligations.OutputModesLeaveNoTrace : Prop :=
  ∀ (m₁ m₂ : OutputMode) (s t u v : State), ResetLow 2 s →
    exec (.setomode m₁) s = .next t → exec (.setomode m₂) t = .next u → exec (.setomode m₂) s = .next v →
    u.ctrl = v.ctrl

/-- R88, R151: a partial field update written as a list of fields gives each provided field its value and every other
field what it had. -/
def Obligations.PartialUpdateSetsExactlyItsFields : Prop :=
  ∀ (fields : List (CtrlField × Bool)) (i : Instr) (s : State), assemble (.setctl fields) = some i → ResetLow 1 s →
    WellFormed i ∧ ∃ t, exec i s = .next t ∧ (∀ f v, (f, v) ∈ fields → ctrlGet t.ctrl f = v) ∧
      (∀ f, (∀ v, (f, v) ∉ fields) → ctrlGet t.ctrl f = ctrlGet s.ctrl f)

/-- R95 to R97, R100: a command written with rationals is assembled to the operands that stand for exactly them. -/
def Obligations.AssembledOperandsAreExact : Prop :=
  (∀ (hz : Frac) (reg : Nat) (i : Instr), assemble (.setfreq hz reg) = some i →
    ∃ r raw, i = .setfreq r raw ∧ r.toNat = reg ∧
      ((hzOperand raw).num : ℚ) / (hzOperand raw).den = (hz.num : ℚ) / hz.den) ∧
  (∀ (angle : Frac) (reg : Nat) (unit : AngleUnit) (i : Instr), assemble (.setphase angle reg unit) = some i →
    ∃ r raw, i = .setphase r unit raw ∧ r.toNat = reg ∧
      ((angleOperand raw).num : ℚ) / (angleOperand raw).den = (angle.num : ℚ) / angle.den) ∧
  (∀ (raw : Raw48) (reg : U8), assemble (.setfreq (hzOperand raw) reg.toNat) = some (.setfreq reg raw)) ∧
  (∀ (raw : Raw48) (reg : U8) (unit : AngleUnit),
    assemble (.setphase (angleOperand raw) reg.toNat unit) = some (.setphase reg unit raw))

/-- R34, R35: the selects do not steer which words `SETFREQ` sends, and nothing of `CTRL` steers `SETPHASE`. -/
def Obligations.SelectsDoNotSteerWrites : Prop :=
  (∀ (reg : U8) (raw : Raw48) (s t u : State) (c : U16), c &&& ~~~0x0C00#16 = s.ctrl &&& ~~~0x0C00#16 →
    exec (.setfreq reg raw) s = .next t → exec (.setfreq reg raw) { s with ctrl := c } = .next u →
    u.txLog = t.txLog ∧ u.fcache = t.fcache ∧ u.statusLog = t.statusLog) ∧
  (∀ (reg : U8) (unit : AngleUnit) (raw : Raw48) (s t u : State) (c : U16),
    exec (.setphase reg unit raw) s = .next t → exec (.setphase reg unit raw) { s with ctrl := c } = .next u →
    u.txLog = t.txLog ∧ u.pcache = t.pcache ∧ u.statusLog = t.statusLog)

/-- R159: no command reads the caches, `FAULT` or `TXLOG`: from two states that differ only in them, and with the same
transport answers, a command sends the same words, returns the same status and leaves the same `CTRL`. -/
def Obligations.CommandsIgnoreCachesFaultAndLog : Prop :=
  ∀ (i : Instr) (s s' t t' : State), i.isCommand = true → ResetLow 2 s →
    s'.ctrl = s.ctrl → s'.config = s.config → s'.resetLine = s.resetLine → s'.answers = s.answers →
    s'.draws = s.draws → exec i s = .next t → exec i s' = .next t' →
    t'.ctrl = t.ctrl ∧ t'.answers = t.answers ∧ t'.draws = t.draws ∧
    ∃ es st, t.txLog = s.txLog ++ es ∧ t'.txLog = s'.txLog ++ es ∧ es.length ≤ 2 ∧
      t.statusLog = s.statusLog ++ [st] ∧ t'.statusLog = s'.statusLog ++ [st]

/-! ## The step -/

/-- R150 phase 1, R158, log entry 9: a legal command word presented to an idle block is run by the next step. -/
def Obligations.StepRunsPresentedCommand : Prop :=
  ∀ (s : State) (c : CommandWord) (rest : List CommandWord) (i : Instr),
    ResetLow 1 s → s.seq = .idle → s.cmdPort = c :: rest → decodeCommand c = .ok i →
    step s = exec i { s with cmdPort := rest, resetLine := s.resetLine.drop 1 }

/-- R41, R150 phase 5: with a command in progress the next step runs the word at the sequencer's position. -/
def Obligations.StepRunsWordAtPosition : Prop :=
  ∀ (s : State) (ws : List U16) (k : Nat) (w : U16) (i : Instr),
    ResetLow 1 s → s.seq = .sending ws k → ws[k]? = some w → decodeEmitted w = .ok i →
    step s = exec i { s with resetLine := s.resetLine.drop 1 }

/-- R193: an illegal command word has no effect but its status. -/
def Obligations.IllegalCommandChangesNothing : Prop :=
  ∀ (s : State) (c : CommandWord) (rest : List CommandWord) (e : Reject),
    ResetLow 1 s → s.seq = .idle → s.cmdPort = c :: rest → decodeCommand c = .error e →
    step s = .next { s with
      cmdPort := rest, resetLine := s.resetLine.drop 1, statusLog := s.statusLog ++ [.illegalCommand] }

/-- R158, log entry 7: with no command presented an idle block waits. -/
def Obligations.IdleBlockWaits : Prop :=
  ∀ s : State, ResetLow 1 s → s.seq = .idle → s.cmdPort = [] →
    step s = .next { s with resetLine := s.resetLine.drop 1 }

/-- R158: a presented command is held while another is in progress, and at most one word is sent in a step then. -/
def Obligations.PresentedCommandIsHeld : Prop :=
  ∀ (s t : State) (ws : List U16) (k : Nat), s.seq = .sending ws k → ResetLow 1 s → step s = .next t →
    t.cmdPort = s.cmdPort ∧ t.ctrl = s.ctrl ∧ ∃ es, t.txLog = s.txLog ++ es ∧ es.length ≤ 1

/-- R41: the position is not observable between commands: a step from `IDLE` ends in `IDLE`. -/
def Obligations.PositionEndsWithCommand : Prop :=
  ∀ s t : State, s.seq = .idle → step s = .next t → t.seq = .idle

/-- R190, R202: one status per command, in command order. -/
def Obligations.OneStatusPerCommand : Prop :=
  ∀ (s t : State) (c : CommandWord) (rest : List CommandWord), ResetLow 3 s → s.seq = .idle →
    s.cmdPort = c :: rest → step s = .next t →
    t.cmdPort = rest ∧ ∃ st, t.statusLog = s.statusLog ++ [st] ∧
      (st = .transportError ↔ ∃ es, t.txLog = s.txLog ++ es ∧ ∃ e ∈ es, e.result = .err) ∧
      (st = .illegalCommand ↔ ∃ e, decodeCommand c = .error e)

/-- R39, R44: without a reset a step only appends to `TXLOG`, at most two transactions (R159), and `FAULT` is set
afterwards exactly when it was before or one of them was answered Err. -/
def Obligations.FaultRecordsFailedTransactions : Prop :=
  ∀ s t : State, ResetLow 3 s → step s = .next t →
    ∃ es, t.txLog = s.txLog ++ es ∧ es.length ≤ 2 ∧
      (t.fault = true ↔ s.fault = true ∨ ∃ e ∈ es, e.result = .err)

/-- Log entry 8: a step stops only at a word the block never emits (R85), and no step is refused. -/
def Obligations.StepStopsOnlyAtNeverEmittedWord : Prop :=
  ∀ s : State,
    ((∃ f, step s = .fault f) ↔ ResetLow 1 s ∧ ∃ ws k w, s.seq = .sending ws k ∧ ws[k]? = some w ∧
      neverEmitted w = true) ∧
    (∀ r, step s ≠ .refused r)

/-! ## Invariants -/

/-- The invariant holds after reset. -/
def Obligations.ResetStateMeetsInvariant : Prop := Inv State.reset ∧ ShadowMatches State.reset

/-- R21, R37, R39, R85: every step from a state that meets the invariant gives a state that meets it, and no such
state stops the machine. -/
def Obligations.StepKeepsInvariantAndNeverStops : Prop :=
  ∀ s : State, Inv s → ∃ t, step s = .next t ∧ Inv t

/-- R150, R250, log entry 6: a command as one step is the same as its words one step at a time. -/
def Obligations.CommandEqualsItsWordsStepByStep : Prop :=
  ∀ (i : Instr) (s : State), i.isCommand = true → runCommand 2 (beginCommand i s) = exec i s

/-! ## The transport and the target -/

/-- R52 to R55: on the bus a transaction is two bytes, high byte first, inside its own select interval, whatever the
answer; on the wire bit 15 comes first. -/
def Obligations.TransactionOnTheBus : Prop :=
  (∀ (log : List TxEntry) (e : TxEntry), busTrace (log ++ [e]) = busTrace log ++
    [.selectLow, .byte (BitVec.ofNat 8 (e.word.toNat / 256)), .byte (BitVec.ofNat 8 (e.word.toNat % 256)),
      .selectHigh]) ∧
  (∀ w : U16, (wireBits w).length = 16 ∧ ∀ k, k < 16 → (wireBits w)[k]? = some (w.getLsbD (15 - k)))

/-- R51: the map of the target register space by the top bits of a word. -/
def Obligations.TargetRegisterMap : Prop :=
  ∀ w : U16,
    targetReg w =
      if w.toNat < 2 ^ 14 then .control
      else if w.toNat < 2 * 2 ^ 14 then .freq .r0
      else if w.toNat < 3 * 2 ^ 14 then .freq .r1
      else if w.toNat < 3 * 2 ^ 14 + 2 ^ 13 then .phase .r0
      else .phase .r1

/-- R233, R240, under the premise D18 (log entry 10): as long as no transaction has failed, the control word the target is known to
hold is the shadow's value or is on its way; every step keeps this. -/
def Obligations.StepKeepsShadowMatchingTarget : Prop :=
  ∀ s t : State, Inv s → ShadowMatches s → step s = .next t → ShadowMatches t

/-- R233, under D18 (log entry 10) and the premise `FAULT = 0` (R39, D17): after a `SETCTL` that ended with Ok the
target's control register is the shadow's value. -/
def Obligations.SetctlPublishesShadow : Prop :=
  ∀ (mask val : U16) (s t : State), Inv s → s.fault = false → WellFormed (.setctl mask val) → ResetLow 1 s →
    exec (.setctl mask val) s = .next t → t.statusLog = s.statusLog ++ [.ok] →
    (targetView t.txLog).control = some t.ctrl

/-- R65 (a), R242, R246, under D18 (log entry 10) and the premise `FAULT = 0` (R39, D17), which `Inv` makes 'every
transaction was answered Ok': in Both mode a complete pair after a control word gives the target the whole tuning word,
from every history that is not inside a pair. -/
def Obligations.PairAfterControlWordLoadsRegister : Prop :=
  ∀ (log : List TxEntry) (c : U16) (W : U28) (r : Reg), (∀ e ∈ log, e.result = .ok) →
    c &&& 0xC215#16 = 0#16 → writeModeOf c = .both →
    (∀ q half, (targetView log).pairing ≠ .lowHeld q half) →
    let p := splitFrequencyWord W r
    (targetView (log ++ [⟨c, .ok⟩, ⟨p.2, .ok⟩, ⟨p.1, .ok⟩])).freqWord r = some W

/-- R241, R65 (b), under D18 (log entry 10) and the premise `FAULT = 0` (R39, D17): in a split mode one half is replaced
and the other is the stale one; the two-step load gives the whole tuning word. From histories that hold no broken pair:
after one, what the target does with a frequency word is not in the source (R242). -/
def Obligations.SplitModesReplaceOneHalf : Prop :=
  (∀ (log : List TxEntry) (c : U16) (W : U28) (r : Reg), (∀ e ∈ log, e.result = .ok) →
    (targetView log).control = some c → (targetView log).pairing = .ready → writeModeOf c = .mostSignificantOnly →
    let v := targetView (log ++ [⟨(splitFrequencyWord W r).1, .ok⟩])
    v.freqHi.get r = some (msb14 W) ∧ v.freqLo = (targetView log).freqLo) ∧
  (∀ (log : List TxEntry) (c : U16) (W : U28) (r : Reg), (∀ e ∈ log, e.result = .ok) →
    (targetView log).control = some c → (targetView log).pairing = .ready → writeModeOf c = .leastSignificantOnly →
    let v := targetView (log ++ [⟨(splitFrequencyWord W r).2, .ok⟩])
    v.freqLo.get r = some (lsb14 W) ∧ v.freqHi = (targetView log).freqHi) ∧
  (∀ (log : List TxEntry) (c d : U16) (W : U28) (r : Reg), (∀ e ∈ log, e.result = .ok) →
    c &&& 0xC215#16 = 0#16 → d &&& 0xC215#16 = 0#16 →
    writeModeOf c = .leastSignificantOnly → writeModeOf d = .mostSignificantOnly →
    (∀ q half, (targetView log).pairing ≠ .lowHeld q half) →
    let p := splitFrequencyWord W r
    (targetView (log ++ [⟨c, .ok⟩, ⟨p.2, .ok⟩, ⟨d, .ok⟩, ⟨p.1, .ok⟩])).freqWord r = some W)

/-! ## The laws of the Encoder -/

/-- R133: the six laws. -/
def Obligations.EncoderLawsHold : Prop :=
  SplitDecodeLaw ∧ QuantisationLaw ∧ PhasePeriodicityLaw ∧ TagLaw ∧ ControlWordLaw ∧ ModeIdempotenceLaw
end

