-- ==== Sys2Proof/Laws/State.lean ====
section
/-! SUPPORT. One lemma per field per update of the state, true by rfl, so that no later proof unfolds a record
update. -/

namespace Sys2Proof.Machine

variable (s : State)

/-! ## writeCtrl -/

@[simp] theorem writeCtrl_ctrl (v : U16) : (s.writeCtrl v).ctrl = v &&& ctrlImpl := rfl
@[simp] theorem writeCtrl_fcache (v : U16) : (s.writeCtrl v).fcache = s.fcache := rfl
@[simp] theorem writeCtrl_pcache (v : U16) : (s.writeCtrl v).pcache = s.pcache := rfl
@[simp] theorem writeCtrl_fault (v : U16) : (s.writeCtrl v).fault = s.fault := rfl
@[simp] theorem writeCtrl_seq (v : U16) : (s.writeCtrl v).seq = s.seq := rfl
@[simp] theorem writeCtrl_txLog (v : U16) : (s.writeCtrl v).txLog = s.txLog := rfl
@[simp] theorem writeCtrl_statusLog (v : U16) : (s.writeCtrl v).statusLog = s.statusLog := rfl
@[simp] theorem writeCtrl_cmdPort (v : U16) : (s.writeCtrl v).cmdPort = s.cmdPort := rfl
@[simp] theorem writeCtrl_resetLine (v : U16) : (s.writeCtrl v).resetLine = s.resetLine := rfl
@[simp] theorem writeCtrl_answers (v : U16) : (s.writeCtrl v).answers = s.answers := rfl
@[simp] theorem writeCtrl_draws (v : U16) : (s.writeCtrl v).draws = s.draws := rfl
@[simp] theorem writeCtrl_config (v : U16) : (s.writeCtrl v).config = s.config := rfl

/-! ## writeFCache -/

@[simp] theorem writeFCache_ctrl (r : Reg) (x : Raw48) : (s.writeFCache r x).ctrl = s.ctrl := rfl
@[simp] theorem writeFCache_fcache (r : Reg) (x : Raw48) : (s.writeFCache r x).fcache = s.fcache.set r (some x) := rfl
@[simp] theorem writeFCache_pcache (r : Reg) (x : Raw48) : (s.writeFCache r x).pcache = s.pcache := rfl
@[simp] theorem writeFCache_fault (r : Reg) (x : Raw48) : (s.writeFCache r x).fault = s.fault := rfl
@[simp] theorem writeFCache_seq (r : Reg) (x : Raw48) : (s.writeFCache r x).seq = s.seq := rfl
@[simp] theorem writeFCache_txLog (r : Reg) (x : Raw48) : (s.writeFCache r x).txLog = s.txLog := rfl
@[simp] theorem writeFCache_statusLog (r : Reg) (x : Raw48) : (s.writeFCache r x).statusLog = s.statusLog := rfl
@[simp] theorem writeFCache_cmdPort (r : Reg) (x : Raw48) : (s.writeFCache r x).cmdPort = s.cmdPort := rfl
@[simp] theorem writeFCache_resetLine (r : Reg) (x : Raw48) : (s.writeFCache r x).resetLine = s.resetLine := rfl
@[simp] theorem writeFCache_answers (r : Reg) (x : Raw48) : (s.writeFCache r x).answers = s.answers := rfl
@[simp] theorem writeFCache_draws (r : Reg) (x : Raw48) : (s.writeFCache r x).draws = s.draws := rfl
@[simp] theorem writeFCache_config (r : Reg) (x : Raw48) : (s.writeFCache r x).config = s.config := rfl

/-! ## writePCache -/

@[simp] theorem writePCache_ctrl (r : Reg) (x : PhaseEntry) : (s.writePCache r x).ctrl = s.ctrl := rfl
@[simp] theorem writePCache_fcache (r : Reg) (x : PhaseEntry) : (s.writePCache r x).fcache = s.fcache := rfl
@[simp] theorem writePCache_pcache (r : Reg) (x : PhaseEntry) : (s.writePCache r x).pcache = s.pcache.set r (some x) := rfl
@[simp] theorem writePCache_fault (r : Reg) (x : PhaseEntry) : (s.writePCache r x).fault = s.fault := rfl
@[simp] theorem writePCache_seq (r : Reg) (x : PhaseEntry) : (s.writePCache r x).seq = s.seq := rfl
@[simp] theorem writePCache_txLog (r : Reg) (x : PhaseEntry) : (s.writePCache r x).txLog = s.txLog := rfl
@[simp] theorem writePCache_statusLog (r : Reg) (x : PhaseEntry) : (s.writePCache r x).statusLog = s.statusLog := rfl
@[simp] theorem writePCache_cmdPort (r : Reg) (x : PhaseEntry) : (s.writePCache r x).cmdPort = s.cmdPort := rfl
@[simp] theorem writePCache_resetLine (r : Reg) (x : PhaseEntry) : (s.writePCache r x).resetLine = s.resetLine := rfl
@[simp] theorem writePCache_answers (r : Reg) (x : PhaseEntry) : (s.writePCache r x).answers = s.answers := rfl
@[simp] theorem writePCache_draws (r : Reg) (x : PhaseEntry) : (s.writePCache r x).draws = s.draws := rfl
@[simp] theorem writePCache_config (r : Reg) (x : PhaseEntry) : (s.writePCache r x).config = s.config := rfl

/-! ## setFault -/

@[simp] theorem setFault_ctrl : s.setFault.ctrl = s.ctrl := rfl
@[simp] theorem setFault_fcache : s.setFault.fcache = s.fcache := rfl
@[simp] theorem setFault_pcache : s.setFault.pcache = s.pcache := rfl
@[simp] theorem setFault_fault : s.setFault.fault = true := rfl
@[simp] theorem setFault_seq : s.setFault.seq = s.seq := rfl
@[simp] theorem setFault_txLog : s.setFault.txLog = s.txLog := rfl
@[simp] theorem setFault_statusLog : s.setFault.statusLog = s.statusLog := rfl
@[simp] theorem setFault_cmdPort : s.setFault.cmdPort = s.cmdPort := rfl
@[simp] theorem setFault_resetLine : s.setFault.resetLine = s.resetLine := rfl
@[simp] theorem setFault_answers : s.setFault.answers = s.answers := rfl
@[simp] theorem setFault_draws : s.setFault.draws = s.draws := rfl
@[simp] theorem setFault_config : s.setFault.config = s.config := rfl

/-! ## withSeq -/

@[simp] theorem withSeq_ctrl (p : SeqPos) : (s.withSeq p).ctrl = s.ctrl := rfl
@[simp] theorem withSeq_fcache (p : SeqPos) : (s.withSeq p).fcache = s.fcache := rfl
@[simp] theorem withSeq_pcache (p : SeqPos) : (s.withSeq p).pcache = s.pcache := rfl
@[simp] theorem withSeq_fault (p : SeqPos) : (s.withSeq p).fault = s.fault := rfl
@[simp] theorem withSeq_seq (p : SeqPos) : (s.withSeq p).seq = p := rfl
@[simp] theorem withSeq_txLog (p : SeqPos) : (s.withSeq p).txLog = s.txLog := rfl
@[simp] theorem withSeq_statusLog (p : SeqPos) : (s.withSeq p).statusLog = s.statusLog := rfl
@[simp] theorem withSeq_cmdPort (p : SeqPos) : (s.withSeq p).cmdPort = s.cmdPort := rfl
@[simp] theorem withSeq_resetLine (p : SeqPos) : (s.withSeq p).resetLine = s.resetLine := rfl
@[simp] theorem withSeq_answers (p : SeqPos) : (s.withSeq p).answers = s.answers := rfl
@[simp] theorem withSeq_draws (p : SeqPos) : (s.withSeq p).draws = s.draws := rfl
@[simp] theorem withSeq_config (p : SeqPos) : (s.withSeq p).config = s.config := rfl

/-! ## startSending -/

@[simp] theorem startSending_ctrl (ws : List U16) : (s.startSending ws).ctrl = s.ctrl := rfl
@[simp] theorem startSending_fcache (ws : List U16) : (s.startSending ws).fcache = s.fcache := rfl
@[simp] theorem startSending_pcache (ws : List U16) : (s.startSending ws).pcache = s.pcache := rfl
@[simp] theorem startSending_fault (ws : List U16) : (s.startSending ws).fault = s.fault := rfl
@[simp] theorem startSending_seq (ws : List U16) : (s.startSending ws).seq = .sending ws 0 := rfl
@[simp] theorem startSending_txLog (ws : List U16) : (s.startSending ws).txLog = s.txLog := rfl
@[simp] theorem startSending_statusLog (ws : List U16) : (s.startSending ws).statusLog = s.statusLog := rfl
@[simp] theorem startSending_cmdPort (ws : List U16) : (s.startSending ws).cmdPort = s.cmdPort := rfl
@[simp] theorem startSending_resetLine (ws : List U16) : (s.startSending ws).resetLine = s.resetLine := rfl
@[simp] theorem startSending_answers (ws : List U16) : (s.startSending ws).answers = s.answers := rfl
@[simp] theorem startSending_draws (ws : List U16) : (s.startSending ws).draws = s.draws := rfl
@[simp] theorem startSending_config (ws : List U16) : (s.startSending ws).config = s.config := rfl

/-! ## endCommand -/

@[simp] theorem endCommand_ctrl (st : Status) : (s.endCommand st).ctrl = s.ctrl := rfl
@[simp] theorem endCommand_fcache (st : Status) : (s.endCommand st).fcache = s.fcache := rfl
@[simp] theorem endCommand_pcache (st : Status) : (s.endCommand st).pcache = s.pcache := rfl
@[simp] theorem endCommand_fault (st : Status) : (s.endCommand st).fault = s.fault := rfl
@[simp] theorem endCommand_seq (st : Status) : (s.endCommand st).seq = .idle := rfl
@[simp] theorem endCommand_txLog (st : Status) : (s.endCommand st).txLog = s.txLog := rfl
@[simp] theorem endCommand_statusLog (st : Status) : (s.endCommand st).statusLog = s.statusLog ++ [st] := rfl
@[simp] theorem endCommand_cmdPort (st : Status) : (s.endCommand st).cmdPort = s.cmdPort := rfl
@[simp] theorem endCommand_resetLine (st : Status) : (s.endCommand st).resetLine = s.resetLine := rfl
@[simp] theorem endCommand_answers (st : Status) : (s.endCommand st).answers = s.answers := rfl
@[simp] theorem endCommand_draws (st : Status) : (s.endCommand st).draws = s.draws := rfl
@[simp] theorem endCommand_config (st : Status) : (s.endCommand st).config = s.config := rfl

/-! ## transact -/

@[simp] theorem transact_ctrl (w : U16) : (s.transact w).ctrl = s.ctrl := rfl
@[simp] theorem transact_fcache (w : U16) : (s.transact w).fcache = s.fcache := rfl
@[simp] theorem transact_pcache (w : U16) : (s.transact w).pcache = s.pcache := rfl
@[simp] theorem transact_fault (w : U16) : (s.transact w).fault = s.fault := rfl
@[simp] theorem transact_seq (w : U16) : (s.transact w).seq = s.seq := rfl
@[simp] theorem transact_txLog (w : U16) : (s.transact w).txLog = s.txLog ++ [⟨w, s.nextAnswer⟩] := rfl
@[simp] theorem transact_statusLog (w : U16) : (s.transact w).statusLog = s.statusLog := rfl
@[simp] theorem transact_cmdPort (w : U16) : (s.transact w).cmdPort = s.cmdPort := rfl
@[simp] theorem transact_resetLine (w : U16) : (s.transact w).resetLine = s.resetLine := rfl
@[simp] theorem transact_answers (w : U16) : (s.transact w).answers = s.answers.tail := rfl
@[simp] theorem transact_draws (w : U16) : (s.transact w).draws = s.draws + 1 := rfl
@[simp] theorem transact_config (w : U16) : (s.transact w).config = s.config := rfl

/-! ## popReset -/

@[simp] theorem popReset_ctrl : s.popReset.ctrl = s.ctrl := rfl
@[simp] theorem popReset_fcache : s.popReset.fcache = s.fcache := rfl
@[simp] theorem popReset_pcache : s.popReset.pcache = s.pcache := rfl
@[simp] theorem popReset_fault : s.popReset.fault = s.fault := rfl
@[simp] theorem popReset_seq : s.popReset.seq = s.seq := rfl
@[simp] theorem popReset_txLog : s.popReset.txLog = s.txLog := rfl
@[simp] theorem popReset_statusLog : s.popReset.statusLog = s.statusLog := rfl
@[simp] theorem popReset_cmdPort : s.popReset.cmdPort = s.cmdPort := rfl
@[simp] theorem popReset_resetLine : s.popReset.resetLine = s.resetLine.tail := rfl
@[simp] theorem popReset_answers : s.popReset.answers = s.answers := rfl
@[simp] theorem popReset_draws : s.popReset.draws = s.draws := rfl
@[simp] theorem popReset_config : s.popReset.config = s.config := rfl

/-! ## popCommand -/

@[simp] theorem popCommand_ctrl : s.popCommand.ctrl = s.ctrl := rfl
@[simp] theorem popCommand_fcache : s.popCommand.fcache = s.fcache := rfl
@[simp] theorem popCommand_pcache : s.popCommand.pcache = s.pcache := rfl
@[simp] theorem popCommand_fault : s.popCommand.fault = s.fault := rfl
@[simp] theorem popCommand_seq : s.popCommand.seq = s.seq := rfl
@[simp] theorem popCommand_txLog : s.popCommand.txLog = s.txLog := rfl
@[simp] theorem popCommand_statusLog : s.popCommand.statusLog = s.statusLog := rfl
@[simp] theorem popCommand_cmdPort : s.popCommand.cmdPort = s.cmdPort.tail := rfl
@[simp] theorem popCommand_resetLine : s.popCommand.resetLine = s.resetLine := rfl
@[simp] theorem popCommand_answers : s.popCommand.answers = s.answers := rfl
@[simp] theorem popCommand_draws : s.popCommand.draws = s.draws := rfl
@[simp] theorem popCommand_config : s.popCommand.config = s.config := rfl

/-! ## resetBlock -/

@[simp] theorem resetBlock_ctrl : s.resetBlock.ctrl = 0x2100#16 := rfl
@[simp] theorem resetBlock_fcache : s.resetBlock.fcache = ⟨none, none⟩ := rfl
@[simp] theorem resetBlock_pcache : s.resetBlock.pcache = ⟨none, none⟩ := rfl
@[simp] theorem resetBlock_fault : s.resetBlock.fault = false := rfl
@[simp] theorem resetBlock_seq : s.resetBlock.seq = .idle := rfl
@[simp] theorem resetBlock_txLog : s.resetBlock.txLog = [] := rfl
@[simp] theorem resetBlock_statusLog : s.resetBlock.statusLog = [] := rfl
@[simp] theorem resetBlock_cmdPort : s.resetBlock.cmdPort = s.cmdPort := rfl
@[simp] theorem resetBlock_resetLine : s.resetBlock.resetLine = s.resetLine := rfl
@[simp] theorem resetBlock_answers : s.resetBlock.answers = s.answers := rfl
@[simp] theorem resetBlock_draws : s.resetBlock.draws = s.draws := rfl
@[simp] theorem resetBlock_config : s.resetBlock.config = s.config := rfl

end Sys2Proof.Machine
end

