-- ==== Sys2Proof/Laws/Ops.lean ====
section
/-! SUPPORT. What the shared operations can do, said once: the transmit phase over one and over two words, with and
without a reset inside it, and the step. -/

namespace Sys2Proof.Machine

variable {s t : State}

/-! ## The reset line -/

theorem ResetLow.resetAsserted {n : Nat} (h : ResetLow (n + 1) s) : s.resetAsserted = false := by
  cases hl : s.resetLine with
  | nil => simp [State.resetAsserted, hl]
  | cons b rest => simpa [State.resetAsserted, hl] using h b (by simp [hl])

theorem ResetLow.popReset {n : Nat} (h : ResetLow (n + 1) s) : ResetLow n s.popReset := by
  intro b hb
  cases hl : s.resetLine with
  | nil => simp [hl] at hb
  | cons c rest =>
    refine h b ?_
    rw [hl, List.take_succ_cons]
    simp only [popReset_resetLine, hl, List.tail_cons] at hb
    exact List.mem_cons_of_mem c hb

theorem ResetLow.mono {m n : Nat} (h : ResetLow n s) (hmn : m ≤ n) : ResetLow m s :=
  fun b hb => h b (List.take_subset_take_left _ hmn hb)

theorem ResetLow.of_resetLine_eq {n : Nat} (h : ResetLow n s) (e : t.resetLine = s.resetLine) : ResetLow n t :=
  fun b hb => h b (e ▸ hb)

theorem resetLow_nil (h : s.resetLine = []) (n : Nat) : ResetLow n s := by
  intro b hb
  simp [h] at hb

/-! ## The transport's answers -/

@[simp] theorem nextAnswer_withSeq (p : SeqPos) : (s.withSeq p).nextAnswer = s.nextAnswer := rfl
@[simp] theorem nextAnswer_startSending (ws : List U16) : (s.startSending ws).nextAnswer = s.nextAnswer := rfl
@[simp] theorem nextAnswer_popReset : s.popReset.nextAnswer = s.nextAnswer := rfl
@[simp] theorem nextAnswer_writeCtrl (v : U16) : (s.writeCtrl v).nextAnswer = s.nextAnswer := rfl
@[simp] theorem nextAnswer_writeFCache (r : Reg) (x : Raw48) : (s.writeFCache r x).nextAnswer = s.nextAnswer := rfl
@[simp] theorem nextAnswer_writePCache (r : Reg) (e : PhaseEntry) :
    (s.writePCache r e).nextAnswer = s.nextAnswer := rfl

theorem nextAnswer_transact (w : U16) : (s.transact w).nextAnswer = s.secondAnswer := by
  unfold State.nextAnswer State.secondAnswer
  simp only [transact_answers, transact_draws]
  rcases s.answers with _ | ⟨a, _ | ⟨b, rest⟩⟩ <;> rfl

/-! ## One word sent -/

@[simp] theorem afterOneWord_ctrl (w : U16) : (afterOneWord w s).ctrl = s.ctrl := rfl
@[simp] theorem afterOneWord_fcache (w : U16) : (afterOneWord w s).fcache = s.fcache := rfl
@[simp] theorem afterOneWord_pcache (w : U16) : (afterOneWord w s).pcache = s.pcache := rfl
@[simp] theorem afterOneWord_fault (w : U16) : (afterOneWord w s).fault = (s.fault || (s.nextAnswer == .err)) := rfl
@[simp] theorem afterOneWord_seq (w : U16) : (afterOneWord w s).seq = .idle := rfl
@[simp] theorem afterOneWord_txLog (w : U16) : (afterOneWord w s).txLog = s.txLog ++ [⟨w, s.nextAnswer⟩] := rfl
@[simp] theorem afterOneWord_statusLog (w : U16) : (afterOneWord w s).statusLog = s.statusLog ++ [statusOfAnswer s.nextAnswer] := rfl
@[simp] theorem afterOneWord_cmdPort (w : U16) : (afterOneWord w s).cmdPort = s.cmdPort := rfl
@[simp] theorem afterOneWord_resetLine (w : U16) : (afterOneWord w s).resetLine = s.resetLine.drop 1 := rfl
@[simp] theorem afterOneWord_answers (w : U16) : (afterOneWord w s).answers = s.answers.drop 1 := rfl
@[simp] theorem afterOneWord_draws (w : U16) : (afterOneWord w s).draws = s.draws + 1 := rfl
@[simp] theorem afterOneWord_config (w : U16) : (afterOneWord w s).config = s.config := rfl

/-! ## The transmit phase -/

theorem transmitPhase_idle (h : s.seq = .idle) : transmitPhase s = s := by
  simp [transmitPhase, h]

theorem drain_idle (n : Nat) (h : s.seq = .idle) : drain n s = s := by
  cases n <;> simp [drain, h]

theorem transmitPhase_startSending (ws : List U16) :
    transmitPhase (s.startSending ws) = drain ws.length (s.startSending ws) := by
  simp [transmitPhase]

/-- A round on the last word, answered either way. -/
theorem sendNext_last {ws : List U16} {k : Nat} {w : U16} (hs : s.seq = .sending ws k) (hw : ws[k]? = some w)
    (hk : ws.length = k + 1) : sendNext s = { afterOneWord w s with resetLine := s.resetLine } := by
  simp only [sendNext, hs, hw, transmitWord]
  cases ha : s.nextAnswer <;>
    simp [advance, raiseTransportError, hs, hk, ha, afterOneWord, State.endCommand, State.transact,
      State.setFault, statusOfAnswer]

/-- A round on a word that is not the last. -/
theorem sendNext_more {ws : List U16} {k : Nat} {w : U16} (hs : s.seq = .sending ws k) (hw : ws[k]? = some w)
    (hk : k + 1 < ws.length) : sendNext s = match s.nextAnswer with
      | .ok => (s.transact w).withSeq (.sending ws (k + 1))
      | .err => { afterOneWord w s with resetLine := s.resetLine } := by
  simp only [sendNext, hs, hw, transmitWord]
  cases ha : s.nextAnswer <;>
    simp [advance, raiseTransportError, hs, hk, ha, afterOneWord, State.endCommand, State.transact,
      State.setFault, statusOfAnswer]

/-- The transmit phase over one word, reset staying low. -/
theorem transmitPhase_one (w : U16) (h : ResetLow 1 s) :
    transmitPhase (s.startSending [w]) = afterOneWord w s := by
  have hr : (s.startSending [w]).resetAsserted = false := h.resetAsserted
  rw [transmitPhase_startSending]
  simp only [List.length_singleton, drain, startSending_seq, sendNextUnlessReset, hr, Bool.false_eq_true, if_false]
  rw [sendNext_last (ws := [w]) (k := 0) (w := w) (by simp) rfl rfl]
  ext1 <;> simp

/-- A reset before the first word abandons the command. -/
theorem transmitPhase_reset (w : U16) (ws : List U16) (h : s.resetAsserted = true) :
    transmitPhase (s.startSending (w :: ws)) = s.popReset.resetBlock := by
  have hr : (s.startSending (w :: ws)).resetAsserted = true := h
  rw [transmitPhase_startSending]
  simp only [List.length_cons, drain, startSending_seq, sendNextUnlessReset, hr, if_true]
  exact drain_idle _ rfl

/-- The transmit phase over two words: what the first round leaves. -/
theorem transmitPhase_two_first (w₀ w₁ : U16) (h : s.resetAsserted = false) :
    transmitPhase (s.startSending [w₀, w₁]) = match s.nextAnswer with
      | .err => afterOneWord w₀ s
      | .ok => sendNextUnlessReset ((s.popReset.transact w₀).withSeq (.sending [w₀, w₁] 1)) := by
  have hr : (s.startSending [w₀, w₁]).resetAsserted = false := h
  rw [transmitPhase_startSending]
  simp only [List.length_cons, List.length_nil, drain, startSending_seq, sendNextUnlessReset, hr, Bool.false_eq_true,
    if_false]
  rw [sendNext_more (ws := [w₀, w₁]) (k := 0) (w := w₀) (by simp) rfl (by simp)]
  have hn : (s.startSending [w₀, w₁]).popReset.nextAnswer = s.nextAnswer := rfl
  rw [hn]
  cases ha : s.nextAnswer with
  | ok =>
    have e : ((s.startSending [w₀, w₁]).popReset.transact w₀).withSeq (.sending [w₀, w₁] (0 + 1)) =
        (s.popReset.transact w₀).withSeq (.sending [w₀, w₁] 1) := rfl
    simp only [e, withSeq_seq]
  | err =>
    simp only
    ext1 <;> simp

/-- The transmit phase over two words, reset staying low. -/
theorem transmitPhase_two (w₀ w₁ : U16) (h : ResetLow 2 s) :
    transmitPhase (s.startSending [w₀, w₁]) = afterTwoWords w₀ w₁ s := by
  rw [transmitPhase_two_first w₀ w₁ h.resetAsserted]
  cases ha : s.nextAnswer with
  | err => simp [afterTwoWords, ha]
  | ok =>
    have hr : ((s.popReset.transact w₀).withSeq (.sending [w₀, w₁] 1)).resetAsserted = false :=
      (h.popReset).resetAsserted
    have hn : s.popReset.nextAnswer = .ok := ha
    have h2 : (s.popReset.transact w₀).nextAnswer = s.secondAnswer := nextAnswer_transact w₀
    simp only [sendNextUnlessReset, hr, Bool.false_eq_true, if_false]
    rw [sendNext_last (ws := [w₀, w₁]) (k := 1) (w := w₁) (by simp) rfl rfl]
    have h3 : ((s.popReset.transact w₀).withSeq (.sending [w₀, w₁] 1)).popReset.nextAnswer = s.secondAnswer := h2
    simp only [afterTwoWords, ha]
    ext1 <;> simp [h3, hn]
    rcases s.resetLine with _ | ⟨_, _ | ⟨_, _⟩⟩ <;> rfl

/-- A reset between the two words: the second is never sent. -/
theorem transmitPhase_two_reset (w₀ w₁ : U16) (h : s.resetAsserted = false) (ha : s.nextAnswer = .ok)
    (h' : s.popReset.resetAsserted = true) :
    transmitPhase (s.startSending [w₀, w₁]) = ((s.popReset.transact w₀).popReset).resetBlock := by
  rw [transmitPhase_two_first w₀ w₁ h, ha]
  have hr : ((s.popReset.transact w₀).withSeq (.sending [w₀, w₁] 1)).resetAsserted = true := h'
  simp only [sendNextUnlessReset, hr, if_true]
  rfl

end Sys2Proof.Machine
end

