-- ==== Sys2Proof/Laws/Words.lean ====
section
/-! SUPPORT. Laws of the word formats and the operands: the bits of every encoded word, the control word as a masked
value, register selects and ranges as numbers, and which words decode. -/

namespace Sys2Proof.Machine

/-! ## Masks of 16-bit words -/

theorem and_or_and_not (c m : U16) : c = (c &&& m) ||| (c &&& ~~~m) := by
  apply BitVec.eq_of_getLsbD_eq
  intro i hi
  simp only [BitVec.getLsbD_or, BitVec.getLsbD_and, BitVec.getLsbD_not, hi, decide_true, Bool.true_and]
  cases c.getLsbD i <;> cases m.getLsbD i <;> rfl

theorem and_eq_of_and_not {v m : U16} (h : v &&& ~~~m = 0#16) : v &&& m = v := by
  have e := and_or_and_not v m
  rw [h] at e
  simpa using e.symm

theorem reserved_zero_iff (c : U16) : c &&& ctrlRsvd = 0#16 ↔ c &&& ctrlImpl = c := by
  have e : ctrlImpl = ~~~ctrlRsvd := by decide
  have e' : ctrlRsvd = ~~~ctrlImpl := by decide
  constructor
  · exact fun h => and_eq_of_and_not (e' ▸ h)
  · intro h
    rw [← h, BitVec.and_assoc, e]
    simp

theorem mergeFields_reserved {c mask val : U16} (hc : c &&& ctrlRsvd = 0#16) (hv : val &&& ctrlRsvd = 0#16) :
    mergeFields c mask val &&& ctrlRsvd = 0#16 := by
  unfold mergeFields
  rw [BitVec.and_comm, BitVec.and_or_distrib_left, BitVec.and_comm _ val, hv, ← BitVec.and_assoc, BitVec.and_comm _ c,
    hc]
  simp

theorem mergeFields_getLsbD (c mask val : U16) (i : Nat) (hi : i < 16) :
    (mergeFields c mask val).getLsbD i = ((c.getLsbD i && !mask.getLsbD i) || val.getLsbD i) := by
  simp [mergeFields, hi]

theorem wellFormed_setctl {mask val : U16} (h : WellFormed (.setctl mask val)) :
    mask &&& ctrlRsvd = 0#16 ∧ val &&& ~~~mask = 0#16 := by
  simpa only [WellFormed, Instr.wf, maskLegal, valLegal, Bool.and_eq_true, beq_iff_eq] using h

theorem wellFormed_setctl_val {mask val : U16} (h : WellFormed (.setctl mask val)) : val &&& ctrlRsvd = 0#16 := by
  obtain ⟨hm, hv⟩ := wellFormed_setctl h
  rw [← and_eq_of_and_not hv, BitVec.and_assoc, hm]
  simp

/-! ## The control word -/

theorem encodeControlWord_getLsbD (c : U16) (i : Nat) :
    (encodeControlWord c).getLsbD i = (c.getLsbD i && ctrlImpl.getLsbD i) := by
  rcases Nat.lt_or_ge i 16 with h | h
  · interval_cases i <;> simp [encodeControlWord, fieldBits, ctrlGet, CtrlField.bit, ctrlImpl]
  · simp [BitVec.getLsbD_of_ge _ _ h]

theorem encodeControlWord_eq_and (c : U16) : encodeControlWord c = c &&& ctrlImpl :=
  BitVec.eq_of_getLsbD_eq fun i _ => by rw [encodeControlWord_getLsbD, BitVec.getLsbD_and]

theorem encodeControlWord_of_reserved {c : U16} (h : c &&& ctrlRsvd = 0#16) : encodeControlWord c = c := by
  rw [encodeControlWord_eq_and, (reserved_zero_iff c).1 h]

theorem encodeControlWord_reserved (c : U16) : encodeControlWord c &&& ctrlRsvd = 0#16 := by
  rw [encodeControlWord_eq_and, BitVec.and_assoc, show ctrlImpl &&& ctrlRsvd = 0#16 by decide]
  simp

theorem omVal_and_not {c : Config} (h : c.wf) (m : OutputMode) : omVal c m &&& ~~~omMask = 0#16 := by
  obtain ⟨_, h1, h2, h3, h4, h5, h6⟩ := h
  cases m <;> assumption

theorem outputModeBits_of_wf {c : Config} (h : c.wf) (m : OutputMode) : outputModeBits c m = omVal c m :=
  and_eq_of_and_not (omVal_and_not h m)

theorem outputModeBits_reserved (c : Config) (m : OutputMode) : outputModeBits c m &&& ctrlRsvd = 0#16 := by
  rw [outputModeBits, BitVec.and_assoc, show omMask &&& ctrlRsvd = 0#16 by decide]
  simp

/-! ## Operands -/

/-- A register select is the operand 0, the operand 1, or out of range. -/
theorem regSelect_cases (v : U8) :
    (v = 0#8 ∧ regSelect v = some .r0) ∨ (v = 1#8 ∧ regSelect v = some .r1) ∨ (1 < v.toNat ∧ regSelect v = none) := by
  unfold regSelect
  by_cases h0 : v = 0#8
  · simp [h0]
  · by_cases h1 : v = 1#8
    · simp [h1]
    · right; right
      simp only [h0, h1, if_false, and_true]
      have : v.toNat ≠ 0 := fun e => h0 (BitVec.eq_of_toNat_eq (by simpa using e))
      have : v.toNat ≠ 1 := fun e => h1 (BitVec.eq_of_toNat_eq (by simpa using e))
      omega

@[simp] theorem regSelect_regOperand (r : Reg) : regSelect (regOperand r) = some r := by
  cases r <;> decide

theorem hzOutOfRange_iff (raw : Raw48) (F : Nat) :
    hzOutOfRange (hzOperand raw) F = true ↔ raw.toInt < 0 ∨ (F : Int) * 2 ^ 15 ≤ raw.toInt := by
  simp only [hzOutOfRange, Bool.or_eq_true, decide_eq_true_eq]
  simp only [hzOperand]
  push_cast
  omega

/-! ## The bits of the encoded words -/

theorem freqWord_getLsbD (r : Reg) (half : U14) (i : Nat) :
    (freqWord r half).getLsbD i = if i < 14 then half.getLsbD i else (freqTag r).getLsbD (i - 14) := by
  exact BitVec.getLsbD_append (x := freqTag r) (y := half) (i := i)

theorem phaseWord_getLsbD (r : Reg) (phase : U12) (i : Nat) :
    (phaseWord r phase).getLsbD i =
      if i < 12 then phase.getLsbD i
      else if i - 12 < 1 then false
      else if i - 12 - 1 < 1 then regBit r else (3#2).getLsbD (i - 12 - 1 - 1) := by
  refine (BitVec.getLsbD_append (x := 3#2 ++ BitVec.ofBool (regBit r) ++ 0#1) (y := phase) (i := i)).trans ?_
  simp only [BitVec.getLsbD_append]
  grind

theorem setctlWord_getLsbD (mask val : U16) (i : Nat) :
    BitVec.getLsbD (w := 64) (1#4 ++ 0#28 ++ mask ++ val) i =
      if i < 16 then val.getLsbD i
      else if i - 16 < 16 then mask.getLsbD (i - 16)
      else if i - 16 - 16 < 28 then false else (1#4).getLsbD (i - 16 - 16 - 28) := by
  refine (BitVec.getLsbD_append (x := 1#4 ++ 0#28 ++ mask) (y := val) (i := i)).trans ?_
  simp only [BitVec.getLsbD_append, BitVec.getLsbD_zero]

theorem setfreqWord_getLsbD (reg : U8) (hz : Raw48) (i : Nat) :
    BitVec.getLsbD (w := 64) (2#4 ++ reg ++ 0#4 ++ hz) i =
      if i < 48 then hz.getLsbD i
      else if i - 48 < 4 then false
      else if i - 48 - 4 < 8 then reg.getLsbD (i - 48 - 4) else (2#4).getLsbD (i - 48 - 4 - 8) := by
  refine (BitVec.getLsbD_append (x := 2#4 ++ reg ++ 0#4) (y := hz) (i := i)).trans ?_
  simp only [BitVec.getLsbD_append, BitVec.getLsbD_zero]

theorem setphaseWord_getLsbD (reg : U8) (unit : AngleUnit) (ang : Raw48) (i : Nat) :
    BitVec.getLsbD (w := 64) (3#4 ++ reg ++ unit.code ++ 0#3 ++ ang) i =
      if i < 48 then ang.getLsbD i
      else if i - 48 < 3 then false
      else if i - 48 - 3 < 1 then unit.code.getLsbD (i - 48 - 3)
      else if i - 48 - 3 - 1 < 8 then reg.getLsbD (i - 48 - 3 - 1) else (3#4).getLsbD (i - 48 - 3 - 1 - 8) := by
  refine (BitVec.getLsbD_append (x := 3#4 ++ reg ++ unit.code ++ 0#3) (y := ang) (i := i)).trans ?_
  simp only [BitVec.getLsbD_append, BitVec.getLsbD_zero]

theorem setwmodeWord_getLsbD (mode : WriteMode) (i : Nat) :
    BitVec.getLsbD (w := 64) (4#4 ++ 0#58 ++ mode.code) i =
      if i < 2 then mode.code.getLsbD i else if i - 2 < 58 then false else (4#4).getLsbD (i - 2 - 58) := by
  refine (BitVec.getLsbD_append (x := 4#4 ++ 0#58) (y := mode.code) (i := i)).trans ?_
  simp only [BitVec.getLsbD_append, BitVec.getLsbD_zero]

theorem setomodeWord_getLsbD (mode : OutputMode) (i : Nat) :
    BitVec.getLsbD (w := 64) (5#4 ++ 0#57 ++ mode.code) i =
      if i < 3 then mode.code.getLsbD i else if i - 3 < 57 then false else (5#4).getLsbD (i - 3 - 57) := by
  refine (BitVec.getLsbD_append (x := 5#4 ++ 0#57) (y := mode.code) (i := i)).trans ?_
  simp only [BitVec.getLsbD_append, BitVec.getLsbD_zero]

theorem selregWord_getLsbD (fsel psel : U8) (i : Nat) :
    BitVec.getLsbD (w := 64) (6#4 ++ 0#44 ++ fsel ++ psel) i =
      if i < 8 then psel.getLsbD i
      else if i - 8 < 8 then fsel.getLsbD (i - 8)
      else if i - 8 - 8 < 44 then false else (6#4).getLsbD (i - 8 - 8 - 44) := by
  refine (BitVec.getLsbD_append (x := 6#4 ++ 0#44 ++ fsel) (y := psel) (i := i)).trans ?_
  simp only [BitVec.getLsbD_append, BitVec.getLsbD_zero]

/-! ## Which emitted words decode, and to what -/

theorem tagField_cases (w : U16) : tagField w = 0#2 ∨ tagField w = 1#2 ∨ tagField w = 2#2 ∨ tagField w = 3#2 := by
  generalize tagField w = t
  revert t
  decide

theorem tagField_freqWord (r : Reg) (half : U14) : tagField (freqWord r half) = freqTag r := by
  apply BitVec.eq_of_getLsbD_eq
  intro i hi
  simp [tagField, freqWord_getLsbD, hi]

theorem payload_freqWord (r : Reg) (half : U14) : (freqWord r half).extractLsb' 0 14 = half := by
  apply BitVec.eq_of_getLsbD_eq
  intro i hi
  simp only [BitVec.getLsbD_extractLsb', hi, decide_true, Bool.true_and, Nat.zero_add, freqWord_getLsbD, if_true]

theorem tagField_phaseWord (r : Reg) (phase : U12) : tagField (phaseWord r phase) = 3#2 := by
  apply BitVec.eq_of_getLsbD_eq
  intro i hi
  interval_cases i <;>
    simp only [tagField, BitVec.getLsbD_extractLsb', phaseWord_getLsbD] <;> simp

theorem payload_phaseWord (r : Reg) (phase : U12) : (phaseWord r phase).extractLsb' 0 12 = phase := by
  apply BitVec.eq_of_getLsbD_eq
  intro i hi
  simp only [BitVec.getLsbD_extractLsb', hi, decide_true, Bool.true_and, Nat.zero_add, phaseWord_getLsbD, if_true]

theorem tagField_of_reserved {w : U16} (h : w &&& ctrlRsvd = 0#16) : tagField w = 0#2 := by
  have h15 : w.getLsbD 15 = false := by simpa [ctrlRsvd] using congrArg (·.getLsbD 15) h
  have h14 : w.getLsbD 14 = false := by simpa [ctrlRsvd] using congrArg (·.getLsbD 14) h
  apply BitVec.eq_of_getLsbD_eq
  intro i hi
  simp only [tagField, BitVec.getLsbD_extractLsb']
  interval_cases i <;> simp only [Nat.add_zero, Nat.reduceAdd, h14, h15] <;> simp

theorem decodeEmitted_controlWord {w : U16} (h : w &&& ctrlRsvd = 0#16) : decodeEmitted w = .ok (.ctrlw w) := by
  simp [decodeEmitted, tagField_of_reserved h, controlWordLegal, h]

theorem decodeEmitted_freqWord (r : Reg) (half : U14) :
    decodeEmitted (freqWord r half) = .ok (match r with | .r0 => .freq0w half | .r1 => .freq1w half) := by
  unfold decodeEmitted
  rw [tagField_freqWord, payload_freqWord]
  cases r <;> rfl

theorem decodeEmitted_phaseWord (r : Reg) (phase : U12) :
    decodeEmitted (phaseWord r phase) = .ok (match r with | .r0 => .phase0w phase | .r1 => .phase1w phase) := by
  have b12 : (phaseWord r phase).getLsbD 12 = false := by simp only [phaseWord_getLsbD]; simp
  have b13 : (phaseWord r phase).getLsbD 13 = regBit r := by simp only [phaseWord_getLsbD]; simp
  unfold decodeEmitted
  rw [tagField_phaseWord, payload_phaseWord, b12, b13]
  cases r <;> rfl

theorem controlWordLegal_of_tag {w : U16} (h : tagField w = 0#2) :
    controlWordLegal w = true ↔ w &&& 0x0215#16 = 0#16 := by
  have h14 : w.getLsbD 14 = false := by simpa [tagField] using congrArg (·.getLsbD 0) h
  have h15 : w.getLsbD 15 = false := by simpa [tagField] using congrArg (·.getLsbD 1) h
  have e : w &&& 0xC215#16 = w &&& 0x0215#16 := by
    apply BitVec.eq_of_getLsbD_eq
    intro i hi
    rw [BitVec.getLsbD_and, BitVec.getLsbD_and]
    interval_cases i <;> first | rfl | (rw [h14]; rfl) | (rw [h15]; rfl)
  simp only [controlWordLegal, ctrlRsvd, beq_iff_eq, e]

/-- The words the block never emits are those that do not decode (R85). -/
theorem neverEmitted_iff (w : U16) : neverEmitted w = true ↔ ∃ e, decodeEmitted w = .error e := by
  unfold neverEmitted decodeEmitted
  rcases tagField_cases w with h | h | h | h
  · by_cases hc : w &&& 0x0215#16 = 0#16
    · simp [h, hc, (controlWordLegal_of_tag h).2 hc]
    · have : controlWordLegal w = false := by
        rw [Bool.eq_false_iff]
        exact fun x => hc ((controlWordLegal_of_tag h).1 x)
      simp [h, hc, this]
  · simp [h]
  · simp [h]
  · cases w.getLsbD 12 <;> cases w.getLsbD 13 <;> simp [h]

theorem neverEmitted_of_ok {w : U16} {i : Instr} (h : decodeEmitted w = .ok i) : neverEmitted w = false := by
  rw [Bool.eq_false_iff, ne_eq, neverEmitted_iff]
  simp [h]

theorem ok_of_not_neverEmitted {w : U16} (h : neverEmitted w = false) : ∃ i, decodeEmitted w = .ok i := by
  cases hd : decodeEmitted w with
  | ok i => exact ⟨i, rfl⟩
  | error e =>
    rw [(neverEmitted_iff w).2 ⟨e, hd⟩] at h
    cases h

theorem neverEmitted_controlWord (c : U16) : neverEmitted (encodeControlWord c) = false :=
  neverEmitted_of_ok (decodeEmitted_controlWord (encodeControlWord_reserved c))

theorem neverEmitted_freqWord (r : Reg) (half : U14) : neverEmitted (freqWord r half) = false :=
  neverEmitted_of_ok (decodeEmitted_freqWord r half)

theorem neverEmitted_phaseWord (r : Reg) (phase : U12) : neverEmitted (phaseWord r phase) = false :=
  neverEmitted_of_ok (decodeEmitted_phaseWord r phase)

/-- An emitted word's instruction is its word (R81 to R84). -/
theorem exec_of_decodeEmitted {w : U16} {i : Instr} (h : decodeEmitted w = .ok i) (s : State) :
    exec i s = .next (transmitWord w s) := by
  have h14 : ∀ b : BitVec 2, tagField w = b → w = b ++ w.extractLsb' 0 14 := by
    intro b hb
    apply BitVec.eq_of_getLsbD_eq
    intro j hj
    refine Eq.trans ?_ (BitVec.getLsbD_append (x := b) (y := w.extractLsb' 0 14) (i := j)).symm
    subst hb
    by_cases h : j < 14
    · simp [h]
    · rw [if_neg h]
      simp only [tagField, BitVec.getLsbD_extractLsb', show j - 14 < 2 by omega, decide_true, Bool.true_and]
      congr 1
      omega
  have h12 : tagField w = 3#2 → w.getLsbD 12 = false → ∀ r, w.getLsbD 13 = regBit r →
      w = phaseWord r (w.extractLsb' 0 12) := by
    intro ht h12 r h13
    have b14 : w.getLsbD 14 = true := by simpa [tagField] using congrArg (·.getLsbD 0) ht
    have b15 : w.getLsbD 15 = true := by simpa [tagField] using congrArg (·.getLsbD 1) ht
    apply BitVec.eq_of_getLsbD_eq
    intro j hj
    rw [phaseWord_getLsbD]
    by_cases hl : j < 12
    · simp [hl]
    · have : j = 12 ∨ j = 13 ∨ j = 14 ∨ j = 15 := by omega
      rcases this with rfl | rfl | rfl | rfl
      · simp only [h12]; simp
      · simp only [h13]; simp
      · simp only [b14]; simp
      · simp only [b15]; simp
  unfold decodeEmitted at h
  rcases tagField_cases w with ht | ht | ht | ht
  · rw [ht] at h
    by_cases hl : controlWordLegal w = true
    · simp only [BitVec.toNat_ofNat, Nat.zero_mod, hl, if_true, Except.ok.injEq] at h
      subst h
      rfl
    · simp [hl] at h
  · simp [ht] at h
    subst h
    exact congrArg (fun x => Host.Outcome.next (transmitWord x s)) (h14 _ ht).symm
  · simp [ht] at h
    subst h
    exact congrArg (fun x => Host.Outcome.next (transmitWord x s)) (h14 _ ht).symm
  · cases hb : w.getLsbD 12 <;> cases hc : w.getLsbD 13 <;> simp only [ht, hb, hc] at h <;> simp at h
    · subst h
      exact congrArg (fun x => Host.Outcome.next (transmitWord x s)) (h12 ht hb .r0 hc).symm
    · subst h
      exact congrArg (fun x => Host.Outcome.next (transmitWord x s)) (h12 ht hb .r1 hc).symm

end Sys2Proof.Machine
end

