-- ==== Sys2Proof/Laws/PerInstr.lean ====
section
/-! SUPPORT. The family `MatchesTableRow`: the word of every well-formed instruction has the fixed bits of its row of
spec/opcode_table.json, and no other bit of the row's mask. -/

namespace Sys2Proof.Laws

open Sys2Proof.Machine

/-- A row's width, mask and match, as spec/opcode_table.json gives them. -/
inductive TableRow where
  | command (mask fixed : BitVec 64)
  | emitted (mask fixed : U16)

/-- The row of an instruction. -/
def rowOf : Instr → TableRow
  | .setctl _ _ => .command 0xFFFFFFFFC215C215#64 0x1000000000000000#64
  | .setfreq _ _ => .command 0xF00F000000000000#64 0x2000000000000000#64
  | .setphase _ _ _ => .command 0xF007000000000000#64 0x3000000000000000#64
  | .setwmode _ => .command 0xFFFFFFFFFFFFFFFC#64 0x4000000000000000#64
  | .setomode _ => .command 0xFFFFFFFFFFFFFFF8#64 0x5000000000000000#64
  | .selreg _ _ => .command 0xFFFFFFFFFFFF0000#64 0x6000000000000000#64
  | .ctrlw _ => .emitted 0xC215#16 0x0000#16
  | .freq0w _ => .emitted 0xC000#16 0x4000#16
  | .freq1w _ => .emitted 0xC000#16 0x8000#16
  | .phase0w _ => .emitted 0xF000#16 0xC000#16
  | .phase1w _ => .emitted 0xF000#16 0xE000#16

/-- The word has the row's length and its fixed bits. -/
def TableRow.fits : TableRow → EncodedWord → Prop
  | .command mask fixed, .command c => c &&& mask = fixed
  | .emitted mask fixed, .emitted w => w &&& mask = fixed
  | .command _ _, .emitted _ => False
  | .emitted _ _, .command _ => False

/-- The statement of the family. -/
def MatchesTableRow.Statement (i : Instr) : Prop := WellFormed i → (rowOf i).fits (encode i)

theorem bit_of_and_zero {v m : U16} (h : v &&& m = 0#16) (i : Nat) (hm : m.getLsbD i = true) : v.getLsbD i = false := by
  simpa [hm] using congrArg (·.getLsbD i) h

theorem MatchesTableRow.setctl (mask val : U16) : Statement (.setctl mask val) := by
  intro h
  have hm := bit_of_and_zero (wellFormed_setctl h).1
  have hv := bit_of_and_zero (wellFormed_setctl_val h)
  refine BitVec.eq_of_getLsbD_eq fun i hi => ?_
  rw [BitVec.getLsbD_and, setctlWord_getLsbD]
  interval_cases i <;> simp <;>
    first
      | exact hm 0 rfl | exact hm 2 rfl | exact hm 4 rfl | exact hm 9 rfl | exact hm 14 rfl | exact hm 15 rfl
      | exact hv 0 rfl | exact hv 2 rfl | exact hv 4 rfl | exact hv 9 rfl | exact hv 14 rfl | exact hv 15 rfl

theorem MatchesTableRow.setfreq (reg : U8) (hz : Raw48) : Statement (.setfreq reg hz) := by
  intro _
  refine BitVec.eq_of_getLsbD_eq fun i hi => ?_
  rw [BitVec.getLsbD_and, setfreqWord_getLsbD]
  interval_cases i <;> simp

theorem MatchesTableRow.setphase (reg : U8) (unit : AngleUnit) (ang : Raw48) : Statement (.setphase reg unit ang) := by
  intro _
  refine BitVec.eq_of_getLsbD_eq fun i hi => ?_
  rw [BitVec.getLsbD_and, setphaseWord_getLsbD]
  interval_cases i <;> simp

theorem MatchesTableRow.setwmode (mode : WriteMode) : Statement (.setwmode mode) := by
  intro _
  cases mode <;> rfl

theorem MatchesTableRow.setomode (mode : OutputMode) : Statement (.setomode mode) := by
  intro _
  cases mode <;> rfl

theorem MatchesTableRow.selreg (fsel psel : U8) : Statement (.selreg fsel psel) := by
  intro _
  refine BitVec.eq_of_getLsbD_eq fun i hi => ?_
  rw [BitVec.getLsbD_and, selregWord_getLsbD]
  interval_cases i <;> simp

theorem MatchesTableRow.ctrlw (word : U16) : Statement (.ctrlw word) := by
  intro h
  have hw : word &&& ctrlRsvd = 0#16 := by simpa only [WellFormed, Instr.wf, controlWordLegal, beq_iff_eq] using h
  exact hw

theorem freqWord_fits (r : Reg) (half : U14) : freqWord r half &&& 0xC000#16 = freqTag r ++ 0#14 := by
  refine BitVec.eq_of_getLsbD_eq fun i hi => ?_
  rw [BitVec.getLsbD_and, freqWord_getLsbD]
  cases r <;> interval_cases i <;> simp [freqTag]

theorem phaseWord_fits (r : Reg) (phase : U12) : phaseWord r phase &&& 0xF000#16 = phaseWord r 0#12 := by
  refine BitVec.eq_of_getLsbD_eq fun i hi => ?_
  rw [BitVec.getLsbD_and, phaseWord_getLsbD, phaseWord_getLsbD]
  interval_cases i <;> simp

theorem MatchesTableRow.freq0w (half : U14) : Statement (.freq0w half) := fun _ => freqWord_fits .r0 half

theorem MatchesTableRow.freq1w (half : U14) : Statement (.freq1w half) := fun _ => freqWord_fits .r1 half

theorem MatchesTableRow.phase0w (phase : U12) : Statement (.phase0w phase) := fun _ => phaseWord_fits .r0 phase

theorem MatchesTableRow.phase1w (phase : U12) : Statement (.phase1w phase) := fun _ => phaseWord_fits .r1 phase

end Sys2Proof.Laws
end

