-- ==== Sys2Proof/Laws/Pi.lean ====
section
/-! SUPPORT. The radians quantiser is the definition over the reals (R127, R129). PI lies between the two fixed
fractions; no fraction with a smaller denominator than the sum of theirs lies between them, so they decide every angle
operand; where two bounds of PI give one value, PI gives it. -/

namespace Sys2Proof.Machine

/-- 26 digits of PI from below. -/
theorem pi_gt_fraction : (8958937768937 / 2851718461558 : ℝ) < Real.pi := by
  pi_lower_bound [
    2 - 585786437626904951198311275790301921430328124623051926823320262009 / 10 ^ 66,
    2 - 152240934977426487743633621206423426355166748272715027769804537438 / 10 ^ 66,
    2 - 38429439193539101747635527731521926052132538213327809994167822909 / 10 ^ 66,
    2 - 9630546655606227510326093781040156849050262540285876332774068430 / 10 ^ 66,
    2 - 2409087589655214570456790481798611113592770590776411314365852628 / 10 ^ 66,
    2 - 602362607591559768468700667655606299877837484540750711752424147 / 10 ^ 66,
    2 - 150596321710918156707017607233551298787062395564339511832653996 / 10 ^ 66,
    2 - 37649434797714686019124542864567652165498111329816119684609838 / 10 ^ 66,
    2 - 9412380847656976839748599760200894024732755624691778526026512 / 10 ^ 66,
    2 - 2353096596180141948579656947961903464154220469921552274941089 / 10 ^ 66,
    2 - 588274235561679543564522468645767472201301396797216408016204 / 10 ^ 66,
    2 - 147068564297710537038585224286103597688622154461870535708857 / 10 ^ 66,
    2 - 36767141412383306169194180570989847897514439293249372421890 / 10 ^ 66,
    2 - 9191785374218056133720787702082211393621094351938494346642 / 10 ^ 66,
    2 - 2297946344874653384410891783198925167611435753164341723330 / 10 ^ 66,
    2 - 574486586301172055562716447821821084163429494578580584070 / 10 ^ 66,
    2 - 143621646580449808232299019479039333780968396093917217549 / 10 ^ 66,
    2 - 35905411645434751704431785240721625007448398290440814351 / 10 ^ 66,
    2 - 8976352911378831654005351116970797069371817638013272984 / 10 ^ 66,
    2 - 2244088227845966896494926992301556178954769945060577218 / 10 ^ 66,
    2 - 561022056961570410560831095963980999939572240544931872 / 10 ^ 66,
    2 - 140255514240397520542526483578913706532270295297635561 / 10 ^ 66,
    2 - 35063878560099687504526540249362102969580773756539131 / 10 ^ 66,
    2 - 8765969640024941086687567522089330088463239932972433 / 10 ^ 66,
    2 - 2191492410006236472331637659257948412104999947009017 / 10 ^ 66,
    2 - 547873102501559193124143525985483652687448376029997 / 10 ^ 66,
    2 - 136968275625389802971113013444558518721575649845882 / 10 ^ 66,
    2 - 34242068906347451035908074107901360045936769959315 / 10 ^ 66,
    2 - 8560517226586862777297632323647948237747586087474 / 10 ^ 66,
    2 - 2140129306646715695469446443204025074803623699909 / 10 ^ 66,
    2 - 535032326661678923938926508444258644680471140451 / 10 ^ 66,
    2 - 133758081665419730989204433213767934669139748061 / 10 ^ 66,
    2 - 33439520416354932747580658684860938260978483714 / 10 ^ 66,
    2 - 8359880104088733186912636570053919227350540628 / 10 ^ 66,
    2 - 2089970026022183296729251136190897598219256279 / 10 ^ 66,
    2 - 522492506505545824182381033652563011516165407 / 10 ^ 66,
    2 - 130623126626386456045599524013443166126625810 / 10 ^ 66,
    2 - 32655781656596614011400147603379692359630481 / 10 ^ 66,
    2 - 8163945414149153502850053563346104391655997 / 10 ^ 66,
    2 - 2040986353537288375712514432242849929273272 / 10 ^ 66,
    2 - 510246588384322093928128673148607721778272 / 10 ^ 66,
    2 - 127561647096080523482032172355145382910815 / 10 ^ 66,
    2 - 31890411774020130870508043343035936506844 / 10 ^ 66,
    2 - 7972602943505032717627010851649583550407 / 10 ^ 66,
    2 - 1993150735876258179406752713905558351582 / 10 ^ 66,
    2 - 498287683969064544851688178538462241894 / 10 ^ 66,
    2 - 124571920992266136212922044638495101348 / 10 ^ 66,
    2 - 31142980248066534053230511159866246641 / 10 ^ 66]

/-- 27 digits of PI from above. -/
theorem pi_lt_fraction : Real.pi < (139755218526789 / 44485467702853 : ℝ) := by
  pi_upper_bound [
    2 - 585786437626904951198311275790301921430328124623051926823320262010 / 10 ^ 66,
    2 - 152240934977426487743633621206423426355166748272715027769804537440 / 10 ^ 66,
    2 - 38429439193539101747635527731521926052132538213327809994167822910 / 10 ^ 66,
    2 - 9630546655606227510326093781040156849050262540285876332774068431 / 10 ^ 66,
    2 - 2409087589655214570456790481798611113592770590776411314365852629 / 10 ^ 66,
    2 - 602362607591559768468700667655606299877837484540750711752424148 / 10 ^ 66,
    2 - 150596321710918156707017607233551298787062395564339511832653998 / 10 ^ 66,
    2 - 37649434797714686019124542864567652165498111329816119684609839 / 10 ^ 66,
    2 - 9412380847656976839748599760200894024732755624691778526026513 / 10 ^ 66,
    2 - 2353096596180141948579656947961903464154220469921552274941090 / 10 ^ 66,
    2 - 588274235561679543564522468645767472201301396797216408016205 / 10 ^ 66,
    2 - 147068564297710537038585224286103597688622154461870535708858 / 10 ^ 66,
    2 - 36767141412383306169194180570989847897514439293249372421891 / 10 ^ 66,
    2 - 9191785374218056133720787702082211393621094351938494346643 / 10 ^ 66,
    2 - 2297946344874653384410891783198925167611435753164341723331 / 10 ^ 66,
    2 - 574486586301172055562716447821821084163429494578580584072 / 10 ^ 66,
    2 - 143621646580449808232299019479039333780968396093917217551 / 10 ^ 66,
    2 - 35905411645434751704431785240721625007448398290440814352 / 10 ^ 66,
    2 - 8976352911378831654005351116970797069371817638013272985 / 10 ^ 66,
    2 - 2244088227845966896494926992301556178954769945060577219 / 10 ^ 66,
    2 - 561022056961570410560831095963980999939572240544931873 / 10 ^ 66,
    2 - 140255514240397520542526483578913706532270295297635563 / 10 ^ 66,
    2 - 35063878560099687504526540249362102969580773756539133 / 10 ^ 66,
    2 - 8765969640024941086687567522089330088463239932972435 / 10 ^ 66,
    2 - 2191492410006236472331637659257948412104999947009018 / 10 ^ 66,
    2 - 547873102501559193124143525985483652687448376029998 / 10 ^ 66,
    2 - 136968275625389802971113013444558518721575649845883 / 10 ^ 66,
    2 - 34242068906347451035908074107901360045936769959316 / 10 ^ 66,
    2 - 8560517226586862777297632323647948237747586087475 / 10 ^ 66,
    2 - 2140129306646715695469446443204025074803623699910 / 10 ^ 66,
    2 - 535032326661678923938926508444258644680471140452 / 10 ^ 66,
    2 - 133758081665419730989204433213767934669139748063 / 10 ^ 66,
    2 - 33439520416354932747580658684860938260978483716 / 10 ^ 66,
    2 - 8359880104088733186912636570053919227350540630 / 10 ^ 66,
    2 - 2089970026022183296729251136190897598219256280 / 10 ^ 66,
    2 - 522492506505545824182381033652563011516165408 / 10 ^ 66,
    2 - 130623126626386456045599524013443166126625811 / 10 ^ 66,
    2 - 32655781656596614011400147603379692359630482 / 10 ^ 66,
    2 - 8163945414149153502850053563346104391655998 / 10 ^ 66,
    2 - 2040986353537288375712514432242849929273274 / 10 ^ 66,
    2 - 510246588384322093928128673148607721778274 / 10 ^ 66,
    2 - 127561647096080523482032172355145382910816 / 10 ^ 66,
    2 - 31890411774020130870508043343035936506845 / 10 ^ 66,
    2 - 7972602943505032717627010851649583550408 / 10 ^ 66,
    2 - 1993150735876258179406752713905558351584 / 10 ^ 66,
    2 - 498287683969064544851688178538462241895 / 10 ^ 66,
    2 - 124571920992266136212922044638495101349 / 10 ^ 66,
    2 - 31142980248066534053230511159866246642 / 10 ^ 66]

/-- Between the two fractions there is no fraction with a denominator below the sum of theirs. -/
theorem fraction_le_or_ge {n q : ℤ} (hq : 0 < q) (hs : q < 47337186164411) :
    n * 2851718461558 ≤ q * 8958937768937 ∨ q * 139755218526789 ≤ n * 44485467702853 := by
  by_contra h
  push Not at h
  omega

/-- A number that divides `d` and shares no factor with `4096 * p` divides `k` where `k * 4096 / n = d / p`. -/
theorem boundary_ne {k n p d e : ℤ} (h0 : k ≠ 0) (hk : |k| < e) (hd : e ∣ d) (he : IsCoprime e (4096 * p)) :
    k * 4096 * p ≠ n * d := by
  intro h
  have h1 : e ∣ 4096 * p * k := (hd.mul_left n).trans (dvd_of_eq (by linarith))
  exact h0 (Int.eq_zero_of_abs_lt_dvd (he.dvd_of_dvd_mul_left h1) hk)

/-- No boundary `k / 8192` turn, `k` odd, of an angle operand `n / 2^24` lies between the two fractions. -/
theorem boundary_settled {k n : ℤ} (h0 : k ≠ 0) (hb : |k| * 4096 < 47337186164411) :
    k * 4096 * 8958937768937 ≤ n * 2851718461558 ↔ k * 4096 * 139755218526789 ≤ n * 44485467702853 := by
  have h1 : k * 4096 * 8958937768937 ≠ n * 2851718461558 :=
    boundary_ne (e := 1425859230779) h0 (by omega) (by norm_num) (by rw [Int.isCoprime_iff_gcd_eq_one]; norm_num)
  have h2 : k * 4096 * 139755218526789 ≠ n * 44485467702853 :=
    boundary_ne (e := 44485467702853) h0 (by omega) (by norm_num) (by rw [Int.isCoprime_iff_gcd_eq_one]; norm_num)
  rcases lt_or_gt_of_ne h0 with h0 | h0
  · rw [abs_of_neg h0] at hb
    have h := fraction_le_or_ge (n := -n) (q := -(k * 4096)) (by omega) (by omega)
    constructor <;> intro hle <;> rcases h with h | h <;>
      first | linarith | exact absurd (le_antisymm hle (by linarith)) ‹_›
  · rw [abs_of_pos h0] at hb
    have h := fraction_le_or_ge (n := n) (q := k * 4096) (by omega) (by omega)
    constructor <;> intro hle <;> rcases h with h | h <;>
      first | linarith | exact absurd (le_antisymm hle (by linarith)) ‹_›

/-- Where a fraction for PI puts the quantiser's value. -/
theorem le_radIndex_iff {n m pn : ℤ} {pd : ℕ} (hp : 0 < pn) :
    m ≤ radIndex ⟨n, 2 ^ 24⟩ ⟨pn, pd⟩ ↔ (2 * m - 1) * 4096 * pn ≤ n * pd := by
  have hc : (2 : ℤ) * ((2 ^ 24 * pn.toNat : ℕ) : ℤ) = 2 ^ 25 * pn := by
    push_cast
    rw [Int.toNat_of_nonneg hp.le]
    ring
  rw [radIndex, rnd, hc, Int.le_ediv_iff_mul_le (by positivity)]
  have hh : ((2 ^ 24 * pn.toNat : ℕ) : ℤ) = 2 ^ 24 * pn := by omega
  rw [hh]
  constructor <;> intro h <;> linarith

/-- The two fixed fractions decide every angle operand of a command word. -/
theorem radIndex_operand_settled (raw : Raw48) :
    radIndex (angleOperand raw) piBelow = radIndex (angleOperand raw) piAbove := by
  have h1 := BitVec.le_toInt raw
  have h2 := BitVec.toInt_lt (x := raw)
  refine eq_of_forall_le_iff fun m => ?_
  rw [angleOperand, piBelow, piAbove, le_radIndex_iff (by norm_num), le_radIndex_iff (by norm_num)]
  by_cases hb : |2 * m - 1| * 4096 < 47337186164411
  · exact boundary_settled (by omega) hb
  · rcases abs_cases (2 * m - 1) with ⟨e, _⟩ | ⟨e, _⟩ <;> rw [e] at hb <;> constructor <;> intro h <;> omega

/-- A quotient lies between the quotients by a smaller and a greater divisor. -/
theorem div_between (c : ℝ) {a p b : ℝ} (ha : 0 < a) (h1 : a ≤ p) (h2 : p ≤ b) :
    (c / b ≤ c / p ∧ c / p ≤ c / a) ∨ (c / a ≤ c / p ∧ c / p ≤ c / b) := by
  have hp := ha.trans_le h1
  rcases le_total 0 c with hc | hc
  · exact .inl ⟨div_le_div_of_nonneg_left hc hp h2, div_le_div_of_nonneg_left hc ha h1⟩
  · refine .inr ⟨?_, ?_⟩
    · rw [div_le_div_iff₀ ha hp]; nlinarith
    · rw [div_le_div_iff₀ hp (hp.trans_le h2)]; nlinarith

/-- Where two bounds of PI give one value, PI gives it. -/
theorem floor_eq_of_bounds (c : ℝ) {a b : ℝ} (ha : 0 < a) (h1 : a ≤ Real.pi) (h2 : Real.pi ≤ b)
    (h : ⌊c / a + 1 / 2⌋ = ⌊c / b + 1 / 2⌋) : ⌊c / a + 1 / 2⌋ = ⌊c / Real.pi + 1 / 2⌋ := by
  rcases div_between c ha h1 h2 with ⟨l, u⟩ | ⟨l, u⟩
  · refine le_antisymm (h.trans_le (Int.floor_le_floor ?_)) (Int.floor_le_floor ?_) <;> linarith
  · refine le_antisymm (Int.floor_le_floor ?_) ((Int.floor_le_floor ?_).trans h.ge) <;> linarith

/-- The radians quantiser before the reduction is the definition over the reals, on every rational (R127, R129). -/
theorem radNearest_eq_floor (angle : Frac) :
    radNearest angle = ⌊(angle.num : ℝ) / angle.den * 2048 / Real.pi + 1 / 2⌋ := by
  have hb : (0 : ℝ) < piBelow.num / piBelow.den := by norm_num [piBelow]
  unfold radNearest
  split
  · rename_i h
    rw [radIndex_eq_floor angle (p := piBelow) (by decide) (by decide)] at h ⊢
    rw [radIndex_eq_floor angle (p := piAbove) (by decide) (by decide)] at h
    exact floor_eq_of_bounds _ hb (by norm_num [piBelow]; exact pi_gt_fraction.le)
      (by norm_num [piAbove]; exact pi_lt_fraction.le) h
  · obtain ⟨hl, h⟩ := Nat.find_spec (exists_radSettled angle)
    have hh : 0 < piHigh (Nat.find (exists_radSettled angle)) := by
      have := Real.pi_pos.trans_le (pi_le_piHigh (Nat.find (exists_radSettled angle)))
      exact_mod_cast this
    rw [radIndex_ofRat_eq_floor angle hl, radIndex_ofRat_eq_floor angle hh] at h
    rw [radSettledAt, radIndex_ofRat_eq_floor angle hl]
    exact floor_eq_of_bounds _ (by exact_mod_cast hl) (piLow_le_pi _) (pi_le_piHigh _) h

end Sys2Proof.Machine
end

