-- ==== Sys2Proof/Laws/Step.lean ====
section
/-! SUPPORT. What a command and a step can do, said once: every claim about next states goes through these. -/

namespace Sys2Proof.Machine

variable {s t u : State}

/-- `u` has the inputs, the observations, the configuration and the fault bit of `s`: what the update of a command
(R150, phase 3) leaves alone. -/
structure SameSurroundings (s u : State) : Prop where
  fault : u.fault = s.fault
  txLog : u.txLog = s.txLog
  statusLog : u.statusLog = s.statusLog
  cmdPort : u.cmdPort = s.cmdPort
  resetLine : u.resetLine = s.resetLine
  answers : u.answers = s.answers
  draws : u.draws = s.draws
  config : u.config = s.config

/-- What the transmit phase over `ws` from `u` leaves when no reset lands in it (R150, R157, R197). -/
structure Sent (ws : List U16) (u r : State) : Prop where
  ctrl : r.ctrl = u.ctrl
  fcache : r.fcache = u.fcache
  pcache : r.pcache = u.pcache
  config : r.config = u.config
  cmdPort : r.cmdPort = u.cmdPort
  seq : r.seq = .idle
  log : ∃ es st, r.txLog = u.txLog ++ es ∧ r.statusLog = u.statusLog ++ [st] ∧
    ((es = ws.map (⟨·, .ok⟩) ∧ st = .ok ∧ r.fault = u.fault) ∨
     (∃ sent w rest, ws = sent ++ w :: rest ∧ es = sent.map (⟨·, .ok⟩) ++ [⟨w, .err⟩] ∧
       st = .transportError ∧ r.fault = true))

/-- The state a reset leaves, up to the inputs. -/
def IsReset (u r : State) : Prop :=
  ∃ l a d, r = { State.reset with
    cmdPort := u.cmdPort, resetLine := l, answers := a, draws := d, config := u.config }

theorem sent_afterOneWord (w : U16) (u : State) : Sent [w] u (afterOneWord w u) := by
  refine ⟨rfl, rfl, rfl, rfl, rfl, rfl, [⟨w, u.nextAnswer⟩], statusOfAnswer u.nextAnswer, rfl, rfl, ?_⟩
  cases h : u.nextAnswer with
  | ok => exact .inl ⟨rfl, rfl, by simp [h]⟩
  | err => exact .inr ⟨[], w, [], rfl, rfl, rfl, by simp [h]⟩

theorem sent_afterTwoWords (w₀ w₁ : U16) (u : State) : Sent [w₀, w₁] u (afterTwoWords w₀ w₁ u) := by
  unfold afterTwoWords
  cases h : u.nextAnswer with
  | err =>
    refine ⟨rfl, rfl, rfl, rfl, rfl, rfl, [⟨w₀, .err⟩], .transportError, ?_, ?_,
      .inr ⟨[], w₀, [w₁], rfl, rfl, rfl, ?_⟩⟩ <;> simp [h, statusOfAnswer]
  | ok =>
    cases h' : u.secondAnswer with
    | ok =>
      exact ⟨rfl, rfl, rfl, rfl, rfl, rfl, [⟨w₀, .ok⟩, ⟨w₁, .ok⟩], .ok, rfl, rfl, .inl ⟨rfl, rfl, by simp⟩⟩
    | err =>
      exact ⟨rfl, rfl, rfl, rfl, rfl, rfl, [⟨w₀, .ok⟩, ⟨w₁, .err⟩], .transportError, rfl, rfl,
        .inr ⟨[w₀], w₁, [], rfl, rfl, rfl, by simp⟩⟩

/-- The transmit phase over one or two words: sent, or abandoned by a reset. -/
theorem transmitPhase_cases {ws : List U16} (h1 : ws ≠ []) (h2 : ws.length ≤ 2) (u : State) :
    Sent ws u (transmitPhase (u.startSending ws)) ∨
      (IsReset u (transmitPhase (u.startSending ws)) ∧ ¬ ResetLow 2 u) := by
  have notLow : ∀ {v : State} {n : Nat}, v.resetAsserted = true → ¬ ResetLow (n + 1) v := by
    intro v n hv hl
    rw [hl.resetAsserted] at hv
    cases hv
  match ws, h1, h2 with
  | [w], _, _ =>
    cases hr : u.resetAsserted with
    | true =>
      rw [transmitPhase_reset _ _ hr]
      exact .inr ⟨⟨_, _, _, rfl⟩, notLow hr⟩
    | false =>
      have hl : ResetLow 1 u := by
        intro b hb
        cases hx : u.resetLine with
        | nil => simp [hx] at hb
        | cons c rest =>
          simp only [hx, List.take_succ_cons, List.take_zero, List.mem_singleton] at hb
          simpa [State.resetAsserted, hx, hb] using hr
      rw [transmitPhase_one w hl]
      exact .inl (sent_afterOneWord w u)
  | [w₀, w₁], _, _ =>
    cases hr : u.resetAsserted with
    | true =>
      rw [transmitPhase_reset _ _ hr]
      exact .inr ⟨⟨_, _, _, rfl⟩, notLow hr⟩
    | false =>
      cases ha : u.nextAnswer with
      | err =>
        rw [transmitPhase_two_first w₀ w₁ hr, ha]
        have := sent_afterTwoWords w₀ w₁ u
        rw [afterTwoWords, ha] at this
        exact .inl this
      | ok =>
        cases hr' : u.popReset.resetAsserted with
        | true =>
          rw [transmitPhase_two_reset w₀ w₁ hr ha hr']
          refine .inr ⟨⟨_, _, _, rfl⟩, fun hl => ?_⟩
          exact notLow hr' hl.popReset
        | false =>
          have hl : ResetLow 2 u := by
            intro b hb
            rcases hx : u.resetLine with _ | ⟨c, _ | ⟨d, rest⟩⟩
            · simp [hx] at hb
            · simp [hx] at hb
              simpa [State.resetAsserted, hx, hb] using hr
            · simp [hx] at hb
              rcases hb with rfl | rfl
              · simpa [State.resetAsserted, hx] using hr
              · simpa [State.resetAsserted, hx] using hr'
          rw [transmitPhase_two w₀ w₁ hl]
          exact .inl (sent_afterTwoWords w₀ w₁ u)

/-- A command is its begin and the transmit phase (R150). -/
theorem exec_command {i : Instr} (hi : i.isCommand = true) (s : State) :
    exec i s = .next (transmitPhase (beginCommand i s)) := by
  cases i <;> first | rfl | cases hi

theorem freqWords_ne_nil (m : WriteMode) (w : U28) (r : Reg) : freqWords m w r ≠ [] := by
  cases m <;> simp [freqWords]

theorem freqWords_length (m : WriteMode) (w : U28) (r : Reg) : (freqWords m w r).length ≤ 2 := by
  cases m <;> simp [freqWords]

theorem freqWords_emitted {m : WriteMode} {w : U28} {r : Reg} {x : U16} (hx : x ∈ freqWords m w r) :
    ∃ half, x = freqWord r half := by
  cases m <;> simp [freqWords, splitFrequencyWord] at hx
  · rcases hx with rfl | rfl <;> exact ⟨_, rfl⟩
  · exact ⟨_, hx⟩
  · exact ⟨_, hx⟩

/-- The update `u` of a command and the words `ws` it sends: the shadow and its control word, a frequency cache entry
and frequency words, or a phase cache entry and one phase word (R150 to R156). -/
inductive Update (i : Instr) (s : State) : State → List U16 → Prop where
  | control (mask val : U16) : Update i s (s.writeCtrl (mergeFields s.ctrl mask val))
      [encodeControlWord (s.writeCtrl (mergeFields s.ctrl mask val)).ctrl]
  | freq (reg : U8) (raw : Raw48) (r : Reg) (hi : i = .setfreq reg raw) (hr : regSelect reg = some r)
      (hz : hzOutOfRange (hzOperand raw) s.config.fmclk = false) : Update i s (s.writeFCache r raw)
      (freqWords (writeModeOf s.ctrl) (encodeFrequencyWord (hzOperand raw) s.config.fmclk) r)
  | phase (reg : U8) (unit : AngleUnit) (raw : Raw48) (r : Reg) (hi : i = .setphase reg unit raw)
      (hr : regSelect reg = some r) : Update i s (s.writePCache r ⟨unit, raw⟩)
      [encodePhaseWord (angleOperand raw) unit r]

/-- What a command does before its transmit phase: a `RangeError`, or its update and one or two words (R150). -/
theorem beginCommand_cases {i : Instr} (hi : i.isCommand = true) (s : State) :
    beginCommand i s = raiseRangeError s ∨ ∃ u ws, beginCommand i s = u.startSending ws ∧ Update i s u ws := by
  cases i with
  | setctl mask val => exact .inr ⟨_, _, rfl, .control mask val⟩
  | setwmode mode => exact .inr ⟨_, _, rfl, .control _ _⟩
  | setomode mode => exact .inr ⟨_, _, rfl, .control _ _⟩
  | selreg fsel psel =>
    simp only [beginCommand, beginSelreg]
    rcases regSelect fsel with _ | f <;> rcases regSelect psel with _ | p
    · exact .inl rfl
    · exact .inl rfl
    · exact .inl rfl
    · exact .inr ⟨_, _, rfl, .control _ _⟩
  | setfreq reg raw =>
    simp only [beginCommand, beginSetfreq]
    rcases hr : regSelect reg with _ | r
    · exact .inl rfl
    · cases hz : hzOutOfRange (hzOperand raw) s.config.fmclk with
      | true => simp
      | false => exact .inr ⟨_, _, by simp only [Bool.false_eq_true, if_false], .freq reg raw r rfl hr hz⟩
  | setphase reg unit raw =>
    simp only [beginCommand, beginSetphase]
    rcases hr : regSelect reg with _ | r
    · exact .inl rfl
    · exact .inr ⟨_, _, rfl, .phase reg unit raw r rfl hr⟩
  | ctrlw _ => cases hi
  | freq0w _ => cases hi
  | freq1w _ => cases hi
  | phase0w _ => cases hi
  | phase1w _ => cases hi

theorem Update.surroundings {i : Instr} {ws : List U16} (h : Update i s u ws) : SameSurroundings s u := by
  cases h <;> exact ⟨rfl, rfl, rfl, rfl, rfl, rfl, rfl, rfl⟩

theorem Update.ne_nil {i : Instr} {ws : List U16} (h : Update i s u ws) : ws ≠ [] := by
  cases h with
  | freq => exact freqWords_ne_nil _ _ _
  | _ => exact List.cons_ne_nil _ _

theorem Update.length_le {i : Instr} {ws : List U16} (h : Update i s u ws) : ws.length ≤ 2 := by
  cases h with
  | freq => exact freqWords_length _ _ _
  | _ => simp

theorem Update.emitted {i : Instr} {ws : List U16} (h : Update i s u ws) : ∀ w ∈ ws, neverEmitted w = false := by
  intro w hw
  cases h with
  | control => rw [List.mem_singleton.1 hw]; exact neverEmitted_controlWord _
  | freq => obtain ⟨half, rfl⟩ := freqWords_emitted hw; exact neverEmitted_freqWord _ half
  | phase => rw [List.mem_singleton.1 hw]; exact neverEmitted_phaseWord _ _

/-- What transmitting one word leaves (R52, R150 phase 5). -/
theorem transmitWord_eq (w : U16) (s : State) :
    transmitWord w s =
      match s.seq with
      | .idle => { s.transact w with fault := s.fault || (s.nextAnswer == .err) }
      | .sending ws k =>
        match s.nextAnswer with
        | .err => (s.transact w).setFault.endCommand .transportError
        | .ok =>
          if k + 1 < ws.length then (s.transact w).withSeq (.sending ws (k + 1)) else (s.transact w).endCommand .ok := by
  unfold transmitWord advance raiseTransportError
  cases hs : s.seq <;> cases ha : s.nextAnswer <;> simp [hs] <;> ext1 <;> simp [State.setFault, hs]

/-- What a command can do: a `RangeError`, its update and the transmission of its words, or to be abandoned by a
reset (R150, R192, R197, R230). -/
inductive CommandTo (i : Instr) (s : State) : State → Prop where
  | range (hb : beginCommand i s = raiseRangeError s) : CommandTo i s (raiseRangeError s)
  | sent (u t : State) (ws : List U16) (hb : beginCommand i s = u.startSending ws) (hu : Update i s u ws)
      (hs : Sent ws u t) : CommandTo i s t
  | reset (t : State) (hr : IsReset s t) (hl : ¬ ResetLow 2 s) : CommandTo i s t

theorem exec_command_cases {i : Instr} (hi : i.isCommand = true) (h : exec i s = .next t) : CommandTo i s t := by
  rw [exec_command hi] at h
  cases h
  rcases beginCommand_cases hi s with hb | ⟨u, ws, hb, hu⟩
  · rw [hb, transmitPhase_idle rfl]
    exact .range hb
  · rw [hb]
    rcases transmitPhase_cases hu.ne_nil hu.length_le u with hs | ⟨⟨l, a, d, hr⟩, hl⟩
    · exact .sent u _ ws hb hu hs
    · obtain ⟨-, -, -, hp, hres, -, -, hc⟩ := hu.surroundings
      exact .reset _ ⟨l, a, d, by rw [hr, hp, hc]⟩ (fun x => hl (x.of_resetLine_eq hres))

/-- A command word decodes to a command (R87). -/
theorem isCommand_of_decodeCommand {c : CommandWord} {i : Instr} (h : decodeCommand c = .ok i) :
    i.isCommand = true := by
  unfold decodeCommand decodeSetctl decodeSetfreq decodeSetphase decodeSetwmode decodeSetomode decodeSelreg at h
  repeat' split at h
  all_goals first | (cases h; done) | (cases h; rfl)

/-- What a step can do. -/
inductive StepTo (s : State) : State → Prop where
  | reset (hr : s.resetAsserted = true) : StepTo s s.popReset.resetBlock
  | waits (hr : s.resetAsserted = false) (hs : s.seq = .idle) (hp : s.cmdPort = []) : StepTo s s.popReset
  | illegal (c : CommandWord) (rest : List CommandWord) (e : Reject) (hr : s.resetAsserted = false)
      (hs : s.seq = .idle) (hp : s.cmdPort = c :: rest) (hd : decodeCommand c = .error e) :
      StepTo s (raiseIllegalCommand s.popReset.popCommand)
  | command (c : CommandWord) (rest : List CommandWord) (i : Instr) (t : State) (hr : s.resetAsserted = false)
      (hs : s.seq = .idle) (hp : s.cmdPort = c :: rest) (hd : decodeCommand c = .ok i) (hi : i.isCommand = true)
      (ht : exec i s.popReset.popCommand = .next t) : StepTo s t
  | finished (ws : List U16) (k : Nat) (hr : s.resetAsserted = false) (hs : s.seq = .sending ws k)
      (hw : ws[k]? = none) : StepTo s (s.popReset.endCommand .ok)
  | word (ws : List U16) (k : Nat) (w : U16) (hr : s.resetAsserted = false) (hs : s.seq = .sending ws k)
      (hw : ws[k]? = some w) (hn : neverEmitted w = false) : StepTo s (transmitWord w s.popReset)

/-- The step is one of these, or it stops at a word the block never emits (R85). -/
theorem step_cases (s : State) :
    (∃ t, step s = .next t ∧ StepTo s t) ∨
    (step s = .fault .wordNeverEmitted ∧ s.resetAsserted = false ∧
      ∃ ws k w, s.seq = .sending ws k ∧ ws[k]? = some w ∧ neverEmitted w = true) := by
  cases hr : s.resetAsserted with
  | true =>
    have hf : fetch s = .reset s.popReset := by simp [fetch, hr]
    exact .inl ⟨_, by rw [step, hf], .reset hr⟩
  | false =>
    rcases hs : s.seq with _ | ⟨ws, k⟩
    · have hf : fetch s = fetchCommand s.popReset := by simp [fetch, hr, hs]
      rcases hp : s.cmdPort with _ | ⟨c, rest⟩
      · have hg : fetch s = .waiting s.popReset := by simp [hf, fetchCommand, hp]
        exact .inl ⟨_, by rw [step, hg], .waits hr hs hp⟩
      · rcases hd : decodeCommand c with e | i
        · have hg : fetch s = .illegal s.popReset.popCommand := by simp [hf, fetchCommand, hp, hd]
          exact .inl ⟨_, by rw [step, hg], .illegal c rest e hr hs hp hd⟩
        · have hi := isCommand_of_decodeCommand hd
          have hg : fetch s = .instruction i s.popReset.popCommand := by simp [hf, fetchCommand, hp, hd]
          exact .inl ⟨_, by rw [step, hg]; exact exec_command hi _, .command c rest i _ hr hs hp hd hi (exec_command hi _)⟩
    · have hf : fetch s = fetchWord ws k s.popReset := by simp [fetch, hr, hs]
      rcases hw : ws[k]? with _ | w
      · have hg : fetch s = .finished s.popReset := by simp [hf, fetchWord, hw]
        exact .inl ⟨_, by rw [step, hg], .finished ws k hr hs hw⟩
      · rcases hd : decodeEmitted w with e | i
        · have hg : fetch s = .neverEmitted := by simp [hf, fetchWord, hw, hd]
          exact .inr ⟨by rw [step, hg], rfl, ws, k, w, rfl, hw, (neverEmitted_iff w).2 ⟨e, hd⟩⟩
        · have hg : fetch s = .instruction i s.popReset := by simp [hf, fetchWord, hw, hd]
          exact .inl ⟨_, by rw [step, hg]; exact exec_of_decodeEmitted hd _, .word ws k w hr hs hw (neverEmitted_of_ok hd)⟩

theorem stepTo_of_step (h : step s = .next t) : StepTo s t := by
  rcases step_cases s with ⟨t', h', hs⟩ | ⟨h', -⟩
  · rw [h] at h'
    cases h'
    exact hs
  · rw [h] at h'
    cases h'

end Sys2Proof.Machine
end

