-- ==== Sys2Proof/Laws/Target.lean ====
section
/-! SUPPORT. What the target view makes of one more transaction: one lemma for each kind of word. -/

namespace Sys2Proof.Machine

/-- The view of a longer history goes on from that of the shorter. -/
theorem targetView_append (log es : List TxEntry) : targetView (log ++ es) = es.foldl TargetView.see (targetView log) := by
  simp [targetView]

/-- A pair's entry after it was set. -/
@[simp] theorem Pair.get_set {α : Type} (p : Pair α) (r : Reg) (v : α) : (p.set r v).get r = v := by
  cases r <;> rfl

/-- The two halves of a tuning word make it up. -/
@[simp] theorem msb14_append_lsb14 (W : U28) : msb14 W ++ lsb14 W = W := by
  apply BitVec.eq_of_getLsbD_eq
  intro i hi
  rw [BitVec.getLsbD_append]
  simp only [msb14, lsb14, BitVec.getLsbD_extractLsb']
  split <;> rename_i h
  · simp [h]
  · simp [show i - 14 < 14 by omega, show 14 + (i - 14) = i by omega]

/-- The losing of the frequency registers touches nothing else. -/
@[simp] theorem TargetView.loseFreq_control (v : TargetView) : v.loseFreq.control = v.control := rfl
@[simp] theorem TargetView.loseFreq_phase (v : TargetView) : v.loseFreq.phase = v.phase := rfl
@[simp] theorem TargetView.loseFreq_pairing (v : TargetView) : v.loseFreq.pairing = .unknown := rfl

/-- Every control word leaves itself in the control register. -/
@[simp] theorem TargetView.receiveControl_control (w : U16) (v : TargetView) :
    (v.receiveControl w).control = some w := by
  unfold receiveControl
  split <;> rfl

/-- A failed control word leaves the control register unknown. -/
@[simp] theorem TargetView.loseControl_control (v : TargetView) : v.loseControl.control = none := by
  unfold loseControl
  split <;> rfl

/-- A control word inside a pair, whatever its answer, leaves both frequency registers unknown (log entry 10). -/
theorem TargetView.control_inside_pair {v : TargetView} {r : Reg} {half : U14} (w : U16) (h : v.pairing = .lowHeld r half) :
    ((v.receiveControl w).freqHi = ⟨none, none⟩ ∧ (v.receiveControl w).freqLo = ⟨none, none⟩) ∧
    v.loseControl.freqHi = ⟨none, none⟩ ∧ v.loseControl.freqLo = ⟨none, none⟩ := by
  simp [receiveControl, loseControl, h, loseFreq]

/-- No frequency word touches the control register. -/
@[simp] theorem TargetView.receiveFreq_control (r : Reg) (half : U14) (v : TargetView) :
    (v.receiveFreq r half).control = v.control := by
  unfold receiveFreq receivePairHalf receiveSplitHalf
  repeat' split
  all_goals simp [loseFreq]

/-- A control word outside a pair: the pair starts anew after it. -/
theorem TargetView.receiveControl_outside_pair {v : TargetView} (w : U16) (h : ∀ q half, v.pairing ≠ .lowHeld q half) :
    v.receiveControl w = { v with control := some w, pairing := .ready } := by
  unfold receiveControl
  split <;> rename_i hp
  · rw [← hp]
  · rfl
  · exact absurd hp (h _ _)

/-- A control word answered Ok. -/
theorem TargetView.see_control {w : U16} (h : w &&& ctrlRsvd = 0#16) (v : TargetView) :
    v.see ⟨w, .ok⟩ = v.receiveControl w := by
  have hn : neverEmitted w = false := neverEmitted_of_ok (decodeEmitted_controlWord h)
  simp [see, receive, hn, targetReg, tagField_of_reserved h]

/-- A frequency word answered Ok. -/
theorem TargetView.see_freq (r : Reg) (half : U14) (v : TargetView) :
    v.see ⟨Machine.freqWord r half, .ok⟩ = v.receiveFreq r half := by
  have ht : targetReg (Machine.freqWord r half) = .freq r := by
    rw [targetReg, tagField_freqWord]
    cases r <;> rfl
  simp [see, receive, neverEmitted_freqWord, ht, payload_freqWord]

/-- A phase word answered Ok. -/
theorem TargetView.see_phase (r : Reg) (phase : U12) (v : TargetView) :
    v.see ⟨phaseWord r phase, .ok⟩ = { v with phase := v.phase.set r (some phase) } := by
  have hb : (phaseWord r phase).getLsbD 13 = regBit r := by
    rw [phaseWord_getLsbD]
    rfl
  have ht : targetReg (phaseWord r phase) = .phase r := by
    rw [targetReg, tagField_phaseWord, hb]
    cases r <;> rfl
  simp [see, receive, neverEmitted_phaseWord, ht, payload_phaseWord]

end Sys2Proof.Machine
end

