-- ==== Sys2Proof/Tests/Slice0.lean ====
section
/-! SUPPORT. Tests: ill-formed terms, words written out from the spec's encodings, one-step vectors whose results
are those of spec/95_test_vectors.md, and for every obligation with hypotheses a witness that meets them. -/

namespace Sys2Proof.Tests

open Sys2Proof Sys2Proof.Machine

/-! ## Helpers -/

/-- From reset, with `CTRL`, presented commands and scripted answers given. -/
def machineWith (ctrl : U16) (commands : List CommandWord) (answers : List Answer) : State :=
  { State.reset with ctrl := ctrl, cmdPort := commands, answers := answers }

/-- A state in the middle of a frequency pair: its first word has been answered Ok. -/
def midPair : State :=
  { State.reset with
    seq := .sending [0x69F1#16, 0x4000#16] 1, txLog := [⟨0x69F1#16, .ok⟩], answers := [.ok, .ok]
    fcache := ⟨some 0x3E80000#48, none⟩ }

/-- What the vectors of the spec show of a step: `CTRL`, the transmit history, the statuses. -/
def seen : Host.Outcome State Fault Refusal → Option (U16 × List TxEntry × List Status)
  | .next t => some (t.ctrl, t.txLog, t.statusLog)
  | .fault _ => none
  | .refused _ => none

/-- The caches and the fault bit after a step. -/
def kept : Host.Outcome State Fault Refusal → Option (Pair (Option Raw48) × Pair (Option PhaseEntry) × Bool)
  | .next t => some (t.fcache, t.pcache, t.fault)
  | .fault _ => none
  | .refused _ => none

/-! ## WellFormed smoke: each check refuses a term -/

theorem test_wf_setctl_reserved_mask : ¬ WellFormed (.setctl 0x0200#16 0x0000#16) := by decide
theorem test_wf_setctl_value_without_mask : ¬ WellFormed (.setctl 0x0800#16 0x0802#16) := by decide
theorem test_wf_ctrlw_reserved : ¬ WellFormed (.ctrlw 0x2300#16) := by decide
theorem test_wf_all_fields : WellFormed (.setctl 0x3DEA#16 0x1CEA#16) ∧ WellFormed (.ctrlw 0x3DEA#16) := by decide

/-! ## Decoding words written out from the spec's encodings -/

/-- R88: OP = 0001, zeros, MASK = 0x3DEA, VAL = 0x1CEA. -/
theorem test_decode_setctl : decodeCommand
    0b0001000000000000000000000000000000111101111010100001110011101010#64 = .ok (.setctl 0x3DEA#16 0x1CEA#16) := by
  decide

/-- R89: OP = 0010, REG = 10000001, zeros, HZ = -1 (raw). -/
theorem test_decode_setfreq : decodeCommand
    0b0010100000010000111111111111111111111111111111111111111111111111#64 =
      .ok (.setfreq 0x81#8 0xFFFFFFFFFFFF#48) := by decide

/-- R90: OP = 0011, REG = 00000001, UNIT = 1, zeros, ANG = 90 degrees. -/
theorem test_decode_setphase : decodeCommand
    0b0011000000011000000000000000000001011010000000000000000000000000#64 =
      .ok (.setphase 1#8 .degrees 1509949440#48) := by decide

/-- R91: OP = 0100, zeros, WM = 01. -/
theorem test_decode_setwmode : decodeCommand
    0b0100000000000000000000000000000000000000000000000000000000000001#64 = .ok (.setwmode .mostSignificantOnly) := by
  decide

/-- R92: OP = 0101, zeros, OM = 101. -/
theorem test_decode_setomode : decodeCommand
    0b0101000000000000000000000000000000000000000000000000000000000101#64 = .ok (.setomode .squareDivTwo) := by
  decide

/-- R93: OP = 0110, zeros, FSEL = 00000001, PSEL = 11111111. -/
theorem test_decode_selreg : decodeCommand
    0b0110000000000000000000000000000000000000000000000000000111111111#64 = .ok (.selreg 1#8 255#8) := by decide

/-- R82: the ten fields all 1. -/
theorem test_decode_ctrlw : decodeEmitted 0b0011110111101010#16 = .ok (.ctrlw 0x3DEA#16) := by decide

/-- R83: tag 01 and 10. -/
theorem test_decode_freqw : decodeEmitted 0b0110100111110001#16 = .ok (.freq0w 0x29F1#14) ∧
    decodeEmitted 0b1010100111110001#16 = .ok (.freq1w 0x29F1#14) := by decide

/-- R84: tag 11, bit 13 the register, bit 12 zero. -/
theorem test_decode_phasew : decodeEmitted 0b1100001010001100#16 = .ok (.phase0w 0x28C#12) ∧
    decodeEmitted 0b1110111111111111#16 = .ok (.phase1w 0xFFF#12) := by decide

/-- R94, with the causes of 95_test_vectors.md section 6. -/
theorem test_decode_illegal_commands :
    decodeCommand 0x0000000000000000#64 = .error .illegalOpcode ∧
    decodeCommand 0x7000000000000000#64 = .error .illegalOpcode ∧
    decodeCommand 0xF000000000000000#64 = .error .illegalOpcode ∧
    decodeCommand 0x4000000000000003#64 = .error .illegalWriteMode ∧
    decodeCommand 0x5000000000000006#64 = .error .illegalOutputMode ∧
    decodeCommand 0x5000000000000007#64 = .error .illegalOutputMode ∧
    decodeCommand 0x1000000002000200#64 = .error .illegalFieldUpdate ∧
    decodeCommand 0x1000000080000000#64 = .error .illegalFieldUpdate ∧
    decodeCommand 0x1000000008000802#64 = .error .illegalFieldUpdate ∧
    decodeCommand 0x1000000100000000#64 = .error .zeroRequiredBit ∧
    decodeCommand 0x2001000003E80000#64 = .error .zeroRequiredBit ∧
    decodeCommand 0x300900005A000000#64 = .error .zeroRequiredBit ∧
    decodeCommand 0x6000000000010100#64 = .error .zeroRequiredBit := by decide

/-- R85. -/
theorem test_decode_never_emitted : decodeEmitted 0x0200#16 = .error .reservedControlBit ∧
    decodeEmitted 0xD000#16 = .error .phaseBit12 ∧ decodeEmitted 0xF001#16 = .error .phaseBit12 := by decide

/-- Every row of spec/opcode_table.json through the host's entry points: decoded, and run as the next instruction. -/
theorem test_table_words : decodeTableWord 64 0x1000000000000000 = some (.setctl 0#16 0#16) ∧
    decodeTableWord 16 0xE000 = some (.phase1w 0#12) ∧ decodeTableWord 32 0x4000 = none ∧
    step (State.reset.withFetchWord 64 0x1000000000000000) =
      exec (.setctl 0#16 0#16) (State.reset.withFetchWord 64 0x1000000000000000).popCommand ∧
    step (State.reset.withFetchWord 16 0xE000) = exec (.phase1w 0#12) (State.reset.withFetchWord 16 0xE000) :=
  ⟨by decide, by decide, by decide, rfl, rfl⟩

/-! ## The Encoder, 95_test_vectors.md sections 1 to 4 -/

/-- 1.4, one field at a time. -/
theorem test_control_word_fields :
    [CtrlField.b28, .hlb, .fselect, .pselect, .reset, .sleep1, .sleep12, .opbiten, .div2, .mode].map
      (fun f => encodeControlWord f.mask) =
    [0x2000#16, 0x1000#16, 0x0800#16, 0x0400#16, 0x0100#16, 0x0080#16, 0x0040#16, 0x0020#16, 0x0008#16, 0x0002#16] := by
  decide

/-- Section 2, FMCLK = 25,000,000: rounding down and up, the largest operand, values outside the precondition. -/
theorem test_frequency_words :
    [0, 3051, 3052, 6553600, 28835840, 65536000, 3276800000, 409600000000, 819199934464, 819199999999].map
      (fun n => encodeFrequencyWord ⟨n, 2 ^ 16⟩ 25000000) =
    [0#28, 0#28, 1#28, 1074#28, 4724#28, 10737#28, 536871#28, 67108864#28, 0x7FFFFF5#28, 0x8000000#28] ∧
    encodeFrequencyWord ⟨25000000, 1⟩ 25000000 = 0#28 ∧
    encodeFrequencyWord ⟨-25000000, 2 ^ 28⟩ 25000000 = 268435455#28 := by decide

/-- Section 2, FMCLK = 2^24: ties go up. -/
theorem test_frequency_ties : [2048, 4096, 6144, 549755813887].map (fun n => encodeFrequencyWord ⟨n, 2 ^ 16⟩ 16777216) =
    [1#28, 1#28, 2#28, 0x8000000#28] := by decide

/-- Section 2: the split. -/
theorem test_split : splitFrequencyWord 0x0A3D70A#28 .r0 = (0x428F#16, 0x570A#16) ∧
    splitFrequencyWord 0x0A3D70A#28 .r1 = (0x828F#16, 0x970A#16) := by decide

/-- Section 3, degrees: ties toward +infinity, whole turns, negative angles. -/
theorem test_phase_degrees :
    [0, 368640, 737280, 2211840, -737280, 16777216, 6023020544, 6039797760, 13589544960, -16777216, 140737471578112].map
      (fun a => quantPhase ⟨a, 2 ^ 24⟩ .degrees) =
    [0#12, 0#12, 1#12, 2#12, 0#12, 11#12, 4085#12, 0#12, 1024#12, 4085#12, 2810#12] ∧
    quantPhase ⟨359957, 1000⟩ .degrees = 0#12 := by decide

/-- Section 3, radians. -/
theorem test_phase_radians :
    [0, 8388608, 16777216, 50331648, 52428800, 104857600, 105381888, 105906176, 117440512, 1677721600, -16777216].map
      (fun a => quantPhase ⟨a, 2 ^ 24⟩ .radians) =
    [0#12, 326#12, 652#12, 1956#12, 2037#12, 4074#12, 4095#12, 19#12, 467#12, 3750#12, 3444#12] ∧
    quantPhase ⟨6283, 1000⟩ .radians = 0#12 := by decide

/-! ## One step of a command, 95_test_vectors.md sections 4 to 7 -/

theorem test_setctl : seen (step (machineWith 0x2100#16 [0x1000000008000800#64] [.ok])) =
    some (0x2900#16, [⟨0x2900#16, .ok⟩], [.ok]) := by decide

/-- Section 4, the row with all ten fields. -/
theorem test_setctl_all_fields : seen (step (machineWith 0x2100#16 [0x100000003DEA1CEA#64] [.ok])) =
    some (0x1CEA#16, [⟨0x1CEA#16, .ok⟩], [.ok]) := by decide

/-- P5: Both mode, LSB word first, Err to the second word; the cache entry stays written. -/
theorem test_setfreq_error : seen (step (machineWith 0x2100#16 [0x2000000F42400000#64] [.ok, .err])) =
      some (0x2100#16, [⟨0x570A#16, .ok⟩, ⟨0x428F#16, .err⟩], [.transportError]) ∧
    kept (step (machineWith 0x2100#16 [0x2000000F42400000#64] [.ok, .err])) =
      some (⟨some 65536000000#48, none⟩, ⟨none, none⟩, true) := by decide

/-- Section 5, the split modes, register 1; section 6, the first operand that is out of range. -/
theorem test_setfreq_modes : seen (step (machineWith 0x1100#16 [0x2010000F42400000#64] [.ok])) =
      some (0x1100#16, [⟨0x828F#16, .ok⟩], [.ok]) ∧
    seen (step (machineWith 0x0100#16 [0x2010000F42400000#64] [.ok])) =
      some (0x0100#16, [⟨0x970A#16, .ok⟩], [.ok]) ∧
    seen (step (machineWith 0x2100#16 [0x200000BEBC200000#64] [])) = some (0x2100#16, [], [.rangeError]) := by decide

theorem test_setphase : seen (step (machineWith 0x2100#16 [0x301800005A000000#64] [.ok])) =
      some (0x2100#16, [⟨0xE400#16, .ok⟩], [.ok]) ∧
    kept (step (machineWith 0x2100#16 [0x301800005A000000#64] [.ok])) =
      some (⟨none, none⟩, ⟨none, some ⟨.degrees, 1509949440#48⟩⟩, false) := by decide

/-- P6 step 3: -1 rad in register 1. -/
theorem test_setphase_radians : seen (step (machineWith 0x2100#16 [0x3010FFFFFF000000#64] [.ok])) =
    some (0x2100#16, [⟨0xED74#16, .ok⟩], [.ok]) := by decide

/-- Section 4: HLB is cleared by Both. -/
theorem test_setwmode_both : seen (step (machineWith 0x3100#16 [0x4000000000000000#64] [.ok])) =
    some (0x2100#16, [⟨0x2100#16, .ok⟩], [.ok]) := by decide

/-- P5c step 1: the merge is kept although the word failed. -/
theorem test_setwmode_error : seen (step (machineWith 0x2100#16 [0x4000000000000002#64] [.err])) =
    some (0x0100#16, [⟨0x0100#16, .err⟩], [.transportError]) := by decide

theorem test_setomode_triangle : seen (step (machineWith 0x2028#16 [0x5000000000000003#64] [.ok])) =
    some (0x2002#16, [⟨0x2002#16, .ok⟩], [.ok]) := by decide

theorem test_setomode_sine : seen (step (machineWith 0x1CEA#16 [0x5000000000000002#64] [.ok])) =
    some (0x1C00#16, [⟨0x1C00#16, .ok⟩], [.ok]) := by decide

theorem test_selreg : seen (step (machineWith 0x2000#16 [0x6000000000000100#64] [.ok])) =
    some (0x2800#16, [⟨0x2800#16, .ok⟩], [.ok]) := by decide

theorem test_selreg_range : seen (step (machineWith 0x2100#16 [0x6000000000000002#64] [])) =
    some (0x2100#16, [], [.rangeError]) := by decide

theorem test_illegal_command : seen (step (machineWith 0x2100#16 [0x4800000000000003#64] [])) =
    some (0x2100#16, [], [.illegalCommand]) := by decide

/-! ## One step of a word (R150 phase 5) -/

/-- The first of two words: the position moves, no status. -/
theorem test_freq0w : seen (step { midPair with seq := .sending [0x69F1#16, 0x4000#16] 0, txLog := [] }) =
    some (0x2100#16, [⟨0x69F1#16, .ok⟩], []) := by decide

/-- The last word completes the command. -/
theorem test_freq0w_last : seen (step midPair) =
    some (0x2100#16, [⟨0x69F1#16, .ok⟩, ⟨0x4000#16, .ok⟩], [.ok]) := by decide

theorem test_freq1w : seen (exec (.freq1w 0x28F#14) { midPair with txLog := [] }) =
    some (0x2100#16, [⟨0x828F#16, .ok⟩], [.ok]) := by decide

theorem test_phase0w : seen (exec (.phase0w 0x28C#12) { midPair with txLog := [] }) =
    some (0x2100#16, [⟨0xC28C#16, .ok⟩], [.ok]) := by decide

theorem test_phase1w_error : seen (exec (.phase1w 0x400#12) { midPair with txLog := [], answers := [.err] }) =
    some (0x2100#16, [⟨0xE400#16, .err⟩], [.transportError]) := by decide

theorem test_ctrlw : seen (exec (.ctrlw 0x2900#16) { midPair with txLog := [] }) =
    some (0x2100#16, [⟨0x2900#16, .ok⟩], [.ok]) := by decide

/-- P1 on the wire: `69 F1` inside one select interval. -/
theorem test_bus : busTrace [⟨0x69F1#16, .ok⟩] = [.selectLow, .byte 0x69#8, .byte 0xF1#8, .selectHigh] := by decide

/-- P2, steps 1 to 5: the target's FREQ1 holds the tuning word of 1 MHz after the two-step load. -/
theorem test_target_two_step : (targetView [⟨0x2100#16, .ok⟩, ⟨0x0100#16, .ok⟩, ⟨0x970A#16, .ok⟩, ⟨0x1100#16, .ok⟩,
    ⟨0x828F#16, .ok⟩]).freqWord .r1 = some 0x0A3D70A#28 := by decide

/-- R100: `SETCTL FSELECT=1`, `SETFREQ 1000, 0` and `SETPHASE 90, 1, deg` assemble to the words of section 6 and 7. -/
theorem test_assemble : assemble (.setctl [(.fselect, true)]) = some (.setctl 0x0800#16 0x0800#16) ∧
    (assemble (.setfreq ⟨1000, 1⟩ 0)).map encode = some (.command 0x2000000003E80000#64) ∧
    (assemble (.setphase ⟨90, 1⟩ 1 .degrees)).map encode = some (.command 0x301800005A000000#64) ∧
    assemble (.setfreq ⟨1, 20⟩ 0) = none ∧ opcodeOfName "setWriteMode" = some 4#4 := by decide

/-- P2, steps 6 and 7: with FSELECT = 1 the DDS core reads that tuning word. -/
theorem test_target_active : (targetView [⟨0x2100#16, .ok⟩, ⟨0x970A#16, .ok⟩, ⟨0x828F#16, .ok⟩,
    ⟨0x2900#16, .ok⟩]).activeFreq = some 0x0A3D70A#28 := by decide

/-- U3: a failed word makes the register it addressed unknown. -/
theorem test_target_after_error : (targetView [⟨0x2100#16, .ok⟩, ⟨0x570A#16, .ok⟩, ⟨0x428F#16, .ok⟩, ⟨0x570A#16, .ok⟩,
    ⟨0x428F#16, .err⟩]).freqWord .r0 = none := by decide

/-- C17, log entry 10: a failed control word inside a pair loses both frequency registers, and one control word is not
enough to pair again. -/
theorem test_target_control_error_inside_pair :
    let log : List TxEntry := [⟨0x2100#16, .ok⟩, ⟨0x970A#16, .ok⟩, ⟨0x828F#16, .ok⟩, ⟨0x570A#16, .ok⟩, ⟨0x2100#16, .err⟩]
    let pair : List TxEntry := [⟨0x2100#16, .ok⟩, ⟨0x970A#16, .ok⟩, ⟨0x828F#16, .ok⟩]
    (targetView log).freqWord .r1 = none ∧ (targetView (log ++ pair)).freqWord .r1 = none ∧
    (targetView (log ++ [⟨0x2100#16, .ok⟩] ++ pair)).freqWord .r1 = some 0x0A3D70A#28 := by decide

/-- R99, R190: the status codes; R47: the debug view. -/
theorem test_status_codes_and_debug_view :
    [Status.ok, .rangeError, .transportError, .illegalCommand].map Status.code = [0#2, 1#2, 2#2, 3#2] ∧
    midPair.debugView = ⟨0x2100#16, ⟨some 0x3E80000#48, none⟩, ⟨none, none⟩, false⟩ := by decide

/-- R100 and section 6: lines of text, in any field order, with signs, fractions and prefixes; a field given twice, a
rational with no raw operand and a missing operand are no command. -/
theorem test_assemble_line :
    assembleLine ("SETCTL " ++ inBraces "RESET=0, FSELECT=1") = some (.command 0x1000000009000800#64) ∧
    assembleLine "SETFREQ -1/65536, 0x0" = some (.command 0x2000FFFFFFFFFFFF#64) ∧
    assembleLine "SETPHASE 6.25, 0, rad" = some (.command 0x3000000006400000#64) ∧
    assembleLine ("SETCTL " ++ inBraces "RESET=0, RESET=1") = none ∧
    assembleLine "SETFREQ 1/20, 0" = none ∧ assembleLine "SETFREQ 1000" = none := by decide

/-- R8: `_` separates digits, inside a literal alone. -/
theorem test_assemble_separator :
    assembleLine "SETFREQ 1_000, 0b0_1" = some (.command 0x2010000003E80000#64) ∧
    assembleLine "SETFREQ _, 0" = none ∧ assembleLine "SETFREQ 0x_, 0" = none ∧ assembleLine "SETFREQ 1_, 0" = none ∧
    assembleLine "SETFREQ 0x_1, 0" = none ∧ assembleLine "SETFREQ 1._5, 0" = none := by decide

/-! ## Witnesses: a state and operands that meet the hypotheses of each obligation that has any -/

/-- A state that nothing has its reset value in, with reset asserted at the third sampling point from now. -/
def dirty : State :=
  { machineWith 0x3DEA#16 [0x100000003DEA1CEA#64, 0x5000000000000002#64] [.ok, .err] with
    fcache := ⟨some 1#48, none⟩, pcache := ⟨none, some ⟨.radians, 1#48⟩⟩, fault := true
    txLog := [⟨0x3DEA#16, .err⟩], statusLog := [.transportError], resetLine := [false, false, true] }

/-- 1 kHz for register 0. -/
def oneKilohertz : Instr := .setfreq 0#8 0x3E80000#48

theorem witness_AssertedResetGivesResetValues :
    { dirty with resetLine := [true, false] }.resetLine = true :: [false] := by decide

theorem witness_ResetStateHasResetValues : ∃ s : State, dirty.resetBlock = s.resetBlock := ⟨dirty, rfl⟩

theorem witness_ResetInsideCommandAbandonsIt :
    (oneKilohertz.isCommand = true ∧ (beginCommand oneKilohertz { dirty with resetLine := [true] }).seq = .sending [0x69F1#16, 0x4000#16] 0 ∧
      { dirty with resetLine := [true] }.resetLine = true :: []) ∧
    ((beginCommand oneKilohertz { dirty with resetLine := [false, true] }).seq = .sending [0x69F1#16, 0x4000#16] 0 ∧
      { dirty with resetLine := [false, true] }.resetLine = false :: true :: [] ∧ dirty.nextAnswer = .ok) := by decide

theorem witness_ControlWordPacksTenFields : 0x3DEA#16 &&& 0xC215#16 = 0#16 ∧ 0x0000#16 &&& 0xC215#16 = 0#16 := by decide

theorem witness_FrequencyWordIsRoundedQuotient : 0 < (⟨-1, 1⟩ : Frac).den ∧ 0 < 1 := by decide

/-- The zero, the largest operand of a command word, the boundary of bit 27 and the smallest step up. -/
theorem witness_FrequencyWordWithinHalfStep :
    (0 < (⟨0, 1⟩ : Frac).den ∧ 0 < 25000000 ∧ 0 ≤ (⟨0, 1⟩ : Frac).num ∧ 2 * (((0 : ℤ) : ℚ) / (1 : ℕ)) < (25000000 : ℕ)) ∧
    (0 ≤ (⟨819199999999, 65536⟩ : Frac).num ∧
      2 * (((819199999999 : ℤ) : ℚ) / (65536 : ℕ)) < (25000000 : ℕ) ∧ ((0 : ℤ) : ℚ) / (1 : ℕ) ≤ ((819199999999 : ℤ) : ℚ) / (65536 : ℕ)) ∧
    (2 * (((390625 : ℤ) : ℚ) / (8388608 : ℕ)) < (25000000 : ℕ) ∧
      ((390625 : ℤ) : ℚ) / (8388608 : ℕ) = ((25000000 : ℕ) : ℚ) / 2 ^ 29) := by norm_num

theorem witness_SplitThenDecodeRecovers :
    0 < (⟨819199999999, 65536⟩ : Frac).den ∧ 0 ≤ (⟨819199999999, 65536⟩ : Frac).num ∧
    2 * (((819199999999 : ℤ) : ℚ) / (65536 : ℕ)) < (25000000 : ℕ) := by norm_num

/-- A tie: 45/1024 degrees, and -45/1024. -/
theorem witness_DegreesQuantiserIsExact : 0 < (⟨45, 1024⟩ : Frac).den ∧ (1 : ℤ) % 2 = 1 ∧ (-1 : ℤ) % 2 = 1 := by decide

/-- A rational that is no raw operand, and the operand 0, whose nearest phase is 0. -/
theorem witness_RadiansQuantiserIsExact : 0 < (⟨-22, 7⟩ : Frac).den ∧
    (2 * ((0 : ℤ) : ℝ) - 1) * 4096 * Real.pi ≤ ((0#48).toInt : ℝ) ∧
    ((0#48).toInt : ℝ) < (2 * ((0 : ℤ) : ℝ) + 1) * 4096 * Real.pi := by
  have h := Real.pi_pos
  have z : ((0#48).toInt : ℝ) = 0 := by norm_num
  rw [z]
  refine ⟨by decide, ?_, ?_⟩ <;> push_cast <;> linarith

theorem witness_PhaseIsPeriodic : 0 < (⟨-22, 7⟩ : Frac).den := by decide

theorem witness_IllegalCommandWordsExactly :
    let s : State := { dirty with cmdPort := [0x5000000000000006#64] }
    decodeCommand 0x5000000000000006#64 = .error .illegalOutputMode ∧ ResetLow 1 s ∧ s.seq = .idle ∧
    s.cmdPort = 0x5000000000000006#64 :: [] := by decide

/-- The words next to those of R85. -/
theorem witness_EveryOtherWordIsEmitted :
    [0x3DEA#16, 0x4000#16, 0xBFFF#16, 0xCFFF#16, 0xEFFF#16].map neverEmitted = [false, false, false, false, false] := by
  decide

theorem witness_DecodeOfEncode : ∀ i ∈ [Instr.setctl 0x3DEA#16 0x3DEA#16, .setfreq 255#8 0x800000000000#48,
    .setphase 255#8 .degrees 0x7FFFFFFFFFFF#48, .setwmode .leastSignificantOnly, .setomode .squareDivTwo,
    .selreg 255#8 255#8, .ctrlw 0x3DEA#16, .freq0w 0x3FFF#14, .freq1w 0x3FFF#14, .phase0w 0xFFF#12,
    .phase1w 0xFFF#12], WellFormed i := by decide

theorem witness_EncodeOfDecode : decode (.command 0x6000000000000100#64) = .ok (.selreg 1#8 0#8) ∧
    decode (.emitted 0xE400#16) = .ok (.phase1w 0x400#12) := by decide

theorem witness_SetctlMergesAndTransmits : WellFormed (.setctl 0x3DEA#16 0x1CEA#16) ∧
    dirty.ctrl &&& 0xC215#16 = 0#16 ∧ ResetLow 1 dirty := by decide

theorem witness_SetwmodeWritesBothModeBits : dirty.ctrl &&& 0xC215#16 = 0#16 ∧ ResetLow 1 dirty := by decide

theorem witness_SetomodeWritesGovernedBits : dirty.config.wf ∧ dirty.ctrl &&& 0xC215#16 = 0#16 ∧ ResetLow 1 dirty := by decide

/-- Selects at 1, and each at 2. -/
theorem witness_SelregWritesBothSelects : dirty.ctrl &&& 0xC215#16 = 0#16 ∧ ResetLow 1 dirty ∧
    ((1#8).toNat ≤ 1 ∧ (1#8).toNat ≤ 1) ∧ (1 < (2#8).toNat ∨ 1 < (0#8).toNat) ∧ (1 < (0#8).toNat ∨ 1 < (2#8).toNat) := by
  decide

/-- The smallest and the largest operand in range, in each write mode; each cause of a range error alone. -/
theorem witness_SetfreqTransmitsByWriteMode : ResetLow 2 dirty ∧ 1#8 = regOperand .r1 ∧
    (0 ≤ (0#48).toInt ∧ (0#48).toInt < (dirty.config.fmclk : ℤ) * 2 ^ 15) ∧
    (0 ≤ (819199999999#48).toInt ∧ (819199999999#48).toInt < (dirty.config.fmclk : ℤ) * 2 ^ 15) ∧
    (1 < (2#8).toNat ∧ (0xFFFFFFFFFFFF#48).toInt < 0 ∧
      (dirty.config.fmclk : ℤ) * 2 ^ 15 ≤ (819200000000#48).toInt) ∧
    [0x3100#16, 0x1100#16, 0x0100#16].map writeModeOf =
      [.both, .mostSignificantOnly, .leastSignificantOnly] := by decide

theorem witness_SetphaseTransmitsOneWord : ResetLow 1 dirty ∧ 1#8 = regOperand .r1 ∧ 1 < (2#8).toNat := by decide

theorem witness_WrappersAreTheirExpansion : dirty.config.wf ∧
    expand dirty.config (.setwmode .both) = some (.setctl 0x3000#16 0x2000#16) ∧
    expand dirty.config (.setomode .off) = some (.setctl 0x01EA#16 0x00C0#16) ∧
    expand dirty.config (.selreg 1#8 1#8) = some (.setctl 0x0C00#16 0x0C00#16) := by decide

/-- The five words, and a state for each clause: a word that is not the last, the last one, one answered Err, and
no command in progress. -/
theorem witness_EmittedWordIsOneTransaction :
    [Instr.ctrlw 0x2100#16, .freq0w 0#14, .freq1w 0#14, .phase0w 0#12, .phase1w 0#12].map encode =
      [.emitted 0x2100#16, .emitted 0x4000#16, .emitted 0x8000#16, .emitted 0xC000#16, .emitted 0xE000#16] ∧
    (midPair.withSeq (.sending [0x69F1#16, 0x4000#16] 0)).nextAnswer = .ok ∧ 0 + 1 < [0x69F1#16, 0x4000#16].length ∧
    (midPair.seq = .sending [0x69F1#16, 0x4000#16] 1 ∧ [0x69F1#16, 0x4000#16].length ≤ 1 + 1) ∧
    { midPair with answers := [.err] }.nextAnswer = .err ∧ State.reset.seq = .idle := by decide

theorem witness_TransportErrorKeepsUpdateAndDropsRest : oneKilohertz.isCommand = true ∧ ResetLow 2 dirty ∧
    (beginCommand oneKilohertz dirty).seq = .sending (0x69F1#16 :: [0x4000#16]) 0 ∧
    { dirty with answers := [.err] }.nextAnswer = .err ∧
    (dirty.nextAnswer = .ok ∧ dirty.secondAnswer = .err) := by decide

theorem witness_RangeErrorExactly : (Instr.selreg 2#8 0#8).isCommand = true ∧ ResetLow 2 dirty ∧
    ∃ t, exec (.selreg 2#8 0#8) dirty = .next t := ⟨by decide, by decide, _, rfl⟩

theorem witness_RangeErrorChangesNothing : (Instr.setfreq 0#8 0xFFFFFFFFFFFF#48).isCommand = true ∧ dirty.seq = .idle ∧
    ResetLow 2 dirty ∧ ∃ t, exec (.setfreq 0#8 0xFFFFFFFFFFFF#48) dirty = .next t ∧
      t.statusLog = dirty.statusLog ++ [.rangeError] := ⟨by decide, by decide, by decide, _, rfl, by decide⟩

/-- Two words in Both mode, one in a split mode, one control word. -/
theorem witness_TransactionsPerCommand :
    ∀ p ∈ [(oneKilohertz, 0x2100#16), (oneKilohertz, 0x1100#16), (Instr.setctl 0#16 0#16, 0x2100#16)],
      p.1.isCommand = true ∧ ResetLow 2 (machineWith p.2 [] [.ok, .ok]) ∧
      ∃ t, exec p.1 (machineWith p.2 [] [.ok, .ok]) = .next t ∧
        t.statusLog = (machineWith p.2 [] [.ok, .ok]).statusLog ++ [.ok] := by
  intro p hp
  simp only [List.mem_cons, List.not_mem_nil, or_false] at hp
  rcases hp with rfl | rfl | rfl <;> exact ⟨rfl, by decide, _, rfl, by decide⟩

theorem witness_CommandsKeepTheirFrame : dirty.ctrl &&& 0xC215#16 = 0#16 ∧ ResetLow 2 dirty ∧
    ∀ i ∈ [Instr.setctl 0x0800#16 0x0800#16, .setwmode .both, .setomode .sine, .selreg 1#8 0#8, oneKilohertz,
      .setphase 1#8 .radians 0#48], i.isCommand = true ∧ ∃ t, exec i dirty = .next t := by
  refine ⟨by decide, by decide, fun i hi => ?_⟩
  have hc : i.isCommand = true := by revert i; decide
  exact ⟨hc, _, exec_command hc dirty⟩

theorem witness_EmittedWordsKeepTheirFrame : (Instr.phase1w 0#12).isCommand = false ∧
    ∃ t, exec (.phase1w 0#12) dirty = .next t := ⟨rfl, _, rfl⟩

theorem witness_OutputModesLeaveNoTrace : ResetLow 2 dirty ∧ ∃ t u v, exec (.setomode .off) dirty = .next t ∧
    exec (.setomode .sine) t = .next u ∧ exec (.setomode .sine) dirty = .next v := ⟨by decide, _, _, _, rfl, rfl, rfl⟩

theorem witness_PartialUpdateSetsExactlyItsFields :
    assemble (.setctl [(.fselect, true), (.reset, false)]) = some (.setctl 0x0900#16 0x0800#16) ∧
    assemble (.setctl []) = some (.setctl 0#16 0#16) ∧ ResetLow 1 dirty ∧
    (CtrlField.reset, false) ∈ [(CtrlField.fselect, true), (CtrlField.reset, false)] ∧
    ∀ v, (CtrlField.mode, v) ∉ [(CtrlField.fselect, true), (CtrlField.reset, false)] := by decide

theorem witness_AssembledOperandsAreExact :
    assemble (.setfreq ⟨-1, 65536⟩ 255) = some (.setfreq 255#8 0xFFFFFFFFFFFF#48) ∧
    assemble (.setphase ⟨45, 1024⟩ 0 .degrees) = some (.setphase 0#8 .degrees 737280#48) := by decide

theorem witness_SelectsDoNotSteerWrites :
    (0x2D00#16 &&& ~~~0x0C00#16 = (machineWith 0x2100#16 [] []).ctrl &&& ~~~0x0C00#16) ∧
    (∃ t u, exec oneKilohertz (machineWith 0x2100#16 [] []) = .next t ∧
      exec oneKilohertz { machineWith 0x2100#16 [] [] with ctrl := 0x2D00#16 } = .next u) ∧
    (∃ t u, exec (.setphase 0#8 .radians 0#48) (machineWith 0x2100#16 [] []) = .next t ∧
      exec (.setphase 0#8 .radians 0#48) { machineWith 0x2100#16 [] [] with ctrl := 0x0000#16 } = .next u) :=
  ⟨by decide, ⟨_, _, rfl, rfl⟩, _, _, rfl, rfl⟩

/-- `dirty` with caches, fault bit and history as after reset. -/
theorem witness_CommandsIgnoreCachesFaultAndLog :
    let s' : State := { dirty with fcache := ⟨none, none⟩, pcache := ⟨none, none⟩, fault := false, txLog := [] }
    ResetLow 2 dirty ∧ s'.ctrl = dirty.ctrl ∧ s'.config = dirty.config ∧ s'.resetLine = dirty.resetLine ∧
    s'.answers = dirty.answers ∧ s'.draws = dirty.draws ∧
    ∃ t t', exec oneKilohertz dirty = .next t ∧ exec oneKilohertz s' = .next t' :=
  ⟨by decide, rfl, rfl, rfl, rfl, rfl, _, _, rfl, rfl⟩

theorem witness_StepRunsPresentedCommand : ResetLow 1 dirty ∧ dirty.seq = .idle ∧
    dirty.cmdPort = 0x100000003DEA1CEA#64 :: [0x5000000000000002#64] ∧
    decodeCommand 0x100000003DEA1CEA#64 = .ok (.setctl 0x3DEA#16 0x1CEA#16) := by decide

theorem witness_StepRunsWordAtPosition : ResetLow 1 midPair ∧ midPair.seq = .sending [0x69F1#16, 0x4000#16] 1 ∧
    [0x69F1#16, 0x4000#16][1]? = some 0x4000#16 ∧ decodeEmitted 0x4000#16 = .ok (.freq0w 0#14) := by decide

theorem witness_IllegalCommandChangesNothing :
    ResetLow 1 (machineWith 0x2100#16 [0x7000000000000000#64] []) ∧
    (machineWith 0x2100#16 [0x7000000000000000#64] []).cmdPort = 0x7000000000000000#64 :: [] ∧
    decodeCommand 0x7000000000000000#64 = .error .illegalOpcode := by decide

theorem witness_IdleBlockWaits : ResetLow 1 State.reset ∧ State.reset.seq = .idle ∧ State.reset.cmdPort = [] := by decide

theorem witness_PresentedCommandIsHeld :
    let s : State := { midPair with cmdPort := [0x5000000000000002#64] }
    s.seq = .sending [0x69F1#16, 0x4000#16] 1 ∧ ResetLow 1 s ∧ ∃ t, step s = .next t := ⟨rfl, by decide, _, rfl⟩

theorem witness_PositionEndsWithCommand : dirty.seq = .idle ∧ ∃ t, step dirty = .next t := ⟨rfl, _, rfl⟩

/-- A command that fails, an illegal one and one that completes. -/
theorem witness_OneStatusPerCommand :
    ∀ p ∈ [(0x1000000000000000#64, Answer.err), (0x7000000000000000#64, Answer.ok), (0x1000000000000000#64, Answer.ok)],
      ResetLow 3 (machineWith 0x2100#16 [p.1] [p.2]) ∧ (machineWith 0x2100#16 [p.1] [p.2]).seq = .idle ∧
      (seen (step (machineWith 0x2100#16 [p.1] [p.2]))).isSome = true := by decide

theorem witness_FaultRecordsFailedTransactions :
    ResetLow 3 (machineWith 0x2100#16 [0x1000000000000000#64] [.err]) ∧
    ∃ t, step (machineWith 0x2100#16 [0x1000000000000000#64] [.err]) = .next t ∧ t.fault = true :=
  ⟨by decide, _, rfl, by decide⟩

/-- The stop is there, in a state that no run reaches. -/
theorem witness_StepStopsOnlyAtNeverEmittedWord :
    step { State.reset with seq := .sending [0xD000#16] 0 } = .fault .wordNeverEmitted := by rfl

theorem inv_midPair : Inv midPair where
  ctrl_reserved := by decide
  config_wf := by decide
  seq_bound := by
    intro ws k h
    obtain ⟨rfl, rfl⟩ : [0x69F1#16, 0x4000#16] = ws ∧ 1 = k := by simpa [midPair] using h
    decide
  seq_emitted := by
    intro ws k w h
    obtain ⟨rfl, rfl⟩ : [0x69F1#16, 0x4000#16] = ws ∧ 1 = k := by simpa [midPair] using h
    intro hw
    simp only [List.mem_cons, List.not_mem_nil, or_false] at hw
    rcases hw with rfl | rfl <;> decide
  log_emitted := by decide
  fault_iff := by simp [midPair, State.reset]
  fcache_valid := by
    intro r raw h
    cases r
    · obtain rfl : 0x3E80000#48 = raw := by simpa [midPair, Pair.get] using h
      decide
    · simp [midPair, Pair.get] at h

theorem witness_StepKeepsInvariantAndNeverStops : ∃ s, Inv s ∧ s.seq ≠ .idle := ⟨midPair, inv_midPair, by decide⟩

theorem witness_CommandEqualsItsWordsStepByStep : oneKilohertz.isCommand = true := by decide

theorem witness_StepKeepsShadowMatchingTarget : Inv midPair ∧ ShadowMatches midPair ∧ ∃ t, step midPair = .next t := by
  refine ⟨inv_midPair, ⟨fun w hw => ?_, fun _ c h => ?_⟩, _, rfl⟩
  · obtain rfl : w = 0x4000#16 := by simpa [midPair, SeqPos.pending] using hw
    decide
  · have e : (targetView midPair.txLog).control = none := by decide
    rw [e] at h
    cases h

/-- From reset, and in the middle of a history. -/
theorem witness_SetctlPublishesShadow : WellFormed (.setctl 0x0800#16 0x0800#16) ∧
    ∀ s ∈ [{ midPair with seq := .idle }, { midPair with seq := .idle, txLog := [] }],
      Inv s ∧ s.fault = false ∧ ResetLow 1 s ∧ ∃ t, exec (.setctl 0x0800#16 0x0800#16) s = .next t ∧
        t.statusLog = s.statusLog ++ [.ok] := by
  refine ⟨by decide, fun s hs => ?_⟩
  simp only [List.mem_cons, List.not_mem_nil, or_false] at hs
  rcases hs with rfl | rfl
  · exact ⟨⟨by decide, by decide, nofun, nofun, by decide, by simp [midPair, State.reset], inv_midPair.fcache_valid⟩,
      by decide, by decide, _, rfl, by decide⟩
  · exact ⟨⟨by decide, by decide, nofun, nofun, by decide, by simp [midPair, State.reset], inv_midPair.fcache_valid⟩,
      by decide, by decide, _, rfl, by decide⟩

/-- After no transaction at all, and after a complete pair. -/
theorem witness_PairAfterControlWordLoadsRegister : 0x2100#16 &&& 0xC215#16 = 0#16 ∧ writeModeOf 0x2100#16 = .both ∧
    (targetView []).pairing = .unknown ∧
    (∀ e ∈ [(⟨0x2100#16, .ok⟩ : TxEntry), ⟨0x69F1#16, .ok⟩, ⟨0x4000#16, .ok⟩], e.result = .ok) ∧
    (targetView [⟨0x2100#16, .ok⟩, ⟨0x69F1#16, .ok⟩, ⟨0x4000#16, .ok⟩]).pairing = .ready := by decide

theorem witness_SplitModesReplaceOneHalf :
    (∀ e ∈ [(⟨0x1100#16, .ok⟩ : TxEntry), ⟨0x0100#16, .ok⟩], e.result = .ok) ∧
    ((targetView [⟨0x1100#16, .ok⟩]).control = some 0x1100#16 ∧ (targetView [⟨0x1100#16, .ok⟩]).pairing = .ready ∧
      writeModeOf 0x1100#16 = .mostSignificantOnly) ∧
    ((targetView [⟨0x0100#16, .ok⟩]).control = some 0x0100#16 ∧ (targetView [⟨0x0100#16, .ok⟩]).pairing = .ready ∧
      writeModeOf 0x0100#16 = .leastSignificantOnly) ∧
    0x0100#16 &&& 0xC215#16 = 0#16 ∧ 0x1100#16 &&& 0xC215#16 = 0#16 ∧
    (targetView []).pairing = .unknown := by decide

/-- A frequency at the upper end of its range; law 3's angle. -/
theorem witness_EncoderLawsHold : 0 < (⟨819199999999, 65536⟩ : Frac).den ∧ 0 ≤ (⟨819199999999, 65536⟩ : Frac).num ∧
    2 * fracReal ⟨819199999999, 65536⟩ < (25000000 : ℕ) ∧ 0 < (⟨-22, 7⟩ : Frac).den := by norm_num [fracReal]

end Sys2Proof.Tests
end

section
/-! SUPPORT. What one step can do to the parts of the state the invariant speaks of, said once: either a reset ends the
step, or at most two words are handed to the transport and everything else keeps its shape. The proofs of the family
10_state.md about steps rest on it. -/

namespace Sys2Proof.Machine

variable {s t u : State} {i : Instr} {ws : List U16}

/-! ## Reset -/

theorem step_of_resetAsserted (h : s.resetAsserted = true) : step s = .next s.popReset.resetBlock := by
  simp [step, fetch, h]

theorem not_resetLow_of_resetAsserted (h : s.resetAsserted = true) (n : Nat) : ¬ ResetLow (n + 1) s := by
  intro hl
  simp [hl.resetAsserted] at h

theorem IsReset.eq_resetBlock (h : IsReset u t) : ∃ v : State, v.config = u.config ∧ t = v.resetBlock := by
  obtain ⟨line, answers, draws, rfl⟩ := h
  exact ⟨{ u with resetLine := line, answers := answers, draws := draws }, rfl, rfl⟩

/-- The invariant holds after a reset of any block with an admitted configuration (R46). -/
theorem inv_resetBlock (h : s.config.wf) : Inv s.resetBlock where
  ctrl_reserved := show 0x2100#16 &&& ctrlRsvd = 0#16 by decide
  config_wf := h
  seq_bound := nofun
  seq_emitted := nofun
  log_emitted := by simp
  fault_iff := by simp
  fcache_valid := fun r => by cases r <;> simp [Pair.get]

/-! ## The transmit history and `FAULT` -/

/-- `t` has the history of `s` and after it transactions of words from `ws`, no more than those, and a `FAULT` that
records which of them failed (R39, R44). -/
def Records (ws : List U16) (s t : State) : Prop :=
  ∃ es, t.txLog = s.txLog ++ es ∧ es.length ≤ ws.length ∧ (∀ e ∈ es, e.word ∈ ws) ∧
    (t.fault = true ↔ s.fault = true ∨ ∃ e ∈ es, e.result = .err)

theorem Records.of_eq (hl : t.txLog = s.txLog) (hf : t.fault = s.fault) : Records [] s t :=
  ⟨[], by simp [hl], by simp, by simp, by simp [hf]⟩

theorem Records.of_surroundings (h : Records ws u t) (hu : SameSurroundings s u) : Records ws s t := by
  rwa [Records, ← hu.txLog, ← hu.fault]

theorem Sent.records (h : Sent ws u t) : Records ws u t := by
  obtain ⟨es, st, hl, -, ⟨rfl, -, hf⟩ | ⟨sent, w, rest, rfl, rfl, -, hf⟩⟩ := h.log
  · exact ⟨_, hl, by simp, by simp, by simp [hf]⟩
  · refine ⟨_, hl, by simp, ?_, by simp [hf]⟩
    intro e he
    rcases List.mem_append.1 he with he | he
    · obtain ⟨x, hx, rfl⟩ := List.mem_map.1 he
      exact List.mem_append_left _ hx
    · simp [List.mem_singleton.1 he]

@[simp] theorem transmitWord_ctrl (w : U16) (s : State) : (transmitWord w s).ctrl = s.ctrl := by
  rw [transmitWord_eq]
  cases s.seq <;> cases s.nextAnswer <;> simp [apply_ite State.ctrl]

@[simp] theorem transmitWord_fcache (w : U16) (s : State) : (transmitWord w s).fcache = s.fcache := by
  rw [transmitWord_eq]
  cases s.seq <;> cases s.nextAnswer <;> simp [apply_ite State.fcache]

@[simp] theorem transmitWord_config (w : U16) (s : State) : (transmitWord w s).config = s.config := by
  rw [transmitWord_eq]
  cases s.seq <;> cases s.nextAnswer <;> simp [apply_ite State.config]

/-- One word moves the sequencer to the next position, or ends the command (R41, R150). -/
theorem transmitWord_seq (w : U16) (s : State) : (transmitWord w s).seq = .idle ∨
    ∃ vs k, s.seq = .sending vs k ∧ (transmitWord w s).seq = .sending vs (k + 1) ∧ k + 1 < vs.length := by
  rw [transmitWord_eq]
  rcases hs : s.seq with _ | ⟨vs, k⟩
  · exact .inl hs
  · cases s.nextAnswer with
    | err => exact .inl rfl
    | ok =>
      by_cases hk : k + 1 < vs.length
      · exact .inr ⟨vs, k, rfl, by simp [hk], hk⟩
      · exact .inl (by simp [hk])

theorem records_transmitWord (w : U16) (s : State) : Records [w] s (transmitWord w s) := by
  refine ⟨[⟨w, s.nextAnswer⟩], ?_, by simp, by simp, ?_⟩ <;> rw [transmitWord_eq]
  · cases s.seq <;> cases ha : s.nextAnswer <;> simp [ha, apply_ite State.txLog]
  · cases s.seq <;> cases s.nextAnswer <;> simp [apply_ite State.fault]

/-! ## The update of a command -/

theorem Update.ctrl_reserved (h : Update i s u ws) (hc : s.ctrl &&& ctrlRsvd = 0#16) : u.ctrl &&& ctrlRsvd = 0#16 := by
  cases h with
  | control mask val => rw [writeCtrl_ctrl, ← encodeControlWord_eq_and, encodeControlWord_reserved]
  | freq => exact hc
  | phase => exact hc

theorem Pair.get_set_of_ne {α : Type} (p : Pair α) (v : α) : ∀ {q r : Reg}, q ≠ r → (p.set r v).get q = p.get q
  | .r0, .r1, _ => rfl
  | .r1, .r0, _ => rfl
  | .r0, .r0, h => absurd rfl h
  | .r1, .r1, h => absurd rfl h

/-- A frequency cache entry after an update stood there before it or passed the validation (R37, R152). -/
theorem Update.fcache_cases (h : Update i s u ws) {q : Reg} {x : Raw48} (hx : u.fcache.get q = some x) :
    s.fcache.get q = some x ∨ hzOutOfRange (hzOperand x) s.config.fmclk = false := by
  cases h with
  | control => exact .inl hx
  | phase => exact .inl hx
  | freq reg raw r hi hr hz =>
    rw [writeFCache_fcache] at hx
    by_cases hq : q = r
    · subst hq
      rw [Pair.get_set] at hx
      cases hx
      exact .inr hz
    · rw [Pair.get_set_of_ne _ _ hq] at hx
      exact .inl hx

/-! ## One step -/

/-- What a step without a reset does to the state that the invariant speaks of, over the words `ws` it may send. -/
structure StepEffect (ws : List U16) (s t : State) : Prop where
  ctrl : s.ctrl &&& ctrlRsvd = 0#16 → t.ctrl &&& ctrlRsvd = 0#16
  config : t.config = s.config
  seq : t.seq = .idle ∨ ∃ vs k, s.seq = .sending vs k ∧ t.seq = .sending vs (k + 1) ∧ k + 1 < vs.length
  fcache : ∀ r raw, t.fcache.get r = some raw →
    s.fcache.get r = some raw ∨ hzOutOfRange (hzOperand raw) s.config.fmclk = false
  length_le : ws.length ≤ 2
  emitted : ∀ w ∈ ws, neverEmitted w = false
  records : Records ws s t

/-- Ending the step in `IDLE` with nothing sent and nothing written. -/
theorem StepEffect.of_frame (hctrl : t.ctrl = s.ctrl) (hfcache : t.fcache = s.fcache) (hconfig : t.config = s.config)
    (hseq : t.seq = .idle) (hlog : t.txLog = s.txLog) (hfault : t.fault = s.fault) : StepEffect [] s t where
  ctrl := by simp [hctrl]
  config := hconfig
  seq := .inl hseq
  fcache := by simp +contextual [hfcache]
  length_le := by simp
  emitted := by simp
  records := .of_eq hlog hfault

theorem StepEffect.of_sent (hu : Update i s u ws) (hs : Sent ws u t) : StepEffect ws s t where
  ctrl hc := hs.ctrl ▸ hu.ctrl_reserved hc
  config := hs.config.trans hu.surroundings.config
  seq := .inl hs.seq
  fcache _ _ hx := hu.fcache_cases (hs.fcache ▸ hx)
  length_le := hu.length_le
  emitted := hu.emitted
  records := hs.records.of_surroundings hu.surroundings

theorem StepEffect.transmitWord {w : U16} (hn : neverEmitted w = false) (s : State) :
    StepEffect [w] s (transmitWord w s) where
  ctrl := by simp
  config := transmitWord_config w s
  seq := transmitWord_seq w s
  fcache := by simp +contextual
  length_le := by simp
  emitted := by simp [hn]
  records := records_transmitWord w s

/-- The sampled reset level is none of the parts the effect speaks of (R230). -/
theorem StepEffect.of_popReset (h : StepEffect ws s.popReset t) : StepEffect ws s t :=
  ⟨h.ctrl, h.config, h.seq, h.fcache, h.length_le, h.emitted, h.records⟩

/-- Nor are the presented commands (R158). -/
theorem StepEffect.of_popCommand (h : StepEffect ws s.popCommand t) : StepEffect ws s t :=
  ⟨h.ctrl, h.config, h.seq, h.fcache, h.length_le, h.emitted, h.records⟩

/-- A position after a step is a later one in the list that the step found (R41). -/
theorem StepEffect.sending (h : StepEffect ws s t) {vs : List U16} {k : Nat} (ht : t.seq = .sending vs k) :
    (∃ j, s.seq = .sending vs j) ∧ k < vs.length := by
  rcases h.seq with hidle | ⟨vs', j, hs, ht', hk⟩
  · simp [hidle] at ht
  · obtain ⟨rfl, rfl⟩ : vs' = vs ∧ j + 1 = k := by simpa [ht'] using ht
    exact ⟨⟨j, hs⟩, hk⟩

/-- A step is ended by a reset, or has the effect of at most two words (R150, R159, R230). -/
theorem StepTo.reset_or_effect (h : StepTo s t) :
    (¬ ResetLow 3 s ∧ ∃ v : State, v.config = s.config ∧ t = v.resetBlock) ∨ ∃ ws, StepEffect ws s t := by
  cases h with
  | reset hr => exact .inl ⟨not_resetLow_of_resetAsserted hr 2, s.popReset, rfl, rfl⟩
  | waits hr hs hp => exact .inr ⟨[], .of_frame rfl rfl rfl hs rfl rfl⟩
  | illegal => exact .inr ⟨[], .of_frame rfl rfl rfl rfl rfl rfl⟩
  | finished => exact .inr ⟨[], .of_frame rfl rfl rfl rfl rfl rfl⟩
  | word vs k w hr hs hw hn => exact .inr ⟨[w], (StepEffect.transmitWord hn s.popReset).of_popReset⟩
  | command c rest i t hr hs hp hd hi ht =>
    cases exec_command_cases hi ht with
    | range => exact .inr ⟨[], .of_frame rfl rfl rfl rfl rfl rfl⟩
    | sent u t ws hb hu hsent => exact .inr ⟨ws, (StepEffect.of_sent hu hsent).of_popCommand.of_popReset⟩
    | reset t hreset hlow =>
      exact .inl ⟨fun hl => hlow (hl.popReset.of_resetLine_eq rfl), hreset.eq_resetBlock⟩

/-! ## The invariant -/

theorem Inv.of_effect (hinv : Inv s) (h : StepEffect ws s t) : Inv t := by
  obtain ⟨es, hlog, -, hwords, hfault⟩ := h.records
  exact {
    ctrl_reserved := h.ctrl hinv.ctrl_reserved
    config_wf := h.config ▸ hinv.config_wf
    seq_bound := fun vs k ht => by
      obtain ⟨⟨j, hs⟩, hk⟩ := h.sending ht
      exact ⟨hk, (hinv.seq_bound vs j hs).2⟩
    seq_emitted := fun vs k w ht hw => by
      obtain ⟨⟨j, hs⟩, -⟩ := h.sending ht
      exact hinv.seq_emitted vs j w hs hw
    log_emitted := fun e he => by
      rcases List.mem_append.1 (hlog ▸ he) with he | he
      · exact hinv.log_emitted e he
      · exact h.emitted _ (hwords e he)
    fault_iff := by simp only [hfault, hinv.fault_iff, hlog, List.mem_append, or_and_right, exists_or]
    fcache_valid := fun r raw hx => by
      rw [h.config]
      rcases h.fcache r raw hx with hold | hnew
      · exact hinv.fcache_valid r raw hold
      · have hrange := (hzOutOfRange_iff raw s.config.fmclk).not.1 (by simp [hnew])
        omega }

theorem Inv.of_stepTo (hinv : Inv s) (h : StepTo s t) : Inv t := by
  rcases h.reset_or_effect with ⟨-, v, hv, rfl⟩ | ⟨ws, heffect⟩
  · exact inv_resetBlock (hv ▸ hinv.config_wf)
  · exact hinv.of_effect heffect

/-- No state that meets the invariant holds a word at which the step stops (R85, log entry 8). -/
theorem Inv.exists_step (hinv : Inv s) : ∃ t, step s = .next t ∧ StepTo s t := by
  rcases step_cases s with hnext | ⟨-, -, vs, k, w, hs, hw, hn⟩
  · exact hnext
  · simp [hinv.seq_emitted vs k w hs (List.mem_of_getElem? hw)] at hn

/-- Settles O51: the effect of a step keeps each clause of the invariant, and a reset restores it. -/
theorem stepKeepsInvariantAndNeverStops : Obligations.StepKeepsInvariantAndNeverStops := by
  intro s hinv
  obtain ⟨t, hstep, hto⟩ := hinv.exists_step
  exact ⟨t, hstep, hinv.of_stepTo hto⟩

/-- Settles O46: a step that leaves a position found one. -/
theorem positionEndsWithCommand : Obligations.PositionEndsWithCommand := by
  intro s t hidle hstep
  rcases (stepTo_of_step hstep).reset_or_effect with ⟨-, v, -, rfl⟩ | ⟨ws, heffect⟩
  · rfl
  · cases ht : t.seq with
    | idle => rfl
    | sending vs k =>
      obtain ⟨⟨j, hs⟩, -⟩ := heffect.sending ht
      simp [hidle] at hs

/-- Settles O48: a step that no reset ends records its transactions. -/
theorem faultRecordsFailedTransactions : Obligations.FaultRecordsFailedTransactions := by
  intro s t hlow hstep
  rcases (stepTo_of_step hstep).reset_or_effect with ⟨hhigh, -⟩ | ⟨ws, heffect⟩
  · exact absurd hlow hhigh
  · obtain ⟨es, hlog, hlen, -, hfault⟩ := heffect.records
    exact ⟨es, hlog, hlen.trans heffect.length_le, hfault⟩

/-! ## The reset values -/

/-- Of the reset value of `CTRL`, B28 and RESET are set (R46). -/
theorem ctrlGet_resetValue (f : CtrlField) : ctrlGet 0x2100#16 f = true ↔ f = .b28 ∨ f = .reset := by
  cases f <;> decide

theorem writeModeOf_resetValue : writeModeOf 0x2100#16 = .both := by decide

/-- Settles O1: the step samples the line first, and what it leaves is `resetBlock`. -/
theorem assertedResetGivesResetValues : Obligations.AssertedResetGivesResetValues := by
  intro s rest hline
  have hasserted : s.resetAsserted = true := by simp [State.resetAsserted, hline]
  exact ⟨_, step_of_resetAsserted hasserted, rfl, ctrlGet_resetValue, rfl, rfl, rfl, rfl, rfl, rfl, rfl, rfl,
    writeModeOf_resetValue, rfl, by simp [hline]⟩

/-- Settles O2: the state the machine starts from is a reset of itself. -/
theorem resetStateHasResetValues : Obligations.ResetStateHasResetValues := by
  refine ⟨?_, fun _ => rfl, rfl⟩
  intro t ht
  obtain ⟨s, rfl⟩ : ∃ s : State, t = s.resetBlock := ht.elim (fun h => ⟨State.reset, h⟩) id
  exact ⟨rfl, rfl, rfl, rfl, rfl, rfl, writeModeOf_resetValue, rfl⟩

/-- Settles O50: nothing is pending and nothing is known of the target. -/
theorem resetStateMeetsInvariant : Obligations.ResetStateMeetsInvariant :=
  ⟨inv_resetBlock (s := State.reset) (by decide), fun _ hw => absurd hw List.not_mem_nil, fun _ _ hc => nomatch hc⟩

/-! ## The word at the sequencer's position -/

theorem popReset_eq_drop (s : State) : s.popReset = { s with resetLine := s.resetLine.drop 1 } := by
  rw [State.popReset, List.drop_one]

theorem fetch_of_sending {vs : List U16} {k : Nat} {w : U16} (hr : s.resetAsserted = false)
    (hs : s.seq = .sending vs k) (hw : vs[k]? = some w) (hd : decodeEmitted w = .ok i) :
    fetch s = .instruction i s.popReset := by
  simp [fetch, fetchWord, hr, hs, hw, hd]

/-- Settles O42: the fetch finds the word's instruction. -/
theorem stepRunsWordAtPosition : Obligations.StepRunsWordAtPosition := by
  intro s ws k w i hlow hs hw hd
  rw [step, fetch_of_sending hlow.resetAsserted hs hw hd, popReset_eq_drop]

end Sys2Proof.Machine
end

section
/-! SUPPORT. The projections of `CTRL` (R32, R36) against the tables of the Encoder (R131, R132). -/

namespace Sys2Proof.Machine

/-- The mask of one bit finds that bit. -/
theorem and_twoPow_ne_zero_iff (c : U16) {n : Nat} (hn : n < 16) :
    c &&& BitVec.twoPow 16 n ≠ 0#16 ↔ c.getLsbD n = true := by
  have hne : BitVec.twoPow 16 n ≠ 0#16 := by
    intro h
    simpa [hn] using congrArg (·.getLsbD n) h
  cases hc : c.getLsbD n <;> simp [BitVec.and_twoPow, hc, hne]

/-- The write mode by the masks of B28 and HLB (R32). -/
theorem writeModeOf_eq_masks (c : U16) : writeModeOf c =
    if c &&& 0x2000#16 ≠ 0#16 then WriteMode.both
    else if c &&& 0x1000#16 ≠ 0#16 then .mostSignificantOnly else .leastSignificantOnly := by
  have hb28 : c &&& 0x2000#16 ≠ 0#16 ↔ c.getLsbD 13 = true := and_twoPow_ne_zero_iff c (n := 13) (by decide)
  have hhlb : c &&& 0x1000#16 ≠ 0#16 ↔ c.getLsbD 12 = true := and_twoPow_ne_zero_iff c (n := 12) (by decide)
  exact (if_congr hb28 rfl (if_congr hhlb rfl rfl)).symm

/-- Merging a mode's bits over B28 and HLB gives that mode (R131). -/
theorem writeModeOf_mergeFields_writeModeVal (c : U16) (m : WriteMode) :
    writeModeOf (mergeFields c 0x3000#16 (writeModeVal m)) = m := by
  have hbit : ∀ n < 16, (0x3000#16).getLsbD n = true →
      (mergeFields c 0x3000#16 (writeModeVal m)).getLsbD n = (writeModeVal m).getLsbD n := by
    intro n hn hmask
    simp only [mergeFields_getLsbD _ _ _ n hn, hmask, Bool.not_true, Bool.and_false, Bool.false_or]
  simp only [writeModeOf, ctrlGet, CtrlField.bit, hbit 13 (by decide) (by decide), hbit 12 (by decide) (by decide)]
  cases m <;> decide

/-- Settles O13: the masks of R32, the table of R131, and the merge that inverts the projection. -/
theorem writeModeBitsInvertProjection : Obligations.WriteModeBitsInvertProjection :=
  ⟨writeModeOf_eq_masks, rfl, rfl, rfl, by decide, by decide, by decide, writeModeOf_mergeFields_writeModeVal⟩

/-- The output modes in the order in which the projection tries their rows. -/
def outputModesTried : List OutputMode := [.reset, .off, .sine, .triangle, .square, .squareDivTwo]

theorem mem_outputModesTried (m : OutputMode) : m ∈ outputModesTried := by
  cases m <;> decide

theorem outputModeOf_eq_find? (cfg : Config) (c : U16) :
    outputModeOf cfg c = outputModesTried.find? fun m => outputModeBits cfg m == c &&& omMask := rfl

/-- Where the rows differ, the projection names exactly the mode of the row (R36). -/
theorem outputModeOf_eq_some_iff {cfg : Config} (hrows : (outputModesTried.map (outputModeBits cfg)).Nodup) (c : U16)
    (m : OutputMode) : outputModeOf cfg c = some m ↔ c &&& omMask = outputModeBits cfg m := by
  rw [outputModeOf_eq_find?]
  constructor
  · intro hfound
    have hrow := List.find?_some hfound
    exact (eq_of_beq hrow).symm
  · intro hrow
    cases hfound : outputModesTried.find? fun m => outputModeBits cfg m == c &&& omMask with
    | none =>
      have hno := List.find?_eq_none.1 hfound m (mem_outputModesTried m)
      simp [hrow] at hno
    | some m' =>
      have hrow' := List.find?_some hfound
      have hsame : outputModeBits cfg m' = outputModeBits cfg m := (eq_of_beq hrow').trans hrow
      rw [List.inj_on_of_nodup_map hrows (mem_outputModesTried m') (mem_outputModesTried m) hsame]

/-- Settles O14: the six rows of R132 differ. -/
theorem outputModeProjectionIsPartial : Obligations.OutputModeProjectionIsPartial :=
  outputModeOf_eq_some_iff (by decide)

end Sys2Proof.Machine
end

section
/-! SUPPORT. The transmit phase does not read `CTRL`: from two states that differ in it only, it leaves two states that
differ in it only (R24, R25, R34, R35). -/

namespace Sys2Proof.Machine

variable {s u : State}

/-- `u` is `s` but for `CTRL`. -/
def SameButCtrl (s u : State) : Prop := ∃ c, u = { s with ctrl := c }

theorem SameButCtrl.refl (s : State) : SameButCtrl s s := ⟨s.ctrl, rfl⟩

theorem SameButCtrl.seq (h : SameButCtrl s u) : u.seq = s.seq := by
  obtain ⟨c, rfl⟩ := h
  rfl

theorem SameButCtrl.resetAsserted (h : SameButCtrl s u) : u.resetAsserted = s.resetAsserted := by
  obtain ⟨c, rfl⟩ := h
  rfl

theorem SameButCtrl.nextAnswer (h : SameButCtrl s u) : u.nextAnswer = s.nextAnswer := by
  obtain ⟨c, rfl⟩ := h
  rfl

/-- An update that neither reads nor writes `CTRL` keeps the relation. -/
theorem SameButCtrl.map {f : State → State}
    (hf : ∀ (s : State) (c : U16), f { s with ctrl := c } = { f s with ctrl := c }) (h : SameButCtrl s u) :
    SameButCtrl (f s) (f u) := by
  obtain ⟨c, rfl⟩ := h
  exact ⟨c, hf s c⟩

theorem SameButCtrl.popReset (h : SameButCtrl s u) : SameButCtrl s.popReset u.popReset :=
  h.map fun _ _ => rfl

theorem SameButCtrl.transact (w : U16) (h : SameButCtrl s u) : SameButCtrl (s.transact w) (u.transact w) :=
  h.map (f := State.transact w) fun _ _ => rfl

theorem SameButCtrl.setFault (h : SameButCtrl s u) : SameButCtrl s.setFault u.setFault :=
  h.map fun _ _ => rfl

theorem SameButCtrl.withSeq (p : SeqPos) (h : SameButCtrl s u) : SameButCtrl (s.withSeq p) (u.withSeq p) :=
  h.map (f := State.withSeq p) fun _ _ => rfl

theorem SameButCtrl.endCommand (st : Status) (h : SameButCtrl s u) : SameButCtrl (s.endCommand st) (u.endCommand st) :=
  h.map (f := State.endCommand st) fun _ _ => rfl

theorem SameButCtrl.resetBlock (h : SameButCtrl s u) : SameButCtrl s.resetBlock u.resetBlock := by
  obtain ⟨c, rfl⟩ := h
  exact .refl s.resetBlock

theorem SameButCtrl.advance (h : SameButCtrl s u) : SameButCtrl (advance s) (advance u) := by
  unfold Machine.advance
  rw [h.seq]
  rcases s.seq with _ | ⟨vs, k⟩
  · exact h
  · by_cases hk : k + 1 < vs.length
    · simpa only [hk, if_true] using h.withSeq (.sending vs (k + 1))
    · simpa only [hk, if_false] using h.endCommand .ok

theorem SameButCtrl.raiseTransportError (h : SameButCtrl s u) :
    SameButCtrl (raiseTransportError s) (raiseTransportError u) := by
  unfold Machine.raiseTransportError
  rw [h.seq]
  cases s.seq with
  | idle => exact h.setFault
  | sending vs k => exact h.setFault.endCommand .transportError

theorem SameButCtrl.transmitWord (w : U16) (h : SameButCtrl s u) : SameButCtrl (transmitWord w s) (transmitWord w u) := by
  unfold Machine.transmitWord
  rw [h.nextAnswer]
  cases s.nextAnswer with
  | ok => exact (h.transact w).advance
  | err => exact (h.transact w).raiseTransportError

theorem SameButCtrl.sendNext (h : SameButCtrl s u) : SameButCtrl (sendNext s) (sendNext u) := by
  unfold Machine.sendNext
  rw [h.seq]
  rcases s.seq with _ | ⟨vs, k⟩
  · exact h
  · cases hw : vs[k]? with
    | none => simpa only [hw] using h.endCommand .ok
    | some w => simpa only [hw] using h.transmitWord w

theorem SameButCtrl.sendNextUnlessReset (h : SameButCtrl s u) :
    SameButCtrl (sendNextUnlessReset s) (sendNextUnlessReset u) := by
  unfold Machine.sendNextUnlessReset
  rw [h.resetAsserted]
  cases s.resetAsserted with
  | true => exact h.popReset.resetBlock
  | false => exact h.popReset.sendNext

theorem SameButCtrl.drain (n : Nat) (h : SameButCtrl s u) : SameButCtrl (drain n s) (drain n u) := by
  induction n generalizing s u with
  | zero => exact h
  | succ n ih =>
    unfold Machine.drain
    rw [h.seq]
    cases s.seq with
    | idle => exact h
    | sending vs k => exact ih h.sendNextUnlessReset

theorem SameButCtrl.transmitPhase (h : SameButCtrl s u) : SameButCtrl (transmitPhase s) (transmitPhase u) := by
  unfold Machine.transmitPhase
  rw [h.seq]
  cases s.seq with
  | idle => exact h
  | sending vs k => exact h.drain (vs.length - k)

/-- The write mode depends on bits of `CTRL` other than FSELECT and PSELECT only (R32). -/
theorem writeModeOf_congr_selects {c d : U16} (h : c &&& ~~~0x0C00#16 = d &&& ~~~0x0C00#16) :
    writeModeOf c = writeModeOf d := by
  have hb28 : ctrlGet c .b28 = ctrlGet d .b28 := by simpa [ctrlGet, CtrlField.bit] using congrArg (·.getLsbD 13) h
  have hhlb : ctrlGet c .hlb = ctrlGet d .hlb := by simpa [ctrlGet, CtrlField.bit] using congrArg (·.getLsbD 12) h
  rw [writeModeOf, writeModeOf, hb28, hhlb]

theorem sameButCtrl_beginSetfreq (reg : U8) (raw : Raw48) (s : State) {c : U16} (h : writeModeOf c = writeModeOf s.ctrl) :
    SameButCtrl (beginSetfreq reg raw s) (beginSetfreq reg raw { s with ctrl := c }) := by
  refine ⟨c, ?_⟩
  unfold beginSetfreq
  cases regSelect reg with
  | none => rfl
  | some r =>
    cases hzOutOfRange (hzOperand raw) s.config.fmclk with
    | true => rfl
    | false => simp only [h]; rfl

theorem sameButCtrl_beginSetphase (reg : U8) (unit : AngleUnit) (raw : Raw48) (s : State) (c : U16) :
    SameButCtrl (beginSetphase reg unit raw s) (beginSetphase reg unit raw { s with ctrl := c }) := by
  refine ⟨c, ?_⟩
  unfold beginSetphase
  cases regSelect reg <;> rfl

/-- Settles O39: both runs begin alike, and the transmit phase does not read `CTRL`. -/
theorem selectsDoNotSteerWrites : Obligations.SelectsDoNotSteerWrites := by
  constructor
  · rintro reg raw s t u c hc ⟨⟩ ⟨⟩
    obtain ⟨d, hd⟩ := (sameButCtrl_beginSetfreq reg raw s (writeModeOf_congr_selects hc)).transmitPhase
    rw [hd]
    exact ⟨rfl, rfl, rfl⟩
  · rintro reg unit raw s t u c ⟨⟩ ⟨⟩
    obtain ⟨d, hd⟩ := (sameButCtrl_beginSetphase reg unit raw s c).transmitPhase
    rw [hd]
    exact ⟨rfl, rfl, rfl⟩

end Sys2Proof.Machine
end

section
/-! SUPPORT. The memory of 20_memory.md: an emitted word as one transaction, its bytes on the bus, the register it
addresses, and a Both-mode pair as the target takes it. -/

namespace Sys2Proof.Machine

/-! ## An emitted word is one transaction -/

/-- The meaning of an instruction that a 16-bit word encodes is the transmission of that word (R81 to R84). -/
theorem exec_of_encode_emitted {i : Instr} {w : U16} (h : encode i = .emitted w) (s : State) :
    exec i s = .next (transmitWord w s) := by
  cases i <;> cases h <;> rfl

section
variable {s : State} {ws : List U16} {k : Nat}

/-- A word answered Ok that is not the last moves the sequencer to the next one (R150). -/
theorem transmitWord_ok_more (w : U16) (hs : s.seq = .sending ws k) (ha : s.nextAnswer = .ok) (hk : k + 1 < ws.length) :
    transmitWord w s = (s.transact w).withSeq (.sending ws (k + 1)) := by
  simp only [transmitWord_eq, hs, ha, hk, if_true]

/-- The last word answered Ok completes the command (R150). -/
theorem transmitWord_ok_last (w : U16) (hs : s.seq = .sending ws k) (ha : s.nextAnswer = .ok) (hk : ws.length ≤ k + 1) :
    transmitWord w s = (s.transact w).endCommand .ok := by
  simp only [transmitWord_eq, hs, ha, hk.not_gt, if_false]

/-- A word answered Err ends the command, whatever its position (R197). -/
theorem transmitWord_err (w : U16) (hs : s.seq = .sending ws k) (ha : s.nextAnswer = .err) :
    transmitWord w s = (s.transact w).setFault.endCommand .transportError := by
  simp only [transmitWord_eq, hs, ha]

/-- A word that belongs to no command is the transaction alone (log entry 6). -/
theorem transmitWord_idle (w : U16) (hs : s.seq = .idle) :
    transmitWord w s = { s.transact w with fault := s.fault || (s.nextAnswer == .err) } := by
  simp only [transmitWord_eq, hs]

end

/-- Settles O29: each clause is one case of a round of the transmit phase. -/
theorem emittedWordIsOneTransaction : Obligations.EmittedWordIsOneTransaction := by
  intro i w s hi
  rw [exec_of_encode_emitted hi, List.drop_one]
  refine ⟨fun ws k hs ha hk => ?_, fun ws k hs ha hk => ?_, fun ws k hs ha => ?_, fun hs => ?_⟩
  · rw [transmitWord_ok_more w hs ha hk]; rfl
  · rw [transmitWord_ok_last w hs ha hk]; rfl
  · rw [transmitWord_err w hs ha]; rfl
  · rw [transmitWord_idle w hs]; rfl

/-! ## A transaction on the bus -/

theorem busTrace_append (log es : List TxEntry) : busTrace (log ++ es) = busTrace log ++ busTrace es :=
  List.flatMap_append

/-- The two bytes of a word as numbers, the high one first (R53). -/
theorem payload_eq_div_mod (w : U16) :
    payload w = [BitVec.ofNat 8 (w.toNat / 256), BitVec.ofNat 8 (w.toNat % 256)] := by
  have hhigh : w.extractLsb' 8 8 = BitVec.ofNat 8 (w.toNat / 256) :=
    BitVec.eq_of_toNat_eq (by simp [Nat.shiftRight_eq_div_pow])
  have hlow : w.extractLsb' 0 8 = BitVec.ofNat 8 (w.toNat % 256) :=
    BitVec.eq_of_toNat_eq (by simp)
  rw [payload, hhigh, hlow]

theorem length_wireBits (w : U16) : (wireBits w).length = 16 := by simp [wireBits]

theorem getElem?_wireBits (w : U16) {k : Nat} (hk : k < 16) : (wireBits w)[k]? = some (w.getLsbD (15 - k)) := by
  simp [wireBits, hk]

/-- Settles O53: the history's bus trace is appended to, and the payload is the two bytes. -/
theorem transactionOnTheBus : Obligations.TransactionOnTheBus := by
  constructor
  · intro log e
    rw [busTrace_append]
    simp [busTrace, TxEntry.bus, payload_eq_div_mod]
  · exact fun w => ⟨length_wireBits w, fun _ hk => getElem?_wireBits w hk⟩

/-! ## The map of the target register space -/

theorem tagField_toNat (w : U16) : (tagField w).toNat = w.toNat / 2 ^ 14 := by
  have hw := w.isLt
  rw [tagField, BitVec.extractLsb'_toNat, Nat.shiftRight_eq_div_pow]
  omega

/-- Settles O54: the tag is the quarter of the space that the word lies in, and bit 13 halves the last quarter. -/
theorem targetRegisterMap : Obligations.TargetRegisterMap := by
  intro w
  have hw := w.isLt
  have hbit : w.getLsbD 13 = decide (w.toNat / 2 ^ 13 % 2 = 1) := Nat.testBit_eq_decide_div_mod_eq
  rw [targetReg, tagField_toNat, hbit]
  split
  case h_1 htag => rw [if_pos (by omega)]
  case h_2 htag => rw [if_neg (by omega), if_pos (by omega)]
  case h_3 htag => rw [if_neg (by omega), if_neg (by omega), if_pos (by omega)]
  case h_4 h0 h1 h2 =>
    have hlast : 3 * 2 ^ 14 ≤ w.toNat := by
      simp only [imp_false] at h0 h1 h2
      omega
    have hhalf : w.toNat < 3 * 2 ^ 14 + 2 ^ 13 ↔ ¬ w.toNat / 2 ^ 13 % 2 = 1 := by omega
    rw [if_neg (show ¬ w.toNat < 2 ^ 14 by omega), if_neg (show ¬ w.toNat < 2 * 2 ^ 14 by omega), if_neg hlast.not_gt]
    simp only [hhalf, ite_not, decide_eq_true_eq]

/-! ## A Both-mode pair -/

namespace TargetView

/-- In Both mode, outside a pair, two frequency words for one register load it: the first is the low half, the second
the high half, and the next word starts a pair again (R65 (a)). -/
theorem receiveFreq_pair {v : TargetView} {c : U16} (hcontrol : v.control = some c) (hboth : writeModeOf c = .both)
    (hready : v.pairing = .ready) (r : Reg) (lo hi : U14) :
    (v.receiveFreq r lo).receiveFreq r hi =
      { v with freqHi := v.freqHi.set r (some hi), freqLo := v.freqLo.set r (some lo), pairing := .ready } := by
  have hfirst : v.receiveFreq r lo = { v with pairing := .lowHeld r lo } := by
    simp [receiveFreq, receivePairHalf, hcontrol, hboth, hready]
  rw [hfirst]
  simp [receiveFreq, receivePairHalf, hcontrol, hboth]

/-- A register whose two halves are known holds the tuning word they make up. -/
theorem freqWord_eq_some {v : TargetView} {r : Reg} {hi lo : U14} (hhi : v.freqHi.get r = some hi)
    (hlo : v.freqLo.get r = some lo) : v.freqWord r = some (hi ++ lo) := by
  simp [freqWord, hhi, hlo]

end TargetView

/-- Settles O57: the control word makes the pairing known, and the pair then loads both halves. -/
theorem pairAfterControlWordLoadsRegister : Obligations.PairAfterControlWordLoadsRegister := by
  intro log c W r _ hc hboth houtside
  simp only [splitFrequencyWord, targetView_append, List.foldl_cons, List.foldl_nil, TargetView.see_control hc,
    TargetView.see_freq, TargetView.receiveControl_outside_pair c houtside]
  rw [TargetView.receiveFreq_pair rfl hboth rfl,
    TargetView.freqWord_eq_some (Pair.get_set _ r _) (Pair.get_set _ r _), msb14_append_lsb14]

end Sys2Proof.Machine
end

section
/-! SUPPORT. The encodings of 30_encoding.md: a word is the concatenation of its fields, so that each format's decoder
and the encoder are inverse to one another; the words of R84 and R85. -/

namespace Sys2Proof.Machine

/-- A field of a field. -/
theorem extractLsb'_extractLsb' {w : Nat} (c : BitVec w) {lo k start len : Nat} (h : start + len ≤ k) :
    (c.extractLsb' lo k).extractLsb' start len = c.extractLsb' (lo + start) len := by
  refine BitVec.eq_of_getLsbD_eq fun i hi => ?_
  simp [hi, show start + i < k by omega, Nat.add_assoc]

/-- A concatenation is the word whose fields its parts are. -/
theorem append_eq_iff {m n : Nat} (x : BitVec m) (y : BitVec n) (c : BitVec (m + n)) :
    x ++ y = c ↔ c.extractLsb' n m = x ∧ c.extractLsb' 0 n = y := by
  constructor
  · rintro rfl
    exact ⟨BitVec.extractLsb'_append_eq_left, BitVec.extractLsb'_append_eq_right⟩
  · rintro ⟨rfl, rfl⟩
    exact BitVec.extractLsb'_append_extractLsb'

theorem append₃_eq_iff {l m n : Nat} (x : BitVec l) (y : BitVec m) (z : BitVec n) (c : BitVec (l + m + n)) :
    x ++ y ++ z = c ↔ c.extractLsb' (n + m) l = x ∧ c.extractLsb' n m = y ∧ c.extractLsb' 0 n = z := by
  rw [append_eq_iff, eq_comm, append_eq_iff, extractLsb'_extractLsb' c (by omega),
    extractLsb'_extractLsb' c (by omega), Nat.add_zero, and_assoc]

theorem append₄_eq_iff {k l m n : Nat} (x : BitVec k) (y : BitVec l) (z : BitVec m) (t : BitVec n)
    (c : BitVec (k + l + m + n)) : x ++ y ++ z ++ t = c ↔
      c.extractLsb' (n + (m + l)) k = x ∧ c.extractLsb' (n + m) l = y ∧ c.extractLsb' n m = z ∧
        c.extractLsb' 0 n = t := by
  rw [append_eq_iff, eq_comm, append₃_eq_iff, extractLsb'_extractLsb' c (by omega),
    extractLsb'_extractLsb' c (by omega), extractLsb'_extractLsb' c (by omega), Nat.add_zero]
  simp only [and_assoc]

theorem setctlWord_eq_iff (mask val : U16) (c : CommandWord) : 1#4 ++ 0#28 ++ mask ++ val = c ↔
    opField c = 1#4 ∧ c.extractLsb' 32 28 = 0#28 ∧ maskField c = mask ∧ valField c = val :=
  append₄_eq_iff 1#4 0#28 mask val c

theorem setfreqWord_eq_iff (reg : U8) (hz : Raw48) (c : CommandWord) : 2#4 ++ reg ++ 0#4 ++ hz = c ↔
    opField c = 2#4 ∧ regField c = reg ∧ c.extractLsb' 48 4 = 0#4 ∧ rawField c = hz :=
  append₄_eq_iff 2#4 reg 0#4 hz c

theorem extractLsb'_one_eq_ofBool {w : Nat} (c : BitVec w) (i : Nat) :
    c.extractLsb' i 1 = BitVec.ofBool (c.getLsbD i) :=
  BitVec.eq_of_getLsbD_eq fun j hj => by simp [show j = 0 by omega]

theorem unitField_eq_iff (c : CommandWord) (unit : AngleUnit) :
    c.extractLsb' 51 1 = unit.code ↔ unitField c = unit := by
  rw [extractLsb'_one_eq_ofBool, unitField]
  cases c.getLsbD 51 <;> cases unit <;> decide

theorem setphaseWord_eq_iff (reg : U8) (unit : AngleUnit) (ang : Raw48) (c : CommandWord) :
    3#4 ++ reg ++ unit.code ++ 0#3 ++ ang = c ↔
      opField c = 3#4 ∧ regField c = reg ∧ unitField c = unit ∧ c.extractLsb' 48 3 = 0#3 ∧ rawField c = ang := by
  have hhigh : 3#4 ++ reg ++ unit.code = c.extractLsb' 51 13 ↔
      opField c = 3#4 ∧ regField c = reg ∧ c.extractLsb' 51 1 = unit.code := by
    refine (append₃_eq_iff 3#4 reg unit.code (c.extractLsb' 51 13)).trans ?_
    rw [extractLsb'_extractLsb' c (by decide), extractLsb'_extractLsb' c (by decide),
      extractLsb'_extractLsb' c (by decide)]
    rfl
  refine (append₃_eq_iff (3#4 ++ reg ++ unit.code) 0#3 ang c).trans ?_
  rw [eq_comm, ← unitField_eq_iff]
  refine (and_congr_left' hhigh).trans ?_
  simp only [and_assoc]
  rfl

theorem setwmodeWord_eq_iff (mode : WriteMode) (c : CommandWord) : 4#4 ++ 0#58 ++ mode.code = c ↔
    opField c = 4#4 ∧ c.extractLsb' 2 58 = 0#58 ∧ c.extractLsb' 0 2 = mode.code :=
  append₃_eq_iff 4#4 0#58 mode.code c

theorem setomodeWord_eq_iff (mode : OutputMode) (c : CommandWord) : 5#4 ++ 0#57 ++ mode.code = c ↔
    opField c = 5#4 ∧ c.extractLsb' 3 57 = 0#57 ∧ c.extractLsb' 0 3 = mode.code :=
  append₃_eq_iff 5#4 0#57 mode.code c

theorem selregWord_eq_iff (fsel psel : U8) (c : CommandWord) : 6#4 ++ 0#44 ++ fsel ++ psel = c ↔
    opField c = 6#4 ∧ c.extractLsb' 16 44 = 0#44 ∧ fselField c = fsel ∧ pselField c = psel :=
  append₄_eq_iff 6#4 0#44 fsel psel c

theorem freqWord_eq_iff (r : Reg) (half : U14) (w : U16) :
    freqWord r half = w ↔ tagField w = freqTag r ∧ w.extractLsb' 0 14 = half :=
  append_eq_iff (freqTag r) half w

theorem phaseWord_eq_iff (r : Reg) (phase : U12) (w : U16) : phaseWord r phase = w ↔
    tagField w = 3#2 ∧ w.getLsbD 13 = regBit r ∧ w.getLsbD 12 = false ∧ w.extractLsb' 0 12 = phase := by
  have hbit : ∀ (i : Nat) (b : Bool), w.extractLsb' i 1 = BitVec.ofBool b ↔ w.getLsbD i = b := fun i b => by
    rw [extractLsb'_one_eq_ofBool, BitVec.ofBool_eq_iff_eq]
  rw [← hbit, ← hbit]
  exact append₄_eq_iff 3#2 (BitVec.ofBool (regBit r)) 0#1 phase w

/-! ## The codes of the modes -/

theorem writeModeOfCode_eq_some_iff (wm : BitVec 2) (m : WriteMode) : writeModeOfCode wm = some m ↔ wm = m.code := by
  revert wm
  cases m <;> decide

theorem outputModeOfCode_eq_some_iff (om : BitVec 3) (m : OutputMode) : outputModeOfCode om = some m ↔ om = m.code := by
  revert om
  cases m <;> decide

/-! ## Decoding, format by format -/

theorem wellFormed_setctl_iff (mask val : U16) :
    WellFormed (.setctl mask val) ↔ mask &&& ctrlRsvd = 0#16 ∧ val &&& ~~~mask = 0#16 := by
  simp only [WellFormed, Instr.wf, maskLegal, valLegal, Bool.and_eq_true, beq_iff_eq]

theorem decodeSetctl_eq_ok_iff {c : CommandWord} {i : Instr} : decodeSetctl c = .ok i ↔
    c.extractLsb' 32 28 = 0#28 ∧ WellFormed (.setctl (maskField c) (valField c)) ∧
      .setctl (maskField c) (valField c) = i := by
  have hwf : WellFormed (.setctl (maskField c) (valField c)) ↔
    (maskLegal (maskField c) && valLegal (maskField c) (valField c)) = true := Iff.rfl
  rw [hwf]
  unfold decodeSetctl
  by_cases hzero : c.extractLsb' 32 28 = 0#28 <;>
    by_cases hlegal : (maskLegal (maskField c) && valLegal (maskField c) (valField c)) = true <;> simp [hzero, hlegal]

theorem decodeSetfreq_eq_ok_iff {c : CommandWord} {i : Instr} : decodeSetfreq c = .ok i ↔
    c.extractLsb' 48 4 = 0#4 ∧ .setfreq (regField c) (rawField c) = i := by
  by_cases hzero : c.extractLsb' 48 4 = 0#4 <;> simp [decodeSetfreq, hzero]

theorem decodeSetphase_eq_ok_iff {c : CommandWord} {i : Instr} : decodeSetphase c = .ok i ↔
    c.extractLsb' 48 3 = 0#3 ∧ .setphase (regField c) (unitField c) (rawField c) = i := by
  by_cases hzero : c.extractLsb' 48 3 = 0#3 <;> simp [decodeSetphase, hzero]

theorem decodeSetwmode_eq_ok_iff {c : CommandWord} {i : Instr} : decodeSetwmode c = .ok i ↔
    c.extractLsb' 2 58 = 0#58 ∧ ∃ m, writeModeOfCode (c.extractLsb' 0 2) = some m ∧ .setwmode m = i := by
  by_cases hzero : c.extractLsb' 2 58 = 0#58 <;> cases hm : writeModeOfCode (c.extractLsb' 0 2) <;>
    simp [decodeSetwmode, hzero, hm]

theorem decodeSetomode_eq_ok_iff {c : CommandWord} {i : Instr} : decodeSetomode c = .ok i ↔
    c.extractLsb' 3 57 = 0#57 ∧ ∃ m, outputModeOfCode (c.extractLsb' 0 3) = some m ∧ .setomode m = i := by
  by_cases hzero : c.extractLsb' 3 57 = 0#57 <;> cases hm : outputModeOfCode (c.extractLsb' 0 3) <;>
    simp [decodeSetomode, hzero, hm]

theorem decodeSelreg_eq_ok_iff {c : CommandWord} {i : Instr} : decodeSelreg c = .ok i ↔
    c.extractLsb' 16 44 = 0#44 ∧ .selreg (fselField c) (pselField c) = i := by
  by_cases hzero : c.extractLsb' 16 44 = 0#44 <;> simp [decodeSelreg, hzero]

/-! ## Decoding inverts encoding -/

/-- A command word that decodes is the word of the instruction it decodes to (R86 to R93, D26). -/
theorem encode_of_decodeCommand {c : CommandWord} {i : Instr} (h : decodeCommand c = .ok i) :
    WellFormed i ∧ encode i = .command c := by
  have hop : ∀ {k : BitVec 4}, (opField c).toNat = k.toNat → opField c = k := BitVec.eq_of_toNat_eq
  unfold decodeCommand at h
  split at h
  case h_1 h1 =>
    obtain ⟨hzero, hwf, rfl⟩ := decodeSetctl_eq_ok_iff.1 h
    exact ⟨hwf, congrArg EncodedWord.command ((setctlWord_eq_iff _ _ c).2 ⟨hop h1, hzero, rfl, rfl⟩)⟩
  case h_2 h2 =>
    obtain ⟨hzero, rfl⟩ := decodeSetfreq_eq_ok_iff.1 h
    exact ⟨rfl, congrArg EncodedWord.command ((setfreqWord_eq_iff _ _ c).2 ⟨hop h2, rfl, hzero, rfl⟩)⟩
  case h_3 h3 =>
    obtain ⟨hzero, rfl⟩ := decodeSetphase_eq_ok_iff.1 h
    exact ⟨rfl, congrArg EncodedWord.command ((setphaseWord_eq_iff _ _ _ c).2 ⟨hop h3, rfl, rfl, hzero, rfl⟩)⟩
  case h_4 h4 =>
    obtain ⟨hzero, m, hm, rfl⟩ := decodeSetwmode_eq_ok_iff.1 h
    have hcode := (writeModeOfCode_eq_some_iff _ m).1 hm
    exact ⟨rfl, congrArg EncodedWord.command ((setwmodeWord_eq_iff m c).2 ⟨hop h4, hzero, hcode⟩)⟩
  case h_5 h5 =>
    obtain ⟨hzero, m, hm, rfl⟩ := decodeSetomode_eq_ok_iff.1 h
    have hcode := (outputModeOfCode_eq_some_iff _ m).1 hm
    exact ⟨rfl, congrArg EncodedWord.command ((setomodeWord_eq_iff m c).2 ⟨hop h5, hzero, hcode⟩)⟩
  case h_6 h6 =>
    obtain ⟨hzero, rfl⟩ := decodeSelreg_eq_ok_iff.1 h
    exact ⟨rfl, congrArg EncodedWord.command ((selregWord_eq_iff _ _ c).2 ⟨hop h6, hzero, rfl, rfl⟩)⟩
  case h_7 => cases h

/-- A 16-bit word that decodes is the word of the instruction it decodes to (R81 to R84). -/
theorem encode_of_decodeEmitted {w : U16} {i : Instr} (h : decodeEmitted w = .ok i) :
    WellFormed i ∧ encode i = .emitted w := by
  unfold decodeEmitted at h
  rcases tagField_cases w with htag | htag | htag | htag <;> simp only [htag] at h
  · by_cases hlegal : controlWordLegal w = true <;> simp [hlegal] at h
    subst h
    exact ⟨hlegal, rfl⟩
  · cases h
    exact ⟨rfl, congrArg EncodedWord.emitted ((freqWord_eq_iff .r0 _ w).2 ⟨htag, rfl⟩)⟩
  · cases h
    exact ⟨rfl, congrArg EncodedWord.emitted ((freqWord_eq_iff .r1 _ w).2 ⟨htag, rfl⟩)⟩
  · cases h12 : w.getLsbD 12 <;> cases h13 : w.getLsbD 13 <;> simp only [h12, h13] at h <;> cases h
    · exact ⟨rfl, congrArg EncodedWord.emitted ((phaseWord_eq_iff .r0 _ w).2 ⟨htag, h13, h12, rfl⟩)⟩
    · exact ⟨rfl, congrArg EncodedWord.emitted ((phaseWord_eq_iff .r1 _ w).2 ⟨htag, h13, h12, rfl⟩)⟩

/-- Settles O19: the fields of the word are the operands, and the checks that passed give the other bits. -/
theorem encodeOfDecode : Obligations.EncodeOfDecode := by
  intro w i h
  cases w with
  | command c => exact encode_of_decodeCommand h
  | emitted w => exact encode_of_decodeEmitted h

/-- The word of a command decodes to that command (R86 to R93). -/
theorem decodeCommand_of_encode {c : CommandWord} {i : Instr} (hwf : WellFormed i) (h : encode i = .command c) :
    decodeCommand c = .ok i := by
  cases i with
  | setctl mask val =>
    obtain ⟨hop, hzero, rfl, rfl⟩ := (setctlWord_eq_iff mask val c).1 (EncodedWord.command.inj h)
    simpa [decodeCommand, hop] using decodeSetctl_eq_ok_iff.2 ⟨hzero, hwf, rfl⟩
  | setfreq reg hz =>
    obtain ⟨hop, rfl, hzero, rfl⟩ := (setfreqWord_eq_iff reg hz c).1 (EncodedWord.command.inj h)
    simpa [decodeCommand, hop] using decodeSetfreq_eq_ok_iff.2 ⟨hzero, rfl⟩
  | setphase reg unit ang =>
    obtain ⟨hop, rfl, rfl, hzero, rfl⟩ := (setphaseWord_eq_iff reg unit ang c).1 (EncodedWord.command.inj h)
    simpa [decodeCommand, hop] using decodeSetphase_eq_ok_iff.2 ⟨hzero, rfl⟩
  | setwmode mode =>
    obtain ⟨hop, hzero, hcode⟩ := (setwmodeWord_eq_iff mode c).1 (EncodedWord.command.inj h)
    have hmode := (writeModeOfCode_eq_some_iff _ mode).2 hcode
    simpa [decodeCommand, hop] using decodeSetwmode_eq_ok_iff.2 ⟨hzero, mode, hmode, rfl⟩
  | setomode mode =>
    obtain ⟨hop, hzero, hcode⟩ := (setomodeWord_eq_iff mode c).1 (EncodedWord.command.inj h)
    have hmode := (outputModeOfCode_eq_some_iff _ mode).2 hcode
    simpa [decodeCommand, hop] using decodeSetomode_eq_ok_iff.2 ⟨hzero, mode, hmode, rfl⟩
  | selreg fsel psel =>
    obtain ⟨hop, hzero, rfl, rfl⟩ := (selregWord_eq_iff fsel psel c).1 (EncodedWord.command.inj h)
    simpa [decodeCommand, hop] using decodeSelreg_eq_ok_iff.2 ⟨hzero, rfl⟩
  | ctrlw _ | freq0w _ | freq1w _ | phase0w _ | phase1w _ => cases h

/-- The word of an emitted row decodes to its instruction (R81 to R84). -/
theorem decodeEmitted_of_encode {w : U16} {i : Instr} (hwf : WellFormed i) (h : encode i = .emitted w) :
    decodeEmitted w = .ok i := by
  cases i with
  | setctl _ _ | setfreq _ _ | setphase _ _ _ | setwmode _ | setomode _ | selreg _ _ => cases h
  | ctrlw word => cases h; exact decodeEmitted_controlWord (beq_iff_eq.1 hwf)
  | freq0w half => cases h; exact decodeEmitted_freqWord .r0 half
  | freq1w half => cases h; exact decodeEmitted_freqWord .r1 half
  | phase0w phase => cases h; exact decodeEmitted_phaseWord .r0 phase
  | phase1w phase => cases h; exact decodeEmitted_phaseWord .r1 phase

/-- Settles O18: the fields of the encoded word are the operands, so its format's decoder reads them back. -/
theorem decodeOfEncode : Obligations.DecodeOfEncode := by
  intro i hwf
  cases h : encode i with
  | command c => exact decodeCommand_of_encode hwf h
  | emitted w => exact decodeEmitted_of_encode hwf h

/-! ## The phase word's format, the words of R85, and the words of the spec -/

/-- Settles O9: the word's fixed bits are those of its row, whatever the phase. -/
theorem phaseWordHasItsFormat : Obligations.PhaseWordHasItsFormat := by
  intro angle unit r
  have hfixed := Laws.phaseWord_fits r (quantPhase angle unit)
  refine ⟨?_, ?_, payload_phaseWord r _⟩
  · calc phaseWord r (quantPhase angle unit) &&& 0xD000#16
        = (phaseWord r (quantPhase angle unit) &&& 0xF000#16) &&& 0xD000#16 := by rw [BitVec.and_assoc]; rfl
      _ = phaseWord r 0#12 &&& 0xD000#16 := by rw [hfixed]
      _ = 0xC000#16 := by cases r <;> decide
  · obtain ⟨-, hreg, -⟩ := (phaseWord_eq_iff r (quantPhase angle unit) _).1 rfl
    rw [encodePhaseWord, hreg]
    cases r <;> rfl

/-- The tag as bits 15:14 of the word (R81). -/
theorem tagField_eq_iff_shift (w : U16) (t : BitVec 2) : tagField w = t ↔ w >>> 14 = t.setWidth 16 := by
  have hshift : (w >>> 14).toNat = (tagField w).toNat := by
    rw [BitVec.toNat_ushiftRight, Nat.shiftRight_eq_div_pow, tagField_toNat]
  rw [← BitVec.toNat_inj, ← BitVec.toNat_inj, hshift, BitVec.toNat_setWidth_of_le (by decide)]

/-- Settles O16: a word with no instruction is one of R85, with its tag and its bits as masks. -/
theorem neverEmittedWordsExactly : Obligations.NeverEmittedWordsExactly := by
  intro w
  have hbit : w &&& 0x1000#16 ≠ 0#16 ↔ w.getLsbD 12 = true := and_twoPow_ne_zero_iff w (n := 12) (by decide)
  have hcontrol : tagField w = 0#2 ↔ w >>> 14 = 0#16 := tagField_eq_iff_shift w 0#2
  have hphase : tagField w = 3#2 ↔ w >>> 14 = 3#16 := tagField_eq_iff_shift w 3#2
  refine ⟨?_, neverEmitted_iff w⟩
  rw [← neverEmitted_iff, hbit, ← hcontrol, ← hphase]
  simp [neverEmitted]

/-- Settles O20: each word is evaluated. -/
theorem specWordsDecodeToTheirCommands : Obligations.SpecWordsDecodeToTheirCommands := by
  unfold Obligations.SpecWordsDecodeToTheirCommands
  decide

end Sys2Proof.Machine
end

section
/-! SUPPORT. The illegal command words (R94): each format's decoder rejects by fields of the word, and a field is a
masked part of it. -/

namespace Sys2Proof.Machine

/-! ## Fields as masked bits of the whole word -/

/-- OP is what is left above bit 59. -/
theorem shiftRight_eq_opField (c : CommandWord) : c >>> 60 = (opField c).setWidth 64 := by
  rw [← BitVec.toNat_inj, BitVec.toNat_setWidth_of_le (by decide), opField, BitVec.extractLsb'_toNat,
    BitVec.toNat_ushiftRight, Nat.shiftRight_eq_div_pow]
  omega

/-- A field at the low end, cut out by its mask. -/
theorem and_lowMask {w : Nat} (c : BitVec w) (len : Nat) :
    c &&& (BitVec.allOnes len).setWidth w = (c.extractLsb' 0 len).setWidth w := by
  refine BitVec.eq_of_getLsbD_eq fun i hi => ?_
  simp [hi, Bool.and_comm]

/-- The mask of a field has the bits at the field's positions. -/
theorem fieldMask_getLsbD {w lo len i : Nat} (hi : i < w) :
    ((BitVec.allOnes len).setWidth w <<< lo).getLsbD i = decide (lo ≤ i ∧ i < lo + len) := by
  rcases Nat.lt_or_ge i lo with h | h
  · simp [h]
  · simp [hi, h, h.not_gt, Nat.sub_lt_iff_lt_add h, Nat.add_comm]

/-- A field is zero exactly when the word has no bit in the field's mask. -/
theorem extractLsb'_eq_zero_iff_mask {w : Nat} (c : BitVec w) (lo len : Nat) :
    c.extractLsb' lo len = 0#len ↔ c &&& ((BitVec.allOnes len).setWidth w <<< lo) = 0#w := by
  constructor <;> intro h <;> refine BitVec.eq_of_getLsbD_eq fun i hi => ?_
  · rw [BitVec.getLsbD_and, fieldMask_getLsbD hi]
    by_cases hfield : lo ≤ i ∧ i < lo + len
    · obtain ⟨j, rfl⟩ := Nat.exists_eq_add_of_le hfield.1
      have hbit := congrArg (·.getLsbD j) h
      simpa [show j < len by omega] using hbit
    · simp [hfield]
  · rcases Nat.lt_or_ge (lo + i) w with hw | hw
    · have hbit := congrArg (·.getLsbD (lo + i)) h
      simpa [fieldMask_getLsbD hw, hi] using hbit
    · simp [BitVec.getLsbD_of_ge c _ hw]

theorem setWidth_inj_of_le {m n : Nat} (h : m ≤ n) (x y : BitVec m) : x.setWidth n = y.setWidth n ↔ x = y := by
  rw [← BitVec.toNat_inj, BitVec.toNat_setWidth_of_le h, BitVec.toNat_setWidth_of_le h, BitVec.toNat_inj]

/-- `MASK & 0xC215`, in the command word. -/
theorem shiftRight_and_reserved (c : CommandWord) :
    (c >>> 16) &&& 0xC215#64 = (maskField c &&& ctrlRsvd).setWidth 64 := by
  have hmask : maskField c = (c >>> 16).setWidth 16 := rfl
  calc (c >>> 16) &&& 0xC215#64
      = (c >>> 16) &&& ((BitVec.allOnes 16).setWidth 64 &&& ctrlRsvd.setWidth 64) := rfl
    _ = (maskField c).setWidth 64 &&& ctrlRsvd.setWidth 64 := by
      rw [← BitVec.and_assoc, and_lowMask, hmask, BitVec.setWidth_eq_extractLsb' (v := 64) (by decide)]
    _ = (maskField c &&& ctrlRsvd).setWidth 64 := BitVec.setWidth_and.symm

/-- `VAL & ~MASK`, in the command word. -/
theorem and_not_shiftRight (c : CommandWord) :
    c &&& 0xFFFF#64 &&& ~~~(c >>> 16) = (valField c &&& ~~~(maskField c)).setWidth 64 := by
  have hval : c &&& 0xFFFF#64 = (valField c).setWidth 64 := and_lowMask c 16
  rw [hval]
  refine BitVec.eq_of_getLsbD_eq fun i hi => ?_
  rcases Nat.lt_or_ge i 16 with h | h
  · simp [maskField, h, hi]
  · simp [BitVec.getLsbD_of_ge _ _ h]

/-! ## The illegal words, format by format -/

theorem decodeSetctl_error_iff (c : CommandWord) : (∃ e, decodeSetctl c = .error e) ↔
    c.extractLsb' 32 28 ≠ 0#28 ∨ maskField c &&& ctrlRsvd ≠ 0#16 ∨ valField c &&& ~~~(maskField c) ≠ 0#16 := by
  have hlegal : (maskLegal (maskField c) && valLegal (maskField c) (valField c)) = true ↔ _ :=
    wellFormed_setctl_iff (maskField c) (valField c)
  rw [ne_eq (_ &&& _), ne_eq (_ &&& _), ← not_and_or, ← hlegal, decodeSetctl]
  split
  next hzero => simp [hzero]
  next hzero => split <;> simp_all

theorem decodeSetfreq_error_iff (c : CommandWord) :
    (∃ e, decodeSetfreq c = .error e) ↔ c.extractLsb' 48 4 ≠ 0#4 := by
  by_cases hzero : c.extractLsb' 48 4 = 0#4 <;> simp [decodeSetfreq, hzero]

theorem decodeSetphase_error_iff (c : CommandWord) :
    (∃ e, decodeSetphase c = .error e) ↔ c.extractLsb' 48 3 ≠ 0#3 := by
  by_cases hzero : c.extractLsb' 48 3 = 0#3 <;> simp [decodeSetphase, hzero]

theorem writeModeOfCode_eq_none_iff (wm : BitVec 2) : writeModeOfCode wm = none ↔ wm = 3#2 := by
  revert wm
  decide

theorem outputModeOfCode_eq_none_iff (om : BitVec 3) : outputModeOfCode om = none ↔ om = 6#3 ∨ om = 7#3 := by
  revert om
  decide

theorem decodeSetwmode_error_iff (c : CommandWord) : (∃ e, decodeSetwmode c = .error e) ↔
    c.extractLsb' 2 58 ≠ 0#58 ∨ c.extractLsb' 0 2 = 3#2 := by
  rw [← writeModeOfCode_eq_none_iff]
  by_cases hzero : c.extractLsb' 2 58 = 0#58 <;> cases hm : writeModeOfCode (c.extractLsb' 0 2) <;>
    simp [decodeSetwmode, hzero, hm]

theorem decodeSetomode_error_iff (c : CommandWord) : (∃ e, decodeSetomode c = .error e) ↔
    c.extractLsb' 3 57 ≠ 0#57 ∨ c.extractLsb' 0 3 = 6#3 ∨ c.extractLsb' 0 3 = 7#3 := by
  rw [← outputModeOfCode_eq_none_iff]
  by_cases hzero : c.extractLsb' 3 57 = 0#57 <;> cases hm : outputModeOfCode (c.extractLsb' 0 3) <;>
    simp [decodeSetomode, hzero, hm]

theorem decodeSelreg_error_iff (c : CommandWord) :
    (∃ e, decodeSelreg c = .error e) ↔ c.extractLsb' 16 44 ≠ 0#44 := by
  by_cases hzero : c.extractLsb' 16 44 = 0#44 <;> simp [decodeSelreg, hzero]

/-- The illegal command words by their fields (R94). -/
theorem decodeCommand_error_iff (c : CommandWord) : (∃ e, decodeCommand c = .error e) ↔
    ((opField c).toNat = 0 ∨ 7 ≤ (opField c).toNat) ∨
    ((opField c = 1#4 ∧ c.extractLsb' 32 28 ≠ 0#28) ∨ (opField c = 2#4 ∧ c.extractLsb' 48 4 ≠ 0#4) ∨
     (opField c = 3#4 ∧ c.extractLsb' 48 3 ≠ 0#3) ∨ (opField c = 4#4 ∧ c.extractLsb' 2 58 ≠ 0#58) ∨
     (opField c = 5#4 ∧ c.extractLsb' 3 57 ≠ 0#57) ∨ (opField c = 6#4 ∧ c.extractLsb' 16 44 ≠ 0#44)) ∨
    (opField c = 1#4 ∧ (maskField c &&& ctrlRsvd ≠ 0#16 ∨ valField c &&& ~~~(maskField c) ≠ 0#16)) ∨
    (opField c = 4#4 ∧ c.extractLsb' 0 2 = 3#2) ∨
    (opField c = 5#4 ∧ (c.extractLsb' 0 3 = 6#3 ∨ c.extractLsb' 0 3 = 7#3)) := by
  have hop : ∀ {k : BitVec 4}, (opField c).toNat = k.toNat → opField c = k := BitVec.eq_of_toNat_eq
  unfold decodeCommand
  split
  case h_1 h => simp [hop (k := 1#4) h, decodeSetctl_error_iff]
  case h_2 h => simp [hop (k := 2#4) h, decodeSetfreq_error_iff]
  case h_3 h => simp [hop (k := 3#4) h, decodeSetphase_error_iff]
  case h_4 h => simp [hop (k := 4#4) h, decodeSetwmode_error_iff]
  case h_5 h => simp [hop (k := 5#4) h, decodeSetomode_error_iff]
  case h_6 h => simp [hop (k := 6#4) h, decodeSelreg_error_iff]
  case h_7 h1 h2 h3 h4 h5 h6 =>
    have hother : (opField c).toNat = 0 ∨ 7 ≤ (opField c).toNat := by
      simp only [imp_false] at h1 h2 h3 h4 h5 h6
      omega
    exact ⟨fun _ => .inl hother, fun _ => ⟨_, rfl⟩⟩

/-- Presented to an idle block, an illegal command word is taken from the port and nothing else happens (R193). -/
theorem step_of_illegal {s : State} {c : CommandWord} {rest : List CommandWord} {e : Reject}
    (hd : decodeCommand c = .error e) (hr : s.resetAsserted = false) (hs : s.seq = .idle) (hp : s.cmdPort = c :: rest) :
    step s = .next (raiseIllegalCommand s.popReset.popCommand) := by
  simp [step, fetch, fetchCommand, hr, hs, hp, hd]

/-- Settles O15: each format's decoder rejects by the format's own fields, which are masks of the word. -/
theorem illegalCommandWordsExactly : Obligations.IllegalCommandWordsExactly := by
  refine ⟨fun c e rest s hd hlow hs hp => ?_, fun c => ?_⟩
  · exact ⟨_, step_of_illegal hd hlow.resetAsserted hs hp, rfl, rfl, rfl, rfl⟩
  have hop : ∀ k : BitVec 4, opField c = k ↔ c >>> 60 = k.setWidth 64 := fun k => by
    rw [shiftRight_eq_opField, setWidth_inj_of_le (by decide)]
  have hopNat : (opField c).toNat = (c >>> 60).toNat := by
    rw [shiftRight_eq_opField, BitVec.toNat_setWidth_of_le (by decide)]
  have hzero : ∀ lo len : Nat, c.extractLsb' lo len ≠ 0#len ↔ c &&& ((BitVec.allOnes len).setWidth 64 <<< lo) ≠ 0#64 :=
    fun lo len => not_congr (extractLsb'_eq_zero_iff_mask c lo len)
  have hupdate : ∀ x : U16, x ≠ 0#16 ↔ x.setWidth 64 ≠ 0#64 := fun x =>
    not_congr (setWidth_inj_of_le (by decide) x 0#16).symm
  have hmode : ∀ {len : Nat} (k : BitVec len), len ≤ 64 →
      (c.extractLsb' 0 len = k ↔ c &&& (BitVec.allOnes len).setWidth 64 = k.setWidth 64) := fun k hlen => by
    rw [and_lowMask, setWidth_inj_of_le hlen]
  refine (decodeCommand_error_iff c).trans (or_congr ?_ (or_congr ?_ (or_congr ?_ (or_congr ?_ ?_))))
  · rw [hopNat]
  · exact or_congr (and_congr (hop 1#4) (hzero 32 28)) <| or_congr (and_congr (hop 2#4) (hzero 48 4)) <|
      or_congr (and_congr (hop 3#4) (hzero 48 3)) <| or_congr (and_congr (hop 4#4) (hzero 2 58)) <|
      or_congr (and_congr (hop 5#4) (hzero 3 57)) (and_congr (hop 6#4) (hzero 16 44))
  · rw [shiftRight_and_reserved, and_not_shiftRight]
    exact and_congr (hop 1#4) (or_congr (hupdate _) (hupdate _))
  · exact and_congr (hop 4#4) (hmode 3#2 (by decide))
  · exact and_congr (hop 5#4) (or_congr (hmode 6#3 (by decide)) (hmode 7#3 (by decide)))

end Sys2Proof.Machine
end

section
/-! SUPPORT. Which words the block sends (R85): every word that decodes is sent by some command, and a step stops only
at one that does not. -/

namespace Sys2Proof.Machine

/-! ## Operands as numbers -/

/-- Every number of 48 bits is a raw operand (R95, R96). -/
theorem exists_raw_of_toInt {n : Int} (hlow : -2 ^ 47 ≤ n) (hhigh : n < 2 ^ 47) : ∃ raw : Raw48, raw.toInt = n :=
  ⟨BitVec.ofInt 48 n, BitVec.toInt_ofInt_eq_self (by decide) hlow hhigh⟩

/-- With the default `FMCLK`, every half is the low half of a frequency in range. -/
theorem exists_frequency_of_half (half : U14) : ∃ raw : Raw48, hzOutOfRange (hzOperand raw) 25000000 = false ∧
    lsb14 (encodeFrequencyWord (hzOperand raw) 25000000) = half := by
  have hlt := half.isLt
  obtain ⟨raw, hraw⟩ := exists_raw_of_toInt (n := (half.toNat * 25000000 + 2048) / 4096) (by omega) (by omega)
  have hrange : hzOutOfRange (hzOperand raw) 25000000 = false := by
    rw [Bool.eq_false_iff, ne_eq, hzOutOfRange_iff, hraw]
    omega
  have hrnd : rnd ((hzOperand raw).num * 2 ^ 28) ((hzOperand raw).den * 25000000) = half.toNat := by
    simp only [hzOperand, rnd, hraw]
    omega
  refine ⟨raw, hrange, BitVec.eq_of_toNat_eq ?_⟩
  rw [encodeFrequencyWord, hrnd, lsb14, BitVec.extractLsb'_toNat, BitVec.ofInt_natCast, BitVec.toNat_ofNat]
  omega

/-- Every phase is that of an angle in degrees. -/
theorem exists_degrees_of_phase (phase : U12) : ∃ raw : Raw48, quantPhase (angleOperand raw) .degrees = phase := by
  have hlt := phase.isLt
  obtain ⟨raw, hraw⟩ := exists_raw_of_toInt (n := phase.toNat * 1474560) (by omega) (by omega)
  have hrnd : rnd ((angleOperand raw).num * 4096) ((angleOperand raw).den * 360) = phase.toNat := by
    simp only [angleOperand, rnd, hraw]
    omega
  exact ⟨raw, by rw [quantPhase, quantDeg, hrnd, BitVec.ofInt_natCast, BitVec.ofNat_toNat, BitVec.setWidth_eq]⟩

/-! ## Every other word is emitted -/

/-- Some well-formed command, in some state that meets the invariant, sends the word. -/
def SentBySomeCommand (w : U16) : Prop :=
  ∃ (i : Instr) (s : State) (ws : List U16), i.isCommand = true ∧ WellFormed i ∧ Inv s ∧
    (beginCommand i s).seq = .sending ws 0 ∧ w ∈ ws

/-- The update of all ten fields leaves nothing of the old shadow. -/
theorem mergeFields_allFields (c val : U16) : mergeFields c ctrlImpl val &&& ctrlImpl = val &&& ctrlImpl := by
  rw [mergeFields, BitVec.and_or_distrib_right, BitVec.and_assoc, BitVec.and_comm (~~~ctrlImpl), BitVec.and_not_self]
  simp

/-- `SETCTL` with all ten fields sends any control word. -/
theorem sentBySomeCommand_controlWord {w : U16} (hw : w &&& ctrlRsvd = 0#16) : SentBySomeCommand w := by
  have himpl := (reserved_zero_iff w).1 hw
  have hwf : WellFormed (.setctl ctrlImpl w) := by
    have hval : w &&& ~~~ctrlImpl = 0#16 := by
      rw [← himpl, BitVec.and_assoc, BitVec.and_not_self]
      simp
    exact (wellFormed_setctl_iff _ _).2 ⟨by decide, hval⟩
  refine ⟨.setctl ctrlImpl w, State.reset, _, rfl, hwf, resetStateMeetsInvariant.1, rfl, List.mem_singleton.2 ?_⟩
  rw [writeCtrl_ctrl, mergeFields_allFields, himpl, encodeControlWord_of_reserved hw]

/-- `SETFREQ` in Both mode sends any half as its low half. -/
theorem sentBySomeCommand_freqWord (r : Reg) (half : U14) : SentBySomeCommand (freqWord r half) := by
  obtain ⟨raw, hrange, hhalf⟩ := exists_frequency_of_half half
  have hbegin : (beginCommand (.setfreq (regOperand r) raw) State.reset).seq =
      .sending (freqWords .both (encodeFrequencyWord (hzOperand raw) 25000000) r) 0 := by
    have hmode : writeModeOf State.reset.ctrl = .both := writeModeOf_resetValue
    have hclock : State.reset.config.fmclk = 25000000 := rfl
    simp [beginCommand, beginSetfreq, hclock, hrange, hmode]
  exact ⟨_, _, _, rfl, rfl, resetStateMeetsInvariant.1, hbegin, by simp [freqWords, splitFrequencyWord, hhalf]⟩

/-- `SETPHASE` sends any phase word. -/
theorem sentBySomeCommand_phaseWord (r : Reg) (phase : U12) : SentBySomeCommand (phaseWord r phase) := by
  obtain ⟨raw, hphase⟩ := exists_degrees_of_phase phase
  have hbegin : (beginCommand (.setphase (regOperand r) .degrees raw) State.reset).seq =
      .sending [encodePhaseWord (angleOperand raw) .degrees r] 0 := by
    simp [beginCommand, beginSetphase]
  exact ⟨_, _, _, rfl, rfl, resetStateMeetsInvariant.1, hbegin, by simp [encodePhaseWord, hphase]⟩

/-- Settles O17: the word decodes, and each format has a command that sends its words. -/
theorem everyOtherWordIsEmitted : Obligations.EveryOtherWordIsEmitted := by
  intro w hn
  obtain ⟨i, hd⟩ := ok_of_not_neverEmitted hn
  obtain ⟨hwf, hw⟩ := encode_of_decodeEmitted hd
  change SentBySomeCommand w
  cases i with
  | setctl _ _ | setfreq _ _ | setphase _ _ _ | setwmode _ | setomode _ | selreg _ _ => cases hw
  | ctrlw word => cases hw; exact sentBySomeCommand_controlWord (beq_iff_eq.1 hwf)
  | freq0w half => cases hw; exact sentBySomeCommand_freqWord .r0 half
  | freq1w half => cases hw; exact sentBySomeCommand_freqWord .r1 half
  | phase0w phase => cases hw; exact sentBySomeCommand_phaseWord .r0 phase
  | phase1w phase => cases hw; exact sentBySomeCommand_phaseWord .r1 phase

/-! ## Where a step stops -/

/-- A step that finds a word of R85 at its position stops. -/
theorem step_of_neverEmitted {s : State} {ws : List U16} {k : Nat} {w : U16} (hr : s.resetAsserted = false)
    (hs : s.seq = .sending ws k) (hw : ws[k]? = some w) (hn : neverEmitted w = true) :
    step s = .fault .wordNeverEmitted := by
  obtain ⟨e, hd⟩ := (neverEmitted_iff w).1 hn
  simp [step, fetch, fetchWord, hr, hs, hw, hd]

theorem resetLow_one_of_not_resetAsserted {s : State} (h : s.resetAsserted = false) : ResetLow 1 s := by
  intro b hb
  cases hl : s.resetLine with
  | nil => simp [hl] at hb
  | cons level rest => simp_all [State.resetAsserted]

/-- Settles O49: what a step can do, said once, has one case that stops and none that is refused. -/
theorem stepStopsOnlyAtNeverEmittedWord : Obligations.StepStopsOnlyAtNeverEmittedWord := by
  intro s
  refine ⟨⟨?_, ?_⟩, ?_⟩
  · rintro ⟨f, hf⟩
    rcases step_cases s with ⟨t, ht, -⟩ | ⟨-, hr, hword⟩
    · simp [ht] at hf
    · exact ⟨resetLow_one_of_not_resetAsserted hr, hword⟩
  · rintro ⟨hlow, ws, k, w, hs, hw, hn⟩
    exact ⟨_, step_of_neverEmitted hlow.resetAsserted hs hw hn⟩
  · intro r hrefused
    rcases step_cases s with ⟨t, ht, -⟩ | ⟨hfault, -⟩
    · simp [ht] at hrefused
    · simp [hfault] at hrefused

end Sys2Proof.Machine
end

section
/-! SUPPORT. Commands as they are written: the expansions of R101, the partial field update of R88, and the rational
operands of R95 and R96 (R100). -/

namespace Sys2Proof.Machine

/-! ## The wrappers are their expansions -/

/-- An admitted constant of `SETOMODE` has governed bits only (R101, D7). -/
theorem wellFormed_setctl_omVal {c : Config} (hc : c.wf) (m : OutputMode) :
    WellFormed (.setctl omMask (omVal c m)) :=
  (wellFormed_setctl_iff _ _).2 ⟨by decide, omVal_and_not hc m⟩

theorem exec_setomode_expansion (m : OutputMode) {s : State} (hc : s.config.wf) :
    exec (.setomode m) s = exec (.setctl omMask (omVal s.config m)) s := by
  simp only [exec, execSetomode, execSetctl, beginSetomode, beginSetctl, outputModeBits_of_wf hc m]

/-- The value of `SELREG` for selects that are 0 or 1 (R101, R156). -/
theorem exec_selreg_expansion {fsel psel : U8} (hf : fsel.toNat ≤ 1) (hp : psel.toNat ≤ 1) (s : State) :
    let val := BitVec.ofNat 16 (fsel.toNat * 2 ^ 11 + psel.toNat * 2 ^ 10)
    WellFormed (.setctl 0x0C00#16 val) ∧ exec (.selreg fsel psel) s = exec (.setctl 0x0C00#16 val) s := by
  have hcases : ∀ {v : U8}, v.toNat ≤ 1 → v = 0#8 ∨ v = 1#8 := fun {v} hv => by
    rcases regSelect_cases v with ⟨h, -⟩ | ⟨h, -⟩ | ⟨h, -⟩
    · exact .inl h
    · exact .inr h
    · omega
  rcases hcases hf with rfl | rfl <;> rcases hcases hp with rfl | rfl <;> exact ⟨by decide, rfl⟩

/-- Settles O28: each wrapper's MASK and VAL are those of its expansion. -/
theorem wrappersAreTheirExpansion : Obligations.WrappersAreTheirExpansion := by
  intro i j s hc h
  cases i with
  | setwmode mode => cases mode <;> cases h <;> exact ⟨by decide, rfl⟩
  | setomode mode =>
    cases h
    exact ⟨wellFormed_setctl_omVal hc mode, exec_setomode_expansion mode hc⟩
  | selreg fsel psel =>
    simp only [expand] at h
    split at h
    next hsel =>
      cases h
      exact exec_selreg_expansion hsel.1 hsel.2 s
    next => cases h
  | setctl _ _ | setfreq _ _ | setphase _ _ _ | ctrlw _ | freq0w _ | freq1w _ | phase0w _ | phase1w _ => cases h

/-! ## The fields of a partial update -/

theorem CtrlField.bit_injective : Function.Injective CtrlField.bit := by
  intro f g h
  revert h
  cases f <;> cases g <;> decide

theorem CtrlField.bit_lt (f : CtrlField) : f.bit < 16 := by
  cases f <;> decide

theorem ctrlImpl_getLsbD_bit (f : CtrlField) : ctrlImpl.getLsbD f.bit = true := by
  cases f <;> rfl

theorem ctrlRsvd_getLsbD_bit (f : CtrlField) : ctrlRsvd.getLsbD f.bit = false := by
  cases f <;> rfl

theorem CtrlField.mask_getLsbD (f : CtrlField) (i : Nat) : f.mask.getLsbD i = true ↔ f.bit = i := by
  have hmask : f.mask = BitVec.twoPow 16 f.bit := by cases f <;> rfl
  rw [hmask, BitVec.getLsbD_twoPow]
  simp [f.bit_lt]

/-- A bit of a word that masks are gathered into is set by one of the masks. -/
theorem foldl_or_getLsbD {α : Type} (g : α → U16) (l : List α) (m : U16) (i : Nat) :
    (l.foldl (fun m a => m ||| g a) m).getLsbD i = true ↔ m.getLsbD i = true ∨ ∃ a ∈ l, (g a).getLsbD i = true := by
  induction l generalizing m with
  | nil => simp
  | cons a l ih => simp [ih, or_assoc]

theorem asmMask_getLsbD (fields : List (CtrlField × Bool)) (i : Nat) :
    (asmMask fields).getLsbD i = true ↔ ∃ e ∈ fields, e.1.bit = i := by
  simp [asmMask, foldl_or_getLsbD (fun e : CtrlField × Bool => e.1.mask), CtrlField.mask_getLsbD]

theorem asmVal_getLsbD (fields : List (CtrlField × Bool)) (i : Nat) :
    (asmVal fields).getLsbD i = true ↔ ∃ e ∈ fields, e.2 = true ∧ e.1.bit = i := by
  have hor : (fun (v : U16) (e : CtrlField × Bool) => if e.2 then v ||| e.1.mask else v) =
      fun v e => v ||| if e.2 then e.1.mask else 0#16 := by
    funext v e
    cases e.2 <;> simp
  have hbit : ∀ e : CtrlField × Bool, (if e.2 then e.1.mask else 0#16).getLsbD i = true ↔ e.2 = true ∧ e.1.bit = i := by
    intro e
    cases e.2 <;> simp [CtrlField.mask_getLsbD]
  rw [asmVal, hor, foldl_or_getLsbD (fun e : CtrlField × Bool => if e.2 then e.1.mask else 0#16)]
  simp [hbit]

/-- What is assembled from fields provides implemented bits only, and no value without its mask bit (R88). -/
theorem wellFormed_assembled (fields : List (CtrlField × Bool)) :
    WellFormed (.setctl (asmMask fields) (asmVal fields)) := by
  refine (wellFormed_setctl_iff _ _).2 ⟨?_, ?_⟩ <;> refine BitVec.eq_of_getLsbD_eq fun i hi => ?_
  · cases hmask : (asmMask fields).getLsbD i with
    | false => simp [hmask]
    | true =>
      obtain ⟨e, -, rfl⟩ := (asmMask_getLsbD fields i).1 hmask
      simp [ctrlRsvd_getLsbD_bit]
  · cases hval : (asmVal fields).getLsbD i with
    | false => simp [hval]
    | true =>
      obtain ⟨e, he, -, hbit⟩ := (asmVal_getLsbD fields i).1 hval
      simp [(asmMask_getLsbD fields i).2 ⟨e, he, hbit⟩]

/-- The bit of a provided field is its value (R88). -/
theorem asmVal_of_mem {fields : List (CtrlField × Bool)} (hnodup : (fields.map Prod.fst).Nodup) {f : CtrlField}
    {v : Bool} (hmem : (f, v) ∈ fields) : (asmVal fields).getLsbD f.bit = v := by
  have honce : (asmVal fields).getLsbD f.bit = true ↔ v = true := by
    rw [asmVal_getLsbD]
    constructor
    · rintro ⟨e, he, hset, hbit⟩
      have hsame : e = (f, v) := List.inj_on_of_nodup_map hnodup he hmem (CtrlField.bit_injective hbit)
      rw [← hset, hsame]
    · exact fun hv => ⟨(f, v), hmem, hv, rfl⟩
  exact Bool.eq_iff_iff.2 honce

/-- A field after an update of `CTRL` (R151). -/
theorem ctrlGet_writeCtrl_merge (s : State) (mask val : U16) (f : CtrlField) :
    ctrlGet (s.writeCtrl (mergeFields s.ctrl mask val)).ctrl f =
      ((ctrlGet s.ctrl f && !mask.getLsbD f.bit) || val.getLsbD f.bit) := by
  rw [writeCtrl_ctrl, ctrlGet, BitVec.getLsbD_and, ctrlImpl_getLsbD_bit, Bool.and_true,
    mergeFields_getLsbD _ _ _ _ f.bit_lt, ctrlGet]

/-- `SETCTL` with reset staying low: its update, and one control word (R151). -/
theorem exec_setctl_of_resetLow (mask val : U16) {s : State} (h : ResetLow 1 s) :
    let u := s.writeCtrl (mergeFields s.ctrl mask val)
    exec (.setctl mask val) s = .next (afterOneWord (encodeControlWord u.ctrl) u) :=
  congrArg Host.Outcome.next (transmitPhase_one _ (h.of_resetLine_eq rfl))

/-- Settles O37: the mask and value bits are those of the provided fields, and the merge reads both. -/
theorem partialUpdateSetsExactlyItsFields : Obligations.PartialUpdateSetsExactlyItsFields := by
  intro fields i s h hlow
  obtain ⟨hnodup, rfl⟩ : (fields.map Prod.fst).Nodup ∧ .setctl (asmMask fields) (asmVal fields) = i := by
    simpa [assemble] using h
  refine ⟨wellFormed_assembled fields, _, exec_setctl_of_resetLow _ _ hlow, ?_, ?_⟩
  · intro f v hmem
    have hmask := (asmMask_getLsbD fields f.bit).2 ⟨_, hmem, rfl⟩
    rw [afterOneWord_ctrl, ctrlGet_writeCtrl_merge, hmask, asmVal_of_mem hnodup hmem]
    simp
  · intro f habsent
    have hnot : ∀ e ∈ fields, e.1.bit ≠ f.bit := by
      rintro ⟨g, v⟩ he hbit
      exact habsent v (CtrlField.bit_injective hbit ▸ he)
    have hmask : (asmMask fields).getLsbD f.bit = false := by
      rw [Bool.eq_false_iff, ne_eq, asmMask_getLsbD]
      exact fun ⟨e, he, hbit⟩ => hnot e he hbit
    have hval : (asmVal fields).getLsbD f.bit = false := by
      rw [Bool.eq_false_iff, ne_eq, asmVal_getLsbD]
      exact fun ⟨e, he, _, hbit⟩ => hnot e he hbit
    rw [afterOneWord_ctrl, ctrlGet_writeCtrl_merge, hmask, hval]
    simp

/-! ## Operands written as rationals -/

theorem asmSelect_eq_some_iff (n : Nat) (r : U8) : asmSelect n = some r ↔ r.toNat = n := by
  have hr := r.isLt
  unfold asmSelect
  split
  next hn =>
    rw [Option.some_inj, ← BitVec.toNat_inj, BitVec.toNat_ofNat, Nat.mod_eq_of_lt (by omega), eq_comm]
  next hn => simp; omega

/-- A raw operand is assembled from exactly the rationals that it stands for (R95, R96). -/
theorem asmRaw_eq_some_iff (q : Frac) (k : Nat) (raw : Raw48) :
    asmRaw q k = some raw ↔ q.den ≠ 0 ∧ raw.toInt * q.den = q.num * 2 ^ k := by
  have hlow := BitVec.le_toInt raw
  have hhigh := BitVec.toInt_lt (x := raw)
  rcases eq_or_ne q.den 0 with hden | hden
  · simp [asmRaw, hden]
  by_cases hdvd : (q.den : ℤ) ∣ q.num * 2 ^ k
  · obtain ⟨n, hn⟩ := hdvd
    have hden' : (q.den : ℤ) ≠ 0 := by exact_mod_cast hden
    have hcross : raw.toInt * q.den = q.num * 2 ^ k ↔ raw.toInt = n := by
      rw [hn, mul_comm, mul_right_inj' hden']
    have hquotient : asmRaw q k = if -(2 ^ 47) ≤ n ∧ n < 2 ^ 47 then some (BitVec.ofInt 48 n) else none := by
      simp [asmRaw, hden, hn]
    rw [hquotient, hcross]
    by_cases hrange : -(2 ^ 47) ≤ n ∧ n < 2 ^ 47
    · have hofInt : BitVec.ofInt 48 n = raw ↔ raw.toInt = n := by
        rw [← BitVec.toInt_inj, BitVec.toInt_ofInt_eq_self (by decide) hrange.1 hrange.2, eq_comm]
      simp only [if_pos hrange, Option.some_inj, hofInt, hden, ne_eq, not_false_eq_true, true_and]
    · have hne : raw.toInt ≠ n := fun h => hrange (h ▸ ⟨hlow, hhigh⟩)
      simp only [if_neg hrange, hne, reduceCtorEq, and_false]
  · have hmod : q.num * 2 ^ k % (q.den : ℤ) ≠ 0 := fun h => hdvd (Int.dvd_of_emod_eq_zero h)
    have hne : raw.toInt * q.den ≠ q.num * 2 ^ k := fun h => hdvd (h ▸ dvd_mul_left _ _)
    simp [asmRaw, hden, hmod, hne]

/-- The rational that an assembled raw operand stands for is the one written. -/
theorem frac_of_asmRaw {q : Frac} {k : Nat} {raw : Raw48} (h : asmRaw q k = some raw) :
    (raw.toInt : ℚ) / ((2 ^ k : Nat) : ℚ) = (q.num : ℚ) / q.den := by
  obtain ⟨hden, hcross⟩ := (asmRaw_eq_some_iff q k raw).1 h
  rw [div_eq_div_iff (by positivity) (by exact_mod_cast hden)]
  exact_mod_cast hcross

theorem asmRaw_hzOperand (raw : Raw48) : asmRaw (hzOperand raw) 16 = some raw :=
  (asmRaw_eq_some_iff _ _ _).2 ⟨by simp [hzOperand], rfl⟩

theorem asmRaw_angleOperand (raw : Raw48) : asmRaw (angleOperand raw) 24 = some raw :=
  (asmRaw_eq_some_iff _ _ _).2 ⟨by simp [angleOperand], rfl⟩

theorem assemble_setfreq_eq_some_iff {hz : Frac} {reg : Nat} {i : Instr} : assemble (.setfreq hz reg) = some i ↔
    ∃ raw r, asmRaw hz 16 = some raw ∧ asmSelect reg = some r ∧ .setfreq r raw = i := by
  cases hraw : asmRaw hz 16 <;> cases hreg : asmSelect reg <;> simp [assemble, hraw, hreg]

theorem assemble_setphase_eq_some_iff {angle : Frac} {reg : Nat} {unit : AngleUnit} {i : Instr} :
    assemble (.setphase angle reg unit) = some i ↔
      ∃ raw r, asmRaw angle 24 = some raw ∧ asmSelect reg = some r ∧ .setphase r unit raw = i := by
  cases hraw : asmRaw angle 24 <;> cases hreg : asmSelect reg <;> simp [assemble, hraw, hreg]

/-- Settles O38: the scaled rational is the operand's integer, and the select its number. -/
theorem assembledOperandsAreExact : Obligations.AssembledOperandsAreExact := by
  have hselect : ∀ reg : U8, asmSelect reg.toNat = some reg := fun reg => (asmSelect_eq_some_iff _ reg).2 rfl
  refine ⟨?_, ?_, ?_, ?_⟩
  · intro hz reg i h
    obtain ⟨raw, r, hraw, hr, hi⟩ := assemble_setfreq_eq_some_iff.1 h
    exact ⟨r, raw, hi.symm, (asmSelect_eq_some_iff reg r).1 hr, frac_of_asmRaw hraw⟩
  · intro angle reg unit i h
    obtain ⟨raw, r, hraw, hr, hi⟩ := assemble_setphase_eq_some_iff.1 h
    exact ⟨r, raw, hi.symm, (asmSelect_eq_some_iff reg r).1 hr, frac_of_asmRaw hraw⟩
  · exact fun raw reg => assemble_setfreq_eq_some_iff.2 ⟨raw, reg, asmRaw_hzOperand raw, hselect reg, rfl⟩
  · exact fun raw reg unit => assemble_setphase_eq_some_iff.2 ⟨raw, reg, asmRaw_angleOperand raw, hselect reg, rfl⟩

/-- Settles O21: each line is evaluated. -/
theorem writtenCommandsAssembleToTheirWords : Obligations.WrittenCommandsAssembleToTheirWords := by
  unfold Obligations.WrittenCommandsAssembleToTheirWords
  decide

end Sys2Proof.Machine
end

section
/-! SUPPORT. The packing of the control word and the split of a tuning word (40_encoder.md): what each word is as a
number and in its fields. -/

namespace Sys2Proof.Machine

/-! ## The control word -/

/-- A field's bit at its position, cut out of the word by position (R120). -/
theorem fieldBits_eq_extractLsb' (c : U16) (f : CtrlField) :
    fieldBits c f = (c.extractLsb' f.bit 1).setWidth 16 <<< f.bit := by
  rw [fieldBits, ctrlGet, extractLsb'_one_eq_ofBool]

/-- The control word carries every field (R120). -/
theorem ctrlGet_encodeControlWord (c : U16) (f : CtrlField) : ctrlGet (encodeControlWord c) f = ctrlGet c f := by
  rw [ctrlGet, encodeControlWord_getLsbD, ctrlImpl_getLsbD_bit, Bool.and_true, ctrlGet]

/-- The control word carries nothing but the fields (R120). -/
theorem encodeControlWord_congr {c d : U16} (h : ∀ f, ctrlGet c f = ctrlGet d f) :
    encodeControlWord c = encodeControlWord d := by
  simp only [encodeControlWord, fieldBits, h]

theorem encodeControlWord_eq_iff (c d : U16) :
    encodeControlWord c = encodeControlWord d ↔ ∀ f, ctrlGet c f = ctrlGet d f := by
  refine ⟨fun h f => ?_, encodeControlWord_congr⟩
  rw [← ctrlGet_encodeControlWord c, h, ctrlGet_encodeControlWord]

/-- The image of the packing (R133 law 5). -/
theorem exists_encodeControlWord_iff (w : U16) : (∃ c, encodeControlWord c = w) ↔ w &&& ctrlRsvd = 0#16 := by
  constructor
  · rintro ⟨c, rfl⟩
    exact encodeControlWord_reserved c
  · exact fun h => ⟨w, encodeControlWord_of_reserved h⟩

/-- Settles O4: the packed word is the value of `CTRL` masked to its ten fields. -/
theorem controlWordPacksTenFields : Obligations.ControlWordPacksTenFields := by
  refine ⟨fun c => ?_, encodeControlWord_reserved, fun c => encodeControlWord_of_reserved, encodeControlWord_eq_iff,
    by decide⟩
  simp only [encodeControlWord, fieldBits_eq_extractLsb', CtrlField.bit]

/-! ## The split of a tuning word -/

theorem msb14_toNat (W : U28) : (msb14 W).toNat = W.toNat / 2 ^ 14 := by
  have hW := W.isLt
  rw [msb14, BitVec.extractLsb'_toNat, Nat.shiftRight_eq_div_pow]
  omega

theorem lsb14_toNat (W : U28) : (lsb14 W).toNat = W.toNat % 2 ^ 14 := by
  rw [lsb14, BitVec.extractLsb'_toNat, Nat.shiftRight_zero]

theorem freqTag_toNat (r : Reg) : (freqTag r).toNat = (regOperand r).toNat + 1 := by
  cases r <;> rfl

/-- A frequency word as a number: the tag above the half (R83). -/
theorem freqWord_toNat (r : Reg) (half : U14) :
    (freqWord r half).toNat = (freqTag r).toNat * 2 ^ 14 + half.toNat := by
  rw [← Nat.shiftLeft_eq, Nat.shiftLeft_add_eq_or_of_lt half.isLt]
  exact BitVec.toNat_append (freqTag r) half

/-- Settles O7: the tag is 1 or 2, and the halves are quotient and remainder by 2^14. -/
theorem splitTagsBothHalves : Obligations.SplitTagsBothHalves := by
  intro W
  simp only [splitFrequencyWord, freqWord_toNat, msb14_toNat, lsb14_toNat]
  exact ⟨rfl, rfl, rfl, rfl⟩

/-- The split loses nothing (R126). -/
theorem joinHalves_splitFrequencyWord (W : U28) (r : Reg) :
    joinHalves (splitFrequencyWord W r).1 (splitFrequencyWord W r).2 = W := by
  simp only [joinHalves, splitFrequencyWord, payload_freqWord, msb14_append_lsb14]

theorem decodeFrequency_splitFrequencyWord (W : U28) (r : Reg) (F : Nat) :
    decodeFrequency (splitFrequencyWord W r).1 (splitFrequencyWord W r).2 F = ⟨W.toNat * F, 2 ^ 28⟩ := by
  rw [decodeFrequency, joinHalves_splitFrequencyWord]

/-- Both words of a split carry the register's tag (R133 law 4). -/
theorem tagField_splitFrequencyWord (W : U28) (r : Reg) :
    tagField (splitFrequencyWord W r).1 = freqTag r ∧ tagField (splitFrequencyWord W r).2 = freqTag r :=
  ⟨tagField_freqWord r _, tagField_freqWord r _⟩

end Sys2Proof.Machine
end

section
/-! SUPPORT. The tuning word of a frequency (R121, R123, R126): the frequency counted in steps of the word, rounded,
and what the rounding costs below Nyquist. -/

namespace Sys2Proof.Machine

/-- The number that a word cut from an integer stands for (R9: the non-negative modulus). -/
theorem ofInt_toNat_eq_emod (w : Nat) (n : ℤ) : ((BitVec.ofInt w n).toNat : ℤ) = n % 2 ^ w := by
  rw [BitVec.toNat_ofInt, Int.toNat_of_nonneg (Int.emod_nonneg _ (by positivity))]
  push_cast
  rfl

/-- A frequency counted in the steps `fmclk / 2^28` of a tuning word (R121). -/
def freqSteps (hz : Frac) (F : Nat) : ℚ := (hz.num : ℚ) / hz.den * 2 ^ 28 / F

theorem rnd_frequency_eq_floor (hz : Frac) (F : Nat) :
    rnd (hz.num * 2 ^ 28) (hz.den * F) = ⌊freqSteps hz F + 1 / 2⌋ := by
  rw [rnd_eq_floor ℚ, freqSteps]
  push_cast
  ring_nf

theorem encodeFrequencyWord_toNat (hz : Frac) (F : Nat) :
    ((encodeFrequencyWord hz F).toNat : ℤ) = ⌊freqSteps hz F + 1 / 2⌋ % 2 ^ 28 := by
  rw [encodeFrequencyWord, ofInt_toNat_eq_emod, rnd_frequency_eq_floor]

/-- The rounding on raw operands, with the common factor 2^16 cancelled (R121). -/
theorem rnd_frequency_of_raw (n : ℤ) (F : Nat) :
    rnd (n * 2 ^ 28) (2 ^ 16 * F) = (n * 2 ^ 13 + F) / (2 * F) := by
  rw [rnd, ← Int.mul_ediv_mul_of_pos (n * 2 ^ 13 + F) (2 * F) (show (0 : ℤ) < 2 ^ 16 by decide)]
  push_cast
  ring_nf

/-- Settles O5: the rounded quotient as a floor and, on raw operands, as an integer quotient. -/
theorem frequencyWordIsRoundedQuotient : Obligations.FrequencyWordIsRoundedQuotient := by
  refine ⟨fun hz F _ _ => encodeFrequencyWord_toNat hz F, fun n F _ => ?_, by decide⟩
  rw [encodeFrequencyWord, ofInt_toNat_eq_emod, rnd_frequency_of_raw]

/-- The frequency that the two words of a split stand for (R126). -/
theorem decodeFrequency_splitFrequencyWord_value (W : U28) (r : Reg) (F : Nat) :
    ((decodeFrequency (splitFrequencyWord W r).1 (splitFrequencyWord W r).2 F).num : ℚ) /
      (decodeFrequency (splitFrequencyWord W r).1 (splitFrequencyWord W r).2 F).den = (W.toNat : ℚ) * F / 2 ^ 28 := by
  rw [decodeFrequency_splitFrequencyWord]
  push_cast
  rfl

/-! ## Below Nyquist -/

/-- The precondition of R123: a frequency from 0 up to, and without, half of `fmclk`. -/
structure BelowNyquist (hz : Frac) (F : Nat) : Prop where
  den_pos : 0 < hz.den
  fmclk_pos : 0 < F
  num_nonneg : 0 ≤ hz.num
  lt_half : 2 * ((hz.num : ℚ) / hz.den) < F

variable {hz hz' : Frac} {F : Nat}

/-- One step of the tuning word is `fmclk / 2^28`. -/
theorem freqSteps_mul (hF : 0 < F) (hz : Frac) : freqSteps hz F * (F / 2 ^ 28) = (hz.num : ℚ) / hz.den := by
  have hF' : (F : ℚ) ≠ 0 := by positivity
  rw [freqSteps]
  field_simp

theorem freqSteps_le_freqSteps (hF : 0 < F) (h : (hz.num : ℚ) / hz.den ≤ (hz'.num : ℚ) / hz'.den) :
    freqSteps hz F ≤ freqSteps hz' F := by
  unfold freqSteps
  gcongr

namespace BelowNyquist

theorem freqSteps_nonneg (h : BelowNyquist hz F) : 0 ≤ freqSteps hz F := by
  have hnum : (0 : ℚ) ≤ hz.num := by exact_mod_cast h.num_nonneg
  unfold freqSteps
  positivity

theorem freqSteps_lt (h : BelowNyquist hz F) : freqSteps hz F < 2 ^ 27 := by
  have hF : (0 : ℚ) < F := by exact_mod_cast h.fmclk_pos
  rw [freqSteps, div_lt_iff₀ hF]
  linarith [h.lt_half]

theorem floor_nonneg (h : BelowNyquist hz F) : 0 ≤ ⌊freqSteps hz F + 1 / 2⌋ :=
  Int.floor_nonneg.2 (by linarith [h.freqSteps_nonneg])

theorem floor_le (h : BelowNyquist hz F) : ⌊freqSteps hz F + 1 / 2⌋ ≤ 2 ^ 27 := by
  have hlt : ⌊freqSteps hz F + 1 / 2⌋ < 2 ^ 27 + 1 :=
    Int.floor_lt.2 (by push_cast; linarith [h.freqSteps_lt])
  omega

/-- Below Nyquist the reduction modulo 2^28 does nothing (R123). -/
theorem encodeFrequencyWord_toNat (h : BelowNyquist hz F) :
    ((encodeFrequencyWord hz F).toNat : ℤ) = ⌊freqSteps hz F + 1 / 2⌋ := by
  have hle := h.floor_le
  rw [Machine.encodeFrequencyWord_toNat, Int.emod_eq_of_lt h.floor_nonneg (by omega)]

theorem encodeFrequencyWord_le (h : BelowNyquist hz F) : (encodeFrequencyWord hz F).toNat ≤ 2 ^ 27 := by
  have hle := h.floor_le
  rw [← h.encodeFrequencyWord_toNat] at hle
  exact_mod_cast hle

/-- The frequency at which the word reaches 2^27 is the one half a step below Nyquist (R123). -/
theorem le_encodeFrequencyWord_iff (h : BelowNyquist hz F) :
    2 ^ 27 ≤ (encodeFrequencyWord hz F).toNat ↔ (F : ℚ) / 2 - F / 2 ^ 29 ≤ (hz.num : ℚ) / hz.den := by
  have hstep : (0 : ℚ) < F / 2 ^ 28 := by have := h.fmclk_pos; positivity
  calc 2 ^ 27 ≤ (encodeFrequencyWord hz F).toNat
      ↔ (2 ^ 27 : ℤ) ≤ ⌊freqSteps hz F + 1 / 2⌋ := by rw [← h.encodeFrequencyWord_toNat]; norm_cast
    _ ↔ (2 ^ 27 : ℚ) - 1 / 2 ≤ freqSteps hz F := by rw [Int.le_floor, sub_le_iff_le_add]; push_cast; rfl
    _ ↔ ((2 ^ 27 : ℚ) - 1 / 2) * (F / 2 ^ 28) ≤ freqSteps hz F * (F / 2 ^ 28) := (mul_le_mul_iff_left₀ hstep).symm
    _ ↔ (F : ℚ) / 2 - F / 2 ^ 29 ≤ (hz.num : ℚ) / hz.den := by rw [freqSteps_mul h.fmclk_pos]; ring_nf

/-- The word is within half a step of the frequency (R123). -/
theorem abs_encodeFrequencyWord_sub_le (h : BelowNyquist hz F) :
    |((encodeFrequencyWord hz F).toNat : ℚ) * F / 2 ^ 28 - (hz.num : ℚ) / hz.den| ≤ (F : ℚ) / 2 ^ 29 := by
  have hround : ((encodeFrequencyWord hz F).toNat : ℚ) = round (freqSteps hz F) := by
    rw [round_eq, ← h.encodeFrequencyWord_toNat, Int.cast_natCast]
  have hstep : (0 : ℚ) ≤ F / 2 ^ 28 := by positivity
  calc |((encodeFrequencyWord hz F).toNat : ℚ) * F / 2 ^ 28 - (hz.num : ℚ) / hz.den|
      = |freqSteps hz F - round (freqSteps hz F)| * (F / 2 ^ 28) := by
        rw [hround, ← freqSteps_mul h.fmclk_pos, abs_sub_comm, mul_div_assoc, ← sub_mul, abs_mul, abs_of_nonneg hstep]
    _ ≤ 1 / 2 * (F / 2 ^ 28) := by gcongr; exact abs_sub_round _
    _ = (F : ℚ) / 2 ^ 29 := by ring

/-- A higher frequency in range has no smaller word (R123). -/
theorem encodeFrequencyWord_mono (h : BelowNyquist hz F) (h' : BelowNyquist hz' F)
    (hle : (hz.num : ℚ) / hz.den ≤ (hz'.num : ℚ) / hz'.den) :
    (encodeFrequencyWord hz F).toNat ≤ (encodeFrequencyWord hz' F).toNat := by
  have hfloor : ⌊freqSteps hz F + 1 / 2⌋ ≤ ⌊freqSteps hz' F + 1 / 2⌋ := by
    gcongr
    exact freqSteps_le_freqSteps h.fmclk_pos hle
  rw [← h.encodeFrequencyWord_toNat, ← h'.encodeFrequencyWord_toNat] at hfloor
  exact_mod_cast hfloor

/-- A frequency above one in range is not negative. -/
theorem of_le (h : BelowNyquist hz F) (hden : 0 < hz'.den) (hle : (hz.num : ℚ) / hz.den ≤ (hz'.num : ℚ) / hz'.den)
    (hlt : 2 * ((hz'.num : ℚ) / hz'.den) < F) : BelowNyquist hz' F := by
  have hden' : (0 : ℚ) < hz'.den := by exact_mod_cast hden
  have hnum : (0 : ℚ) ≤ hz.num := by exact_mod_cast h.num_nonneg
  have hnum' : (0 : ℚ) ≤ hz'.num := by
    simpa using (le_div_iff₀ hden').1 (show 0 ≤ (hz'.num : ℚ) / hz'.den from le_trans (by positivity) hle)
  exact ⟨hden, h.fmclk_pos, by exact_mod_cast hnum', hlt⟩

theorem encodeFrequencyWord_of_zero (h : BelowNyquist hz F) (hzero : (hz.num : ℚ) / hz.den = 0) :
    (encodeFrequencyWord hz F).toNat = 0 := by
  have hfloor : ⌊freqSteps hz F + 1 / 2⌋ = 0 := by rw [freqSteps, hzero]; norm_num
  rw [← h.encodeFrequencyWord_toNat] at hfloor
  exact_mod_cast hfloor

/-- Half a step rounds up (R9, R123). -/
theorem encodeFrequencyWord_of_half_step (h : BelowNyquist hz F) (hhalf : (hz.num : ℚ) / hz.den = (F : ℚ) / 2 ^ 29) :
    (encodeFrequencyWord hz F).toNat = 1 := by
  have hF : (F : ℚ) ≠ 0 := by exact_mod_cast h.fmclk_pos.ne'
  have hsteps : freqSteps hz F = 1 / 2 := by
    rw [freqSteps, hhalf]
    field_simp
  have hfloor : ⌊freqSteps hz F + 1 / 2⌋ = 1 := by rw [hsteps]; norm_num
  rw [← h.encodeFrequencyWord_toNat] at hfloor
  exact_mod_cast hfloor

/-- Decoding the split of the word gives the frequency back within half a step (R126). -/
theorem abs_decodeFrequency_sub_le (h : BelowNyquist hz F) (r : Reg) :
    let p := splitFrequencyWord (encodeFrequencyWord hz F) r
    |((decodeFrequency p.1 p.2 F).num : ℚ) / (decodeFrequency p.1 p.2 F).den - (hz.num : ℚ) / hz.den|
      ≤ (F : ℚ) / 2 ^ 29 := by
  simp only [decodeFrequency_splitFrequencyWord_value]
  exact h.abs_encodeFrequencyWord_sub_le

end BelowNyquist

/-- Bit 27 of a tuning word is its being 2^27 or more. -/
theorem getLsbD_27_iff (W : U28) : W.getLsbD 27 = true ↔ 2 ^ 27 ≤ W.toNat := by
  have hmsb : W.getLsbD 27 = W.msb := (BitVec.msb_eq_getLsbD_last W).symm
  rw [hmsb, BitVec.msb_eq_true_iff_two_mul_ge]
  omega

/-- Settles O6: below Nyquist the word is the rounded number of steps. -/
theorem frequencyWordWithinHalfStep : Obligations.FrequencyWordWithinHalfStep := by
  intro hz F hden hF hnum hlt
  have h : BelowNyquist hz F := ⟨hden, hF, hnum, hlt⟩
  refine ⟨h.encodeFrequencyWord_toNat, h.encodeFrequencyWord_le, ?_, h.abs_encodeFrequencyWord_sub_le, ?_,
    h.encodeFrequencyWord_of_zero, h.encodeFrequencyWord_of_half_step⟩
  · rw [getLsbD_27_iff, h.le_encodeFrequencyWord_iff]
  · exact fun hz' hden' hle hlt' => h.encodeFrequencyWord_mono (h.of_le hden' hle hlt') hle

/-- Settles O8: the halves join to the word, and the word is within half a step of the frequency. -/
theorem splitThenDecodeRecovers : Obligations.SplitThenDecodeRecovers := by
  exact ⟨joinHalves_splitFrequencyWord, decodeFrequency_splitFrequencyWord_value,
    fun hz r F hden hF hnum hlt => BelowNyquist.abs_decodeFrequency_sub_le ⟨hden, hF, hnum, hlt⟩ r⟩

end Sys2Proof.Machine
end

section
/-! SUPPORT. The phase of an angle (R127 to R130): both quantisers are the function over the reals on every rational;
the bounds that a phase stands for; whole turns. -/

namespace Sys2Proof.Machine

/-! ## Degrees -/

/-- The degrees quantiser before the reduction (R127, R128). -/
theorem rnd_degrees_eq_floor (K : Type) [Field K] [LinearOrder K] [IsStrictOrderedRing K] [FloorRing K] (angle : Frac) :
    rnd (angle.num * 4096) (angle.den * 360) = ⌊(angle.num : K) / angle.den * 512 / 45 + 1 / 2⌋ := by
  have hratio : ((angle.num * 4096 : ℤ) : K) / (angle.den * 360 : ℕ) = (angle.num : K) / angle.den * 512 / 45 := by
    push_cast
    ring
  rw [rnd_eq_floor K, hratio]

theorem quantPhase_degrees_toNat (angle : Frac) :
    ((quantPhase angle .degrees).toNat : ℤ) = rnd (angle.num * 4096) (angle.den * 360) % 4096 :=
  ofInt_toNat_eq_emod 12 _

/-- The quotient in degrees is a half-integer at the odd multiples of 45/1024 only (R128). -/
theorem degrees_tie_iff (x : ℚ) :
    (∃ k : ℤ, x * 512 / 45 = k + 1 / 2) ↔ ∃ m : ℤ, m % 2 = 1 ∧ x = 45 * m / 1024 := by
  constructor
  · rintro ⟨k, hk⟩
    refine ⟨2 * k + 1, by omega, ?_⟩
    push_cast
    linarith
  · rintro ⟨m, hodd, rfl⟩
    obtain ⟨k, rfl⟩ : ∃ k, m = 2 * k + 1 := ⟨m / 2, by omega⟩
    refine ⟨k, ?_⟩
    push_cast
    ring

/-- Settles O10: the floor, its integer forms on raw operands and on ties, and where the ties are. -/
theorem degreesQuantiserIsExact : Obligations.DegreesQuantiserIsExact := by
  refine ⟨fun angle _ => ?_, fun a => ?_, fun angle _ => degrees_tie_iff _, fun m _ => ?_⟩
  · rw [quantPhase_degrees_toNat, rnd_degrees_eq_floor ℚ]
  · have hraw : rnd (a * 4096) (2 ^ 24 * 360) = (2 * a + 1474560) / 2949120 := by simp only [rnd]; omega
    rw [quantPhase_degrees_toNat, hraw]
  · have htie : rnd (45 * m * 4096) (1024 * 360) = (m + 1) / 2 := by simp only [rnd]; omega
    rw [quantPhase_degrees_toNat, htie]

/-! ## Radians -/

theorem quantPhase_radians_toNat (angle : Frac) :
    ((quantPhase angle .radians).toNat : ℤ) = radNearest angle % 4096 :=
  ofInt_toNat_eq_emod 12 _

/-- The integer that the radians quantiser takes is the one whose bounds enclose the angle (R129). -/
theorem radNearest_eq_iff (angle : Frac) (m : ℤ) : radNearest angle = m ↔
    (2 * (m : ℝ) - 1) * Real.pi ≤ (angle.num : ℝ) / angle.den * 4096 ∧
      (angle.num : ℝ) / angle.den * 4096 < (2 * (m : ℝ) + 1) * Real.pi := by
  have hquot : (angle.num : ℝ) / angle.den * 2048 / Real.pi + 1 / 2 =
      ((angle.num : ℝ) / angle.den * 4096 / Real.pi + 1) / 2 := by ring
  rw [radNearest_eq_floor, Int.floor_eq_iff, hquot, ← le_div_iff₀ Real.pi_pos, ← div_lt_iff₀ Real.pi_pos]
  constructor <;> rintro ⟨hlow, hhigh⟩ <;> constructor <;> linarith

/-- No rational angle lies on a boundary: 0 is none, and PI is irrational (R129). -/
theorem rad_boundary_ne {angle : Frac} (hden : 0 < angle.den) (m : ℤ) :
    (2 * (m : ℝ) - 1) * Real.pi ≠ (angle.num : ℝ) / angle.den * 4096 := by
  intro hbound
  have hquot : (m : ℝ) = (angle.num : ℝ) / angle.den * 2048 / Real.pi + 1 / 2 := by
    rw [show (angle.num : ℝ) / angle.den * 2048 = (2 * (m : ℝ) - 1) * Real.pi / 2 by linarith]
    field_simp [Real.pi_ne_zero]
    ring
  rcases eq_or_ne angle.num 0 with hzero | hne
  · have hhalf : (m : ℝ) = 1 / 2 := by simpa [hzero] using hquot
    have hodd : 2 * m = 1 := by exact_mod_cast (by linarith : 2 * (m : ℝ) = 1)
    omega
  · exact rad_no_tie hne hden m hquot

theorem radNearest_of_num_zero {angle : Frac} (h : angle.num = 0) : radNearest angle = 0 := by
  rw [radNearest_eq_floor, h]
  norm_num

/-- The bounds of R129 on raw operands. -/
theorem radNearest_angleOperand_eq_iff (raw : Raw48) (m : ℤ) : radNearest (angleOperand raw) = m ↔
    (2 * (m : ℝ) - 1) * 4096 * Real.pi ≤ raw.toInt ∧ (raw.toInt : ℝ) < (2 * (m : ℝ) + 1) * 4096 * Real.pi := by
  have hscale : ((angleOperand raw).num : ℝ) / (angleOperand raw).den * 4096 = raw.toInt / 4096 := by
    simp only [angleOperand]
    push_cast
    ring
  rw [radNearest_eq_iff, hscale, le_div_iff₀ (by norm_num), div_lt_iff₀ (by norm_num), mul_right_comm,
    mul_right_comm (2 * (m : ℝ) + 1)]

/-- Settles O11: the quantiser's integer is the one between its bounds. -/
theorem radiansQuantiserIsExact : Obligations.RadiansQuantiserIsExact := by
  constructor
  · intro angle hden
    obtain ⟨hlow, hhigh⟩ := (radNearest_eq_iff angle _).1 rfl
    refine ⟨radNearest angle, hlow, hhigh, fun m' hlow' hhigh' => ((radNearest_eq_iff angle m').2 ⟨hlow', hhigh'⟩).symm,
      quantPhase_radians_toNat angle, rad_boundary_ne hden _, fun hzero => ?_⟩
    rw [quantPhase, quantRad, radNearest_of_num_zero hzero]
    rfl
  · intro raw m hlow hhigh
    rw [quantPhase_radians_toNat, (radNearest_angleOperand_eq_iff raw m).2 ⟨hlow, hhigh⟩]

/-! ## The function over the reals -/

/-- A period is a whole turn (R127, R130). -/
theorem turnsReal_add_period (angle : ℝ) (unit : AngleUnit) (k : ℤ) :
    turnsReal (angle + k * period unit) unit = turnsReal angle unit + k := by
  cases unit with
  | radians => simp only [turnsReal, period]; field_simp
  | degrees => simp only [turnsReal, period]; ring

/-- A phase is an integer modulo 4096. -/
theorem ofInt_add_mul_4096 (n k : ℤ) : BitVec.ofInt 12 (n + k * 4096) = BitVec.ofInt 12 n := by
  rw [← BitVec.toNat_inj, ← Int.natCast_inj, ofInt_toNat_eq_emod, ofInt_toNat_eq_emod]
  exact Int.add_mul_emod_self_right n k 4096

theorem phaseReal_add_period (angle : ℝ) (unit : AngleUnit) (k : ℤ) :
    phaseReal (angle + k * period unit) unit = phaseReal angle unit := by
  have hturns : (turnsReal angle unit + k) * 4096 + 1 / 2 = turnsReal angle unit * 4096 + 1 / 2 + (k * 4096 : ℤ) := by
    push_cast
    ring
  rw [phaseReal, turnsReal_add_period, hturns, Int.floor_add_intCast, ofInt_add_mul_4096, phaseReal]

/-- The machine computes the function over the reals on every rational (R127, R129). -/
theorem quantPhase_eq_phaseReal (angle : Frac) (unit : AngleUnit) :
    quantPhase angle unit = phaseReal (fracReal angle) unit := by
  cases unit with
  | radians =>
    have hturns : turnsReal (fracReal angle) .radians * 4096 = (angle.num : ℝ) / angle.den * 2048 / Real.pi := by
      rw [turnsReal, fracReal]
      ring
    rw [quantPhase, quantRad, radNearest_eq_floor, phaseReal, hturns]
  | degrees =>
    have hturns : turnsReal (fracReal angle) .degrees * 4096 = (angle.num : ℝ) / angle.den * 512 / 45 := by
      rw [turnsReal, fracReal]
      ring
    rw [quantPhase, quantDeg, rnd_degrees_eq_floor ℝ, phaseReal, hturns]

theorem encodePhaseWord_eq_real (angle : Frac) (unit : AngleUnit) (r : Reg) :
    encodePhaseWord angle unit r = encodePhaseWordReal (fracReal angle) unit r := by
  rw [encodePhaseWord, encodePhaseWordReal, quantPhase_eq_phaseReal]

theorem encodePhaseWordReal_add_period (angle : ℝ) (unit : AngleUnit) (k : ℤ) (r : Reg) :
    encodePhaseWordReal (angle + k * period unit) unit r = encodePhaseWordReal angle unit r := by
  rw [encodePhaseWordReal, phaseReal_add_period, encodePhaseWordReal]

theorem fracReal_add_turns (angle : Frac) (k : ℤ) (hden : 0 < angle.den) :
    fracReal ⟨angle.num + k * 360 * angle.den, angle.den⟩ = fracReal angle + k * period .degrees := by
  have hden' : (angle.den : ℝ) ≠ 0 := by exact_mod_cast hden.ne'
  simp only [fracReal, period]
  push_cast
  field_simp

/-- The phase `P` in radians is that of the greatest raw operand not above `P` parts of a turn. -/
theorem exists_radians_of_phase (phase : U12) : ∃ raw : Raw48, quantPhase (angleOperand raw) .radians = phase := by
  have hphase : (phase.toNat : ℝ) < 4096 := by exact_mod_cast phase.isLt
  have hpi := Real.pi_gt_three
  have hpi' := Real.pi_lt_four
  set x : ℝ := phase.toNat * 8192 * Real.pi with hx
  have hx0 : 0 ≤ x := by positivity
  have hxlt : x < 2 ^ 47 := by
    calc x ≤ 4096 * 8192 * 4 := by rw [hx]; gcongr
      _ < 2 ^ 47 := by norm_num
  have hfloor0 : 0 ≤ ⌊x⌋ := Int.floor_nonneg.2 hx0
  obtain ⟨raw, hraw⟩ := exists_raw_of_toInt (n := ⌊x⌋) (by omega) (Int.floor_lt.2 (by exact_mod_cast hxlt))
  have hnearest : radNearest (angleOperand raw) = phase.toNat := by
    rw [radNearest_angleOperand_eq_iff, hraw, Int.cast_natCast]
    constructor
    · linarith [Int.lt_floor_add_one x]
    · linarith [Int.floor_le x]
  exact ⟨raw, by rw [quantPhase, quantRad, hnearest, BitVec.ofInt_natCast, BitVec.ofNat_toNat, BitVec.setWidth_eq]⟩

/-- Rounding to the nearest 4096th of a turn costs at most half of one (R130). -/
theorem abs_turns_sub_round_le (turns : ℝ) : |turns - (⌊turns * 4096 + 1 / 2⌋ : ℤ) / 4096| ≤ 1 / 8192 := by
  have hround : |turns * 4096 - (⌊turns * 4096 + 1 / 2⌋ : ℤ)| ≤ 1 / 2 := by
    rw [← round_eq]
    exact abs_sub_round _
  rw [abs_le] at hround ⊢
  constructor <;> linarith [hround.1, hround.2]

/-- Settles O12: periodicity of the function over the reals, carried to the machine by their equality on rationals. -/
theorem phaseIsPeriodic : Obligations.PhaseIsPeriodic := by
  refine ⟨encodePhaseWordReal_add_period, fun angle unit r _ => encodePhaseWord_eq_real angle unit r,
    fun angle k r hden => ?_, fun unit P => ?_, fun angle unit _ => ?_⟩
  · rw [encodePhaseWord_eq_real, fracReal_add_turns angle k hden, encodePhaseWordReal_add_period,
      ← encodePhaseWord_eq_real]
  · cases unit with
    | radians => exact exists_radians_of_phase P
    | degrees => exact exists_degrees_of_phase P
  · exact ⟨⌊turnsReal (fracReal angle) unit * 4096 + 1 / 2⌋, quantPhase_eq_phaseReal angle unit,
      abs_turns_sub_round_le _⟩

end Sys2Proof.Machine
end

section
/-! SUPPORT. The laws of R133, from what the sections before say of the Encoder's functions; of them, law 6 is about the
update that an output mode makes. -/

namespace Sys2Proof.Machine

/-! ## Output modes -/

/-- An update with values under its mask is undone by another one under the same mask (R151). -/
theorem mergeFields_mergeFields {mask val₁ : U16} (hval : val₁ &&& ~~~mask = 0#16) (c val₂ : U16) :
    mergeFields (mergeFields c mask val₁) mask val₂ = mergeFields c mask val₂ := by
  have hkept : mergeFields c mask val₁ &&& ~~~mask = c &&& ~~~mask := by
    rw [mergeFields, BitVec.and_or_distrib_right, hval, BitVec.and_assoc, BitVec.and_self, BitVec.or_zero]
  rw [mergeFields, hkept, mergeFields]

/-- Of `CTRL`, an update sees the implemented bits only (R21). -/
theorem mergeFields_and_ctrlImpl (c mask val : U16) :
    mergeFields (c &&& ctrlImpl) mask val &&& ctrlImpl = mergeFields c mask val &&& ctrlImpl := by
  simp only [mergeFields, BitVec.and_or_distrib_right]
  rw [BitVec.and_assoc c, BitVec.and_comm ctrlImpl, ← BitVec.and_assoc, BitVec.and_assoc _ ctrlImpl, BitVec.and_self]

/-- `CTRL` after an output mode's update (R155). -/
theorem beginSetomode_ctrl (m : OutputMode) (s : State) :
    (beginSetomode m s).ctrl = mergeFields s.ctrl omMask (outputModeBits s.config m) &&& ctrlImpl := rfl

@[simp] theorem beginSetomode_config (m : OutputMode) (s : State) : (beginSetomode m s).config = s.config := rfl

theorem outputModeBits_and_not (c : Config) (m : OutputMode) : outputModeBits c m &&& ~~~omMask = 0#16 := by
  rw [outputModeBits, BitVec.and_assoc, BitVec.and_not_self]
  exact BitVec.and_zero

/-- An output mode's update covers whatever an output mode wrote before it (R133 law 6). -/
theorem beginSetomode_ctrl_after_beginSetomode (m₁ m₂ : OutputMode) (s : State) :
    (beginSetomode m₂ (beginSetomode m₁ s)).ctrl = (beginSetomode m₂ s).ctrl := by
  rw [beginSetomode_ctrl, beginSetomode_ctrl m₁, mergeFields_and_ctrlImpl, beginSetomode_config,
    mergeFields_mergeFields (outputModeBits_and_not _ _), beginSetomode_ctrl]

/-- The update reads `CTRL` and the configuration. -/
theorem beginSetomode_ctrl_congr (m : OutputMode) {s t : State} (hctrl : s.ctrl = t.ctrl)
    (hconfig : s.config = t.config) : (beginSetomode m s).ctrl = (beginSetomode m t).ctrl := by
  rw [beginSetomode_ctrl, beginSetomode_ctrl, hctrl, hconfig]

/-- `SETOMODE` with reset staying low: its update and one control word (R155). -/
theorem exec_setomode_of_resetLow (m : OutputMode) {s t : State} (hlow : ResetLow 1 s)
    (h : exec (.setomode m) s = .next t) :
    t.ctrl = (beginSetomode m s).ctrl ∧ t.config = s.config ∧ t.resetLine = s.popReset.resetLine := by
  have hexec := exec_setctl_of_resetLow omMask (outputModeBits s.config m) hlow
  obtain rfl := Host.Outcome.next.inj (h.symm.trans hexec)
  exact ⟨rfl, rfl, by simp⟩

/-- Settles O36: the transmit phase keeps `CTRL`, and the second update covers the first. -/
theorem outputModesLeaveNoTrace : Obligations.OutputModesLeaveNoTrace := by
  intro m₁ m₂ s t u v hlow ht hu hv
  obtain ⟨htctrl, htconfig, htline⟩ := exec_setomode_of_resetLow m₁ (hlow.mono (by decide)) ht
  obtain ⟨huctrl, -, -⟩ := exec_setomode_of_resetLow m₂ (hlow.popReset.of_resetLine_eq htline) hu
  obtain ⟨hvctrl, -, -⟩ := exec_setomode_of_resetLow m₂ (hlow.mono (by decide)) hv
  calc u.ctrl = (beginSetomode m₂ t).ctrl := huctrl
    _ = (beginSetomode m₂ (beginSetomode m₁ s)).ctrl := beginSetomode_ctrl_congr m₂ htctrl htconfig
    _ = (beginSetomode m₂ s).ctrl := beginSetomode_ctrl_after_beginSetomode m₁ m₂ s
    _ = v.ctrl := hvctrl.symm

/-! ## The six laws -/

theorem splitDecodeLaw : SplitDecodeLaw :=
  fun W r F => ⟨joinHalves_splitFrequencyWord W r, decodeFrequency_splitFrequencyWord W r F⟩

/-- A fraction over the reals is the one over the rationals. -/
theorem fracReal_eq_cast (q : Frac) : fracReal q = (((q.num : ℚ) / q.den : ℚ) : ℝ) := by
  rw [fracReal]
  push_cast
  rfl

theorem quantisationLaw : QuantisationLaw := by
  intro hz r F hden hF hnum hlt
  rw [fracReal_eq_cast] at hlt
  have herror := BelowNyquist.abs_decodeFrequency_sub_le ⟨hden, hF, hnum, by exact_mod_cast hlt⟩ r
  have hcast := (Rat.cast_le (K := ℝ)).2 herror
  push_cast at hcast
  exact hcast

theorem phasePeriodicityLaw : PhasePeriodicityLaw :=
  ⟨fun angle unit r k => encodePhaseWordReal_add_period angle unit k r,
    fun angle unit r _ => encodePhaseWord_eq_real angle unit r⟩

/-- The fixed fields of a phase word (R84). -/
theorem phaseWord_tags (r : Reg) (phase : U12) :
    (phaseWord r phase).extractLsb' 14 2 = 0b11#2 ∧
      ((phaseWord r phase).extractLsb' 13 1).toNat = (regOperand r).toNat ∧
      (phaseWord r phase).extractLsb' 12 1 = 0#1 := by
  obtain ⟨htag, hreg, hzero, -⟩ := (phaseWord_eq_iff r phase _).1 rfl
  rw [extractLsb'_one_eq_ofBool, extractLsb'_one_eq_ofBool, hreg, hzero]
  exact ⟨htag, by cases r <;> rfl, rfl⟩

theorem tagLaw : TagLaw := by
  refine ⟨fun W r => ?_, fun angle unit r => phaseWord_tags r (quantPhase angle unit)⟩
  obtain ⟨hmsb, hlsb⟩ := tagField_splitFrequencyWord W r
  rw [← freqTag_toNat]
  exact ⟨congrArg BitVec.toNat hmsb, congrArg BitVec.toNat hlsb⟩

theorem controlWordLaw : ControlWordLaw :=
  ⟨fun c d => (encodeControlWord_eq_iff c d).1, exists_encodeControlWord_iff⟩

theorem modeIdempotenceLaw : ModeIdempotenceLaw := beginSetomode_ctrl_after_beginSetomode

/-- Settles O59: law by law. -/
theorem encoderLawsHold : Obligations.EncoderLawsHold :=
  ⟨splitDecodeLaw, quantisationLaw, phasePeriodicityLaw, tagLaw, controlWordLaw, modeIdempotenceLaw⟩

end Sys2Proof.Machine
end

section
/-! SUPPORT. The commands of 41_sequencer.md: the full next state of each (R151 to R156), the number of its transactions
(R157), what it leaves alone (R160), what it does not read (R159), and how a step comes to run it (R150, R158). -/

namespace Sys2Proof.Machine

variable {s t u : State} {ws : List U16}

/-! ## The control commands -/

/-- A value without reserved bits is written whole (R21). -/
theorem writeCtrl_of_reserved {v : U16} (h : v &&& ctrlRsvd = 0#16) (s : State) :
    s.writeCtrl v = { s with ctrl := v } := by
  rw [State.writeCtrl, (reserved_zero_iff v).1 h]

/-- Settles O22: the merged value has no reserved bit, so it is the word sent. -/
theorem setctlMergesAndTransmits : Obligations.SetctlMergesAndTransmits := by
  intro mask val s hwf hc hlow
  have hmerged : mergeFields s.ctrl mask val &&& ctrlRsvd = 0#16 := mergeFields_reserved hc (wellFormed_setctl_val hwf)
  have hexec := exec_setctl_of_resetLow mask val hlow
  rw [writeCtrl_of_reserved hmerged] at hexec
  rw [hexec, encodeControlWord_of_reserved hmerged]
  rfl

/-- Settles O23: `SETWMODE` is a `SETCTL` of B28 and HLB. -/
theorem setwmodeWritesBothModeBits : Obligations.SetwmodeWritesBothModeBits := by
  intro mode s hc hlow
  cases mode with
  | both => exact setctlMergesAndTransmits 0x3000#16 0x2000#16 s (by decide) hc hlow
  | mostSignificantOnly => exact setctlMergesAndTransmits 0x3000#16 0x1000#16 s (by decide) hc hlow
  | leastSignificantOnly => exact setctlMergesAndTransmits 0x3000#16 0x0000#16 s (by decide) hc hlow

/-- Settles O24: `SETOMODE` is a `SETCTL` of the governed bits. -/
theorem setomodeWritesGovernedBits : Obligations.SetomodeWritesGovernedBits := by
  intro mode s hconfig hc hlow
  rw [exec_setomode_expansion mode hconfig]
  exact setctlMergesAndTransmits _ _ s (wellFormed_setctl_omVal hconfig mode) hc hlow

/-- A select operand above 1 names no register (R97). -/
theorem regSelect_eq_none {v : U8} (h : 1 < v.toNat) : regSelect v = none := by
  rcases regSelect_cases v with ⟨rfl, -⟩ | ⟨rfl, -⟩ | ⟨-, h'⟩
  · exact absurd h (by decide)
  · exact absurd h (by decide)
  · exact h'

/-- A command that fails its validation sends nothing (R192). -/
theorem exec_of_beginCommand_rangeError {i : Instr} (hi : i.isCommand = true)
    (h : beginCommand i s = raiseRangeError s) : exec i s = .next (raiseRangeError s) := by
  rw [exec_command hi, h, transmitPhase_idle rfl]

theorem beginSelreg_of_out_of_range {fsel psel : U8} (h : 1 < fsel.toNat ∨ 1 < psel.toNat) (s : State) :
    beginSelreg fsel psel s = raiseRangeError s := by
  unfold beginSelreg
  rcases h with h | h
  · rw [regSelect_eq_none h]
  · rw [regSelect_eq_none h]
    cases regSelect fsel <;> rfl

/-- Settles O25: in range `SELREG` is a `SETCTL` of the two selects. -/
theorem selregWritesBothSelects : Obligations.SelregWritesBothSelects := by
  intro fsel psel s hc hlow
  constructor
  · rintro ⟨hf, hp⟩
    obtain ⟨hwf, hexec⟩ := exec_selreg_expansion hf hp s
    rw [hexec]
    exact setctlMergesAndTransmits _ _ s hwf hc hlow
  · exact fun hrange => exec_of_beginCommand_rangeError rfl (beginSelreg_of_out_of_range hrange s)

/-! ## The data commands -/

theorem beginSetfreq_of_regOperand (r : Reg) {raw : Raw48} (h : hzOutOfRange (hzOperand raw) s.config.fmclk = false) :
    beginSetfreq (regOperand r) raw s = (s.writeFCache r raw).startSending
      (freqWords (writeModeOf s.ctrl) (encodeFrequencyWord (hzOperand raw) s.config.fmclk) r) := by
  simp [beginSetfreq, h]

theorem beginSetfreq_of_out_of_range {reg : U8} {raw : Raw48}
    (h : 1 < reg.toNat ∨ hzOutOfRange (hzOperand raw) s.config.fmclk = true) :
    beginSetfreq reg raw s = raiseRangeError s := by
  unfold beginSetfreq
  rcases h with h | h
  · rw [regSelect_eq_none h]
  · cases regSelect reg <;> simp [h]

theorem beginSetfreq_cases (reg : U8) (raw : Raw48) (s : State) : beginSetfreq reg raw s = raiseRangeError s ∨
    ∃ r, reg = regOperand r ∧ beginSetfreq reg raw s = (s.writeFCache r raw).startSending
      (freqWords (writeModeOf s.ctrl) (encodeFrequencyWord (hzOperand raw) s.config.fmclk) r) := by
  cases hz : hzOutOfRange (hzOperand raw) s.config.fmclk with
  | true => exact .inl (beginSetfreq_of_out_of_range (.inr hz))
  | false =>
    rcases regSelect_cases reg with ⟨rfl, -⟩ | ⟨rfl, -⟩ | ⟨h, -⟩
    · exact .inr ⟨.r0, rfl, beginSetfreq_of_regOperand .r0 hz⟩
    · exact .inr ⟨.r1, rfl, beginSetfreq_of_regOperand .r1 hz⟩
    · exact .inl (beginSetfreq_of_out_of_range (.inl h))

/-- Settles O26: the operand passes the validation or it does not, and the write mode gives the number of words. -/
theorem setfreqTransmitsByWriteMode : Obligations.SetfreqTransmitsByWriteMode := by
  intro reg raw s hlow
  constructor
  · rintro r rfl hnonneg hlt
    have hz : hzOutOfRange (hzOperand raw) s.config.fmclk = false := by
      rw [Bool.eq_false_iff, ne_eq, hzOutOfRange_iff]
      omega
    rw [exec_command rfl, beginCommand, beginSetfreq_of_regOperand r hz]
    have hlow' : ResetLow 2 (s.writeFCache r raw) := hlow.of_resetLine_eq rfl
    refine congrArg Host.Outcome.next ?_
    cases writeModeOf s.ctrl with
    | both => exact transmitPhase_two _ _ hlow'
    | mostSignificantOnly => exact transmitPhase_one _ (hlow'.mono (by decide))
    | leastSignificantOnly => exact transmitPhase_one _ (hlow'.mono (by decide))
  · intro hrange
    rw [← hzOutOfRange_iff] at hrange
    exact exec_of_beginCommand_rangeError rfl (beginSetfreq_of_out_of_range hrange)

theorem beginSetphase_of_regOperand (r : Reg) (unit : AngleUnit) (raw : Raw48) (s : State) :
    beginSetphase (regOperand r) unit raw s =
      (s.writePCache r ⟨unit, raw⟩).startSending [encodePhaseWord (angleOperand raw) unit r] := by
  simp [beginSetphase]

theorem beginSetphase_of_out_of_range {reg : U8} (h : 1 < reg.toNat) (unit : AngleUnit) (raw : Raw48) (s : State) :
    beginSetphase reg unit raw s = raiseRangeError s := by
  simp [beginSetphase, regSelect_eq_none h]

theorem beginSetphase_cases (reg : U8) (unit : AngleUnit) (raw : Raw48) (s : State) :
    beginSetphase reg unit raw s = raiseRangeError s ∨
    ∃ r, reg = regOperand r ∧ beginSetphase reg unit raw s =
      (s.writePCache r ⟨unit, raw⟩).startSending [encodePhaseWord (angleOperand raw) unit r] := by
  rcases regSelect_cases reg with ⟨rfl, -⟩ | ⟨rfl, -⟩ | ⟨h, -⟩
  · exact .inr ⟨.r0, rfl, beginSetphase_of_regOperand .r0 unit raw s⟩
  · exact .inr ⟨.r1, rfl, beginSetphase_of_regOperand .r1 unit raw s⟩
  · exact .inl (beginSetphase_of_out_of_range h unit raw s)

/-- Settles O27: no angle is out of range, and there is one word whatever the write mode. -/
theorem setphaseTransmitsOneWord : Obligations.SetphaseTransmitsOneWord := by
  intro reg unit raw s hlow
  constructor
  · rintro r rfl
    rw [exec_command rfl, beginCommand, beginSetphase_of_regOperand]
    exact congrArg Host.Outcome.next (transmitPhase_one _ (hlow.of_resetLine_eq rfl))
  · exact fun hrange => exec_of_beginCommand_rangeError rfl (beginSetphase_of_out_of_range hrange unit raw s)

/-! ## The transactions of a command -/

/-- A transmit phase that ends with Ok sent all its words (R150). -/
theorem Sent.length_txLog_of_ok (h : Sent ws u t) (hok : t.statusLog = u.statusLog ++ [.ok]) :
    t.txLog.length = u.txLog.length + ws.length := by
  obtain ⟨es, st, hlog, hstatus, ⟨rfl, -, -⟩ | ⟨-, -, -, -, -, rfl, -⟩⟩ := h.log
  · simp [hlog]
  · simp [hok] at hstatus

/-- Only `SETFREQ` sends another number of words than one (R157). -/
theorem Update.length_eq_one {i : Instr} (h : Update i s u ws) (hi : ∀ reg raw, i ≠ .setfreq reg raw) :
    ws.length = 1 := by
  cases h with
  | freq reg raw r hfreq => exact absurd hfreq (hi reg raw)
  | control => rfl
  | phase => rfl

theorem length_freqWords (m : WriteMode) (W : U28) (r : Reg) :
    (freqWords m W r).length = if m = .both then 2 else 1 := by
  cases m <;> rfl

theorem length_of_beginSetfreq {reg : U8} {raw : Raw48} (h : beginSetfreq reg raw s = u.startSending ws) :
    ws.length = if writeModeOf s.ctrl = .both then 2 else 1 := by
  rcases beginSetfreq_cases reg raw s with hb | ⟨r, -, hb⟩
  · cases congrArg State.seq (h.symm.trans hb)
  · cases congrArg State.seq (h.symm.trans hb)
    exact length_freqWords _ _ r

/-- Settles O33: a command that ends with Ok sent all its words, of which only `SETFREQ` can have two. -/
theorem transactionsPerCommand : Obligations.TransactionsPerCommand := by
  intro i s t hi hlow hexec hok
  cases exec_command_cases hi hexec with
  | range => simp [raiseRangeError] at hok
  | reset t hreset hhigh => exact absurd hlow hhigh
  | sent u t ws hb hu hsent =>
    obtain ⟨-, hlog, hstatus, -⟩ := hu.surroundings
    rw [hsent.length_txLog_of_ok (hstatus ▸ hok), hlog]
    congr 1
    split
    next => exact length_of_beginSetfreq hb
    next hne => exact hu.length_eq_one hne

/-! ## What a command leaves alone -/

/-- What a command of which no reset is sampled leaves: what its update wrote, the presented commands, `IDLE`, and the
effect of a step over the words sent (R150, R160). -/
structure CommandEffect (i : Instr) (s t : State) : Prop where
  ctrl : t.ctrl = (beginCommand i s).ctrl
  fcache : t.fcache = (beginCommand i s).fcache
  pcache : t.pcache = (beginCommand i s).pcache
  cmdPort : t.cmdPort = s.cmdPort
  seq : t.seq = .idle
  step : ∃ ws, StepEffect ws s t

theorem commandEffect_of_exec {i : Instr} (hi : i.isCommand = true) (hlow : ResetLow 2 s) (h : exec i s = .next t) :
    CommandEffect i s t := by
  cases exec_command_cases hi h with
  | range hb => exact ⟨by rw [hb], by rw [hb], by rw [hb], rfl, rfl, [], .of_frame rfl rfl rfl rfl rfl rfl⟩
  | reset t hreset hhigh => exact absurd hlow hhigh
  | sent u t ws hb hu hsent =>
    exact ⟨by rw [hb, hsent.ctrl]; rfl, by rw [hb, hsent.fcache]; rfl, by rw [hb, hsent.pcache]; rfl,
      hsent.cmdPort.trans hu.surroundings.cmdPort, hsent.seq, ws, .of_sent hu hsent⟩

/-- An update of `CTRL` with values under its mask keeps the bits outside the mask (R151). -/
theorem setControlFields_ctrl_and_not {mask val : U16} (hc : s.ctrl &&& ctrlRsvd = 0#16)
    (hv : val &&& ~~~mask = 0#16) : (setControlFields mask val s).ctrl &&& ~~~mask = s.ctrl &&& ~~~mask := by
  have hctrl : (setControlFields mask val s).ctrl = mergeFields s.ctrl mask val &&& ctrlImpl := rfl
  calc (setControlFields mask val s).ctrl &&& ~~~mask
      = (mergeFields s.ctrl mask val &&& ~~~mask) &&& ctrlImpl := by
        rw [hctrl, BitVec.and_assoc, BitVec.and_comm ctrlImpl, ← BitVec.and_assoc]
    _ = (s.ctrl &&& ~~~mask) &&& ctrlImpl := by
        rw [mergeFields, BitVec.and_or_distrib_right, hv, BitVec.and_assoc, BitVec.and_self, BitVec.or_zero]
    _ = s.ctrl &&& ~~~mask := by
        rw [BitVec.and_assoc, BitVec.and_comm (~~~mask), ← BitVec.and_assoc, (reserved_zero_iff _).1 hc]

theorem writeModeVal_and_not (mode : WriteMode) : writeModeVal mode &&& ~~~0x3000#16 = 0#16 := by
  cases mode <;> decide

theorem selregVal_and_not (f p : Reg) : selregVal f p &&& ~~~0x0C00#16 = 0#16 := by
  cases f <;> cases p <;> decide

theorem beginSelreg_cases (fsel psel : U8) (s : State) : beginSelreg fsel psel s = raiseRangeError s ∨
    ∃ f p, beginSelreg fsel psel s = setControlFields 0x0C00#16 (selregVal f p) s := by
  unfold beginSelreg
  cases regSelect fsel with
  | none => exact .inl rfl
  | some f =>
    cases regSelect psel with
    | none => exact .inl rfl
    | some p => exact .inr ⟨f, p, rfl⟩

/-- A cache entry that the operand does not name is kept (R160). -/
theorem Pair.get_set_of_regOperand_ne {α : Type} (p : Pair α) (v : α) {q r : Reg} (h : regOperand r ≠ regOperand q) :
    (p.set r v).get q = p.get q :=
  Pair.get_set_of_ne p v fun hqr => h (congrArg regOperand hqr.symm)

/-- Settles O34: the effect of a command, then for each the frame of its update. -/
theorem commandsKeepTheirFrame : Obligations.CommandsKeepTheirFrame := by
  intro i s t hi hc hlow hexec
  obtain ⟨hctrl, hfcache, hpcache, hport, hseq, ws, heffect⟩ := commandEffect_of_exec hi hlow hexec
  obtain ⟨es, hlog, -, -, hfault⟩ := heffect.records
  refine ⟨heffect.config, hport, fun h => hfault.2 (.inl h), hseq, ⟨es, hlog⟩, heffect.ctrl hc, ?_⟩
  cases i with
  | setctl mask val =>
    refine ⟨fun hwf => ?_, hfcache, hpcache⟩
    rw [hctrl]
    exact setControlFields_ctrl_and_not hc (wellFormed_setctl hwf).2
  | setwmode mode =>
    refine ⟨?_, hfcache, hpcache⟩
    rw [hctrl]
    exact setControlFields_ctrl_and_not hc (writeModeVal_and_not mode)
  | setomode mode =>
    refine ⟨?_, hfcache, hpcache⟩
    rw [hctrl]
    exact setControlFields_ctrl_and_not hc (outputModeBits_and_not s.config mode)
  | selreg fsel psel =>
    simp only [hctrl, hfcache, hpcache, beginCommand]
    rcases beginSelreg_cases fsel psel s with hb | ⟨f, p, hb⟩ <;> rw [hb]
    · exact ⟨rfl, rfl, rfl⟩
    · exact ⟨setControlFields_ctrl_and_not hc (selregVal_and_not f p), rfl, rfl⟩
  | setfreq reg raw =>
    simp only [hctrl, hfcache, hpcache, beginCommand]
    rcases beginSetfreq_cases reg raw s with hb | ⟨r, rfl, hb⟩ <;> rw [hb]
    · exact ⟨rfl, rfl, fun _ => rfl, fun _ => rfl⟩
    · exact ⟨rfl, rfl, Pair.get_set_of_regOperand_ne (q := .r0) _ _, Pair.get_set_of_regOperand_ne (q := .r1) _ _⟩
  | setphase reg unit raw =>
    simp only [hctrl, hfcache, hpcache, beginCommand]
    rcases beginSetphase_cases reg unit raw s with hb | ⟨r, rfl, hb⟩ <;> rw [hb]
    · exact ⟨rfl, rfl, fun _ => rfl, fun _ => rfl⟩
    · exact ⟨rfl, rfl, Pair.get_set_of_regOperand_ne (q := .r0) _ _, Pair.get_set_of_regOperand_ne (q := .r1) _ _⟩
  | ctrlw _ | freq0w _ | freq1w _ | phase0w _ | phase1w _ => trivial

/-! ## What an emitted word leaves alone -/

@[simp] theorem transmitWord_pcache (w : U16) (s : State) : (transmitWord w s).pcache = s.pcache := by
  rw [transmitWord_eq]
  cases s.seq <;> cases s.nextAnswer <;> simp [apply_ite State.pcache]

@[simp] theorem transmitWord_cmdPort (w : U16) (s : State) : (transmitWord w s).cmdPort = s.cmdPort := by
  rw [transmitWord_eq]
  cases s.seq <;> cases s.nextAnswer <;> simp [apply_ite State.cmdPort]

@[simp] theorem transmitWord_resetLine (w : U16) (s : State) : (transmitWord w s).resetLine = s.resetLine := by
  rw [transmitWord_eq]
  cases s.seq <;> cases s.nextAnswer <;> simp [apply_ite State.resetLine]

/-- An instruction that is no command transmits a word (R81). -/
theorem exec_of_not_isCommand {i : Instr} (hi : i.isCommand = false) :
    ∃ w, ∀ s, exec i s = .next (transmitWord w s) := by
  cases i with
  | setctl _ _ | setfreq _ _ | setphase _ _ _ | setwmode _ | setomode _ | selreg _ _ => cases hi
  | ctrlw _ | freq0w _ | freq1w _ | phase0w _ | phase1w _ => exact ⟨_, fun _ => rfl⟩

/-- Settles O35: an emitted word is the transmission of a word, which keeps all of these. -/
theorem emittedWordsKeepTheirFrame : Obligations.EmittedWordsKeepTheirFrame := by
  intro i s t hi hexec
  obtain ⟨w, hw⟩ := exec_of_not_isCommand hi
  obtain rfl := Host.Outcome.next.inj ((hw s).symm.trans hexec)
  obtain ⟨es, -, -, -, hfault⟩ := records_transmitWord w s
  exact ⟨transmitWord_ctrl w s, transmitWord_fcache w s, transmitWord_pcache w s, transmitWord_config w s,
    transmitWord_cmdPort w s, transmitWord_resetLine w s, fun h => hfault.2 (.inl h)⟩

/-! ## What a command does not read -/

/-- The two states agree in all that a command reads (R159). -/
structure SameInputs (s s' : State) : Prop where
  ctrl : s'.ctrl = s.ctrl
  config : s'.config = s.config
  resetLine : s'.resetLine = s.resetLine
  answers : s'.answers = s.answers
  draws : s'.draws = s.draws

/-- From `s` to `t` and from `s'` to `t'` the same transactions, answers and status were added, and `CTRL` came out the
same. -/
structure SameRun (s s' t t' : State) : Prop where
  ctrl : t'.ctrl = t.ctrl
  answers : t'.answers = t.answers
  draws : t'.draws = t.draws
  log : ∃ es st, t.txLog = s.txLog ++ es ∧ t'.txLog = s'.txLog ++ es ∧ es.length ≤ 2 ∧
    t.statusLog = s.statusLog ++ [st] ∧ t'.statusLog = s'.statusLog ++ [st]

section
variable {s' t' u' : State}

theorem SameInputs.nextAnswer (h : SameInputs s s') : s'.nextAnswer = s.nextAnswer := by
  rw [State.nextAnswer, State.nextAnswer, h.answers, h.draws]

theorem SameInputs.secondAnswer (h : SameInputs s s') : s'.secondAnswer = s.secondAnswer := by
  rw [State.secondAnswer, State.secondAnswer, h.answers, h.draws]

theorem SameInputs.afterOneWord (h : SameInputs s s') (w : U16) :
    SameRun s s' (afterOneWord w s) (afterOneWord w s') := by
  refine ⟨h.ctrl, by simp [h.answers], by simp [h.draws], [⟨w, s.nextAnswer⟩], statusOfAnswer s.nextAnswer, rfl, ?_,
    by simp, rfl, ?_⟩ <;> simp [h.nextAnswer]

theorem SameInputs.afterTwoWords (h : SameInputs s s') (w₀ w₁ : U16) :
    SameRun s s' (afterTwoWords w₀ w₁ s) (afterTwoWords w₀ w₁ s') := by
  unfold Machine.afterTwoWords
  rw [h.nextAnswer]
  cases s.nextAnswer with
  | err => exact h.afterOneWord w₀
  | ok =>
    rw [h.secondAnswer, h.answers, h.draws]
    exact ⟨h.ctrl, rfl, rfl, [⟨w₀, .ok⟩, ⟨w₁, s.secondAnswer⟩], statusOfAnswer s.secondAnswer,
      rfl, rfl, by simp, rfl, rfl⟩

/-- The transmit phase over the words of a command, reset staying low. -/
theorem SameInputs.transmitPhase (h : SameInputs s s') (hlow : ResetLow 2 s) (hne : ws ≠ []) (hlen : ws.length ≤ 2) :
    SameRun s s' (transmitPhase (s.startSending ws)) (transmitPhase (s'.startSending ws)) := by
  have hlow' : ResetLow 2 s' := hlow.of_resetLine_eq h.resetLine
  match ws, hne, hlen with
  | [w], _, _ =>
    rw [transmitPhase_one w (hlow.mono (by decide)), transmitPhase_one w (hlow'.mono (by decide))]
    exact h.afterOneWord w
  | [w₀, w₁], _, _ =>
    rw [transmitPhase_two w₀ w₁ hlow, transmitPhase_two w₀ w₁ hlow']
    exact h.afterTwoWords w₀ w₁

theorem setControlFields_congr (h : SameInputs s s') (mask val : U16) :
    (setControlFields mask val s').seq = (setControlFields mask val s).seq ∧
      (setControlFields mask val s').ctrl = (setControlFields mask val s).ctrl := by
  simp only [setControlFields, startSending_seq, startSending_ctrl, writeCtrl_ctrl, h.ctrl, and_self]

/-- The words of a command and the `CTRL` it writes are computed from `CTRL` and the configuration (R159). -/
theorem beginCommand_congr {i : Instr} (hi : i.isCommand = true) (h : SameInputs s s') :
    (beginCommand i s').seq = (beginCommand i s).seq ∧ (beginCommand i s').ctrl = (beginCommand i s).ctrl := by
  cases i with
  | setctl mask val => exact setControlFields_congr h mask val
  | setwmode mode => exact setControlFields_congr h 0x3000#16 (writeModeVal mode)
  | setomode mode =>
    rw [beginCommand, beginSetomode, h.config]
    exact setControlFields_congr h omMask (outputModeBits s.config mode)
  | selreg fsel psel =>
    simp only [beginCommand, beginSelreg]
    cases regSelect fsel with
    | none => exact ⟨rfl, h.ctrl⟩
    | some f =>
      cases regSelect psel with
      | none => exact ⟨rfl, h.ctrl⟩
      | some p => exact setControlFields_congr h 0x0C00#16 (selregVal f p)
  | setfreq reg raw =>
    simp only [beginCommand, beginSetfreq, h.ctrl, h.config]
    cases regSelect reg with
    | none => exact ⟨rfl, h.ctrl⟩
    | some r => cases hzOutOfRange (hzOperand raw) s.config.fmclk <;> exact ⟨rfl, h.ctrl⟩
  | setphase reg unit raw =>
    simp only [beginCommand, beginSetphase]
    cases regSelect reg <;> exact ⟨rfl, h.ctrl⟩
  | ctrlw _ | freq0w _ | freq1w _ | phase0w _ | phase1w _ => cases hi

/-- Updates that leave the same `CTRL` leave the inputs alike. -/
theorem SameInputs.of_surroundings (h : SameInputs s s') (hu : SameSurroundings s u) (hu' : SameSurroundings s' u')
    (hctrl : u'.ctrl = u.ctrl) : SameInputs u u' where
  ctrl := hctrl
  config := by rw [hu'.config, h.config, hu.config]
  resetLine := by rw [hu'.resetLine, h.resetLine, hu.resetLine]
  answers := by rw [hu'.answers, h.answers, hu.answers]
  draws := by rw [hu'.draws, h.draws, hu.draws]

/-- Updates add nothing to the logs. -/
theorem SameRun.of_surroundings (h : SameRun u u' t t') (hu : SameSurroundings s u) (hu' : SameSurroundings s' u') :
    SameRun s s' t t' :=
  ⟨h.ctrl, h.answers, h.draws, by simpa only [hu.txLog, hu'.txLog, hu.statusLog, hu'.statusLog] using h.log⟩

theorem SameInputs.raiseRangeError (h : SameInputs s s') : SameRun s s' (raiseRangeError s) (raiseRangeError s') :=
  ⟨h.ctrl, h.answers, h.draws, [], .rangeError, by simp [Machine.raiseRangeError]⟩

/-- A command from two states that agree in what it reads (R159). -/
theorem SameInputs.command {i : Instr} (h : SameInputs s s') (hi : i.isCommand = true) (hlow : ResetLow 2 s) :
    SameRun s s' (Machine.transmitPhase (beginCommand i s)) (Machine.transmitPhase (beginCommand i s')) := by
  obtain ⟨hseq, hctrl⟩ := beginCommand_congr hi h
  rcases beginCommand_cases hi s with hb | ⟨u, ws, hb, hu⟩ <;>
    rcases beginCommand_cases hi s' with hb' | ⟨u', ws', hb', hu'⟩ <;> rw [hb, hb'] at hseq hctrl ⊢
  · rw [transmitPhase_idle rfl, transmitPhase_idle rfl]
    exact h.raiseRangeError
  · cases hseq
  · cases hseq
  · cases hseq
    have hinputs : SameInputs u u' := h.of_surroundings hu.surroundings hu'.surroundings hctrl
    have hlow' : ResetLow 2 u := hlow.of_resetLine_eq hu.surroundings.resetLine
    exact (hinputs.transmitPhase hlow' hu.ne_nil hu.length_le).of_surroundings hu.surroundings hu'.surroundings

end

/-- Settles O40: both runs compute the same words and get the same answers to them. -/
theorem commandsIgnoreCachesFaultAndLog : Obligations.CommandsIgnoreCachesFaultAndLog := by
  intro i s s' t t' hi hlow hctrl hconfig hline hanswers hdraws hexec hexec'
  obtain rfl := Host.Outcome.next.inj ((exec_command hi s).symm.trans hexec)
  obtain rfl := Host.Outcome.next.inj ((exec_command hi s').symm.trans hexec')
  have hinputs : SameInputs s s' := ⟨hctrl, hconfig, hline, hanswers, hdraws⟩
  obtain ⟨hctrl', hanswers', hdraws', hlog⟩ := hinputs.command hi hlow
  exact ⟨hctrl', hanswers', hdraws', hlog⟩

/-! ## The port -/

/-- The command word that is taken is the first one at the port (R158). -/
theorem popCommand_eq {c : CommandWord} {rest : List CommandWord} (h : s.cmdPort = c :: rest) :
    s.popCommand = { s with cmdPort := rest } := by
  rw [State.popCommand, h, List.tail_cons]

theorem fetch_of_idle (hr : s.resetAsserted = false) (hs : s.seq = .idle) : fetch s = fetchCommand s.popReset := by
  simp [fetch, hr, hs]

/-- Settles O41: the fetch takes the word from the port and decodes it. -/
theorem stepRunsPresentedCommand : Obligations.StepRunsPresentedCommand := by
  intro s c rest i hlow hs hp hd
  have hport : s.popReset.cmdPort = c :: rest := hp
  have hfetch : fetch s = .instruction i s.popReset.popCommand := by
    simp only [fetch_of_idle hlow.resetAsserted hs, fetchCommand, hport, hd]
  rw [step, hfetch, popCommand_eq hport, popReset_eq_drop]

/-- Settles O44: the fetch finds nothing at the port. -/
theorem idleBlockWaits : Obligations.IdleBlockWaits := by
  intro s hlow hs hp
  have hport : s.popReset.cmdPort = [] := hp
  have hfetch : fetch s = .waiting s.popReset := by
    simp only [fetch_of_idle hlow.resetAsserted hs, fetchCommand, hport]
  rw [step, hfetch, popReset_eq_drop]

/-- Settles O45: with a command in progress the step sends the word at its position, or ends the command. -/
theorem presentedCommandIsHeld : Obligations.PresentedCommandIsHeld := by
  intro s t ws k hs hlow hstep
  cases stepTo_of_step hstep with
  | reset hr => exact absurd hlow (not_resetLow_of_resetAsserted hr 0)
  | waits _ hidle | illegal _ _ _ _ hidle | command _ _ _ _ _ hidle => simp [hidle] at hs
  | finished => exact ⟨rfl, rfl, [], by simp⟩
  | word vs j w =>
    obtain ⟨es, hlog, hlen, -⟩ := records_transmitWord w s.popReset
    exact ⟨transmitWord_cmdPort w _, transmitWord_ctrl w _, es, hlog, hlen⟩

end Sys2Proof.Machine
end

section
/-! SUPPORT. The statuses of 60_exceptions.md: the one status of every command (R190, R202), what raises `RangeError`
and that it leaves no trace (R191, R192), an illegal word (R193), and what a `TransportError` keeps and drops (R197,
R198). -/

namespace Sys2Proof.Machine

variable {s t u : State} {i : Instr} {ws : List U16} {st : Status}

/-! ## The status of a command -/

/-- From `s` to `t` the one status `st` was returned, and it is `TransportError` exactly when a transaction made on the
way was answered Err (R197, R202). -/
structure Returns (st : Status) (s t : State) : Prop where
  statusLog : t.statusLog = s.statusLog ++ [st]
  log : ∃ es, t.txLog = s.txLog ++ es ∧ (st = .transportError ↔ ∃ e ∈ es, e.result = .err)

theorem Returns.endCommand (hst : st ≠ .transportError) (s : State) : Returns st s (s.endCommand st) :=
  ⟨rfl, [], by simp, by simp [hst]⟩

theorem Returns.of_surroundings (h : Returns st u t) (hu : SameSurroundings s u) : Returns st s t :=
  ⟨hu.statusLog ▸ h.statusLog, hu.txLog ▸ h.log⟩

/-- Reading the reset line and the port returns nothing and transmits nothing (R158, R230). -/
theorem Returns.of_popCommand_popReset (h : Returns st s.popReset.popCommand t) : Returns st s t :=
  ⟨h.statusLog, h.log⟩

theorem Returns.transportError_iff (h : Returns st s t) :
    st = .transportError ↔ ∃ es, t.txLog = s.txLog ++ es ∧ ∃ e ∈ es, e.result = .err := by
  obtain ⟨es, hlog, herr⟩ := h.log
  simp [herr, hlog]

/-- The transmit phase ends with Ok or `TransportError` (R150). -/
theorem Sent.exists_returns (h : Sent ws u t) : ∃ st, (st = .ok ∨ st = .transportError) ∧ Returns st u t := by
  obtain ⟨es, st, hlog, hstatus, ⟨rfl, rfl, -⟩ | ⟨sent, w, rest, -, rfl, rfl, -⟩⟩ := h.log
  · exact ⟨.ok, .inl rfl, hstatus, _, hlog, by simp⟩
  · exact ⟨.transportError, .inr rfl, hstatus, _, hlog, by simp⟩

theorem startSending_ne_raiseRangeError (ws : List U16) (u s : State) : u.startSending ws ≠ raiseRangeError s :=
  fun h => nomatch congrArg State.seq h

/-- A command of which no reset is sampled fails its validation, or ends with Ok or `TransportError` (R150, R190). -/
theorem range_or_returns_of_exec (hi : i.isCommand = true) (hlow : ResetLow 2 s) (hexec : exec i s = .next t) :
    (beginCommand i s = raiseRangeError s ∧ t = raiseRangeError s) ∨
    (beginCommand i s ≠ raiseRangeError s ∧ ∃ st, (st = .ok ∨ st = .transportError) ∧ Returns st s t) := by
  cases exec_command_cases hi hexec with
  | range hb => exact .inl ⟨hb, rfl⟩
  | reset t hreset hhigh => exact absurd hlow hhigh
  | sent u t ws hb hu hsent =>
    obtain ⟨st, hst, hreturns⟩ := hsent.exists_returns
    exact .inr ⟨hb ▸ startSending_ne_raiseRangeError ws u s, st, hst, hreturns.of_surroundings hu.surroundings⟩

/-- Settles O47: an illegal word, a failed validation and a transmit phase return one status each. -/
theorem oneStatusPerCommand : Obligations.OneStatusPerCommand := by
  intro s t c rest hlow hs hp hstep
  cases stepTo_of_step hstep with
  | reset hr => exact absurd hlow (not_resetLow_of_resetAsserted hr 2)
  | waits _ _ hp' => simp [hp'] at hp
  | finished _ _ _ hs' | word _ _ _ _ hs' => simp [hs] at hs'
  | illegal c' rest' e _ _ hp' hd =>
    obtain ⟨rfl, rfl⟩ := List.cons.inj (hp.symm.trans hp')
    have hreturns : Returns .illegalCommand s (raiseIllegalCommand s.popReset.popCommand) :=
      Returns.of_popCommand_popReset (.endCommand (by decide) _)
    exact ⟨congrArg List.tail hp, .illegalCommand, hreturns.statusLog, hreturns.transportError_iff, by simp [hd]⟩
  | command c' rest' i t _ _ hp' hd hi hexec =>
    obtain ⟨rfl, rfl⟩ := List.cons.inj (hp.symm.trans hp')
    have hlow' : ResetLow 2 s.popReset.popCommand := hlow.popReset.of_resetLine_eq rfl
    have hport : t.cmdPort = rest := (commandEffect_of_exec hi hlow' hexec).cmdPort.trans (congrArg List.tail hp)
    have hstatus : ∃ st, st ≠ .illegalCommand ∧ Returns st s.popReset.popCommand t := by
      rcases range_or_returns_of_exec hi hlow' hexec with ⟨-, rfl⟩ | ⟨-, st, hst, hreturns⟩
      · exact ⟨.rangeError, by decide, Returns.endCommand (by decide) _⟩
      · exact ⟨st, by rcases hst with rfl | rfl <;> decide, hreturns⟩
    obtain ⟨st, hlegal, hreturns⟩ := hstatus
    have hreturns' := hreturns.of_popCommand_popReset
    exact ⟨hport, st, hreturns'.statusLog, hreturns'.transportError_iff, by simp [hlegal, hd]⟩

/-! ## An illegal command word -/

/-- In `IDLE` only the status is new when a command ends (R201). -/
theorem endCommand_of_idle (hs : s.seq = .idle) (st : Status) :
    s.endCommand st = { s with statusLog := s.statusLog ++ [st] } := by
  rw [State.endCommand, ← hs]

/-- Settles O43: the word is taken from the port of the idle block and its status returned. -/
theorem illegalCommandChangesNothing : Obligations.IllegalCommandChangesNothing := by
  intro s c rest e hlow hs hp hd
  have hport : s.popReset.cmdPort = c :: rest := hp
  have hidle : s.popReset.popCommand.seq = .idle := hs
  rw [step_of_illegal hd hlow.resetAsserted hs hp, raiseIllegalCommand, endCommand_of_idle hidle, popCommand_eq hport,
    popReset_eq_drop]

/-! ## `RangeError` -/

/-- `RangeError` is the status of exactly the commands that fail their validation (R190, R191). -/
theorem statusLog_rangeError_iff (hi : i.isCommand = true) (hlow : ResetLow 2 s) (hexec : exec i s = .next t) :
    t.statusLog = s.statusLog ++ [.rangeError] ↔ beginCommand i s = raiseRangeError s := by
  rcases range_or_returns_of_exec hi hlow hexec with ⟨hb, rfl⟩ | ⟨hb, st, hst, hreturns⟩
  · exact ⟨fun _ => hb, fun _ => rfl⟩
  · rcases hst with rfl | rfl <;> simp [hreturns.statusLog, hb]

/-- Settles O32: the failed validation came before any update, and the block was idle. -/
theorem rangeErrorChangesNothing : Obligations.RangeErrorChangesNothing := by
  intro i s t hi hs hlow hexec hstatus
  have hb := (statusLog_rangeError_iff hi hlow hexec).1 hstatus
  calc t = raiseRangeError s := Host.Outcome.next.inj (hexec.symm.trans (exec_of_beginCommand_rangeError hi hb))
    _ = { s with statusLog := s.statusLog ++ [.rangeError] } := endCommand_of_idle hs .rangeError

/-- A select operand of at most 1 names a register (R97). -/
theorem exists_eq_regOperand {v : U8} (h : ¬ 1 < v.toNat) : ∃ r, v = regOperand r := by
  rcases regSelect_cases v with ⟨rfl, -⟩ | ⟨rfl, -⟩ | ⟨h', -⟩
  · exact ⟨.r0, rfl⟩
  · exact ⟨.r1, rfl⟩
  · exact absurd h' h

theorem setControlFields_ne_raiseRangeError (mask val : U16) (u s : State) :
    setControlFields mask val u ≠ raiseRangeError s :=
  startSending_ne_raiseRangeError _ _ s

theorem beginSetfreq_eq_raiseRangeError_iff (reg : U8) (raw : Raw48) (s : State) :
    beginSetfreq reg raw s = raiseRangeError s ↔
      1 < reg.toNat ∨ hzOutOfRange (hzOperand raw) s.config.fmclk = true := by
  refine ⟨fun h => ?_, beginSetfreq_of_out_of_range⟩
  by_contra hin
  obtain ⟨hreg, hz⟩ := not_or.1 hin
  obtain ⟨r, rfl⟩ := exists_eq_regOperand hreg
  rw [beginSetfreq_of_regOperand r (Bool.eq_false_iff.2 hz)] at h
  exact startSending_ne_raiseRangeError _ _ s h

theorem beginSetphase_eq_raiseRangeError_iff (reg : U8) (unit : AngleUnit) (raw : Raw48) (s : State) :
    beginSetphase reg unit raw s = raiseRangeError s ↔ 1 < reg.toNat := by
  refine ⟨fun h => ?_, fun hreg => beginSetphase_of_out_of_range hreg unit raw s⟩
  by_contra hreg
  obtain ⟨r, rfl⟩ := exists_eq_regOperand hreg
  rw [beginSetphase_of_regOperand] at h
  exact startSending_ne_raiseRangeError _ _ s h

theorem beginSelreg_of_regOperand (f p : Reg) (s : State) :
    beginSelreg (regOperand f) (regOperand p) s = setControlFields 0x0C00#16 (selregVal f p) s := by
  simp [beginSelreg]

theorem beginSelreg_eq_raiseRangeError_iff (fsel psel : U8) (s : State) :
    beginSelreg fsel psel s = raiseRangeError s ↔ 1 < fsel.toNat ∨ 1 < psel.toNat := by
  refine ⟨fun h => ?_, fun hsel => beginSelreg_of_out_of_range hsel s⟩
  by_contra hin
  obtain ⟨hf, hp⟩ := not_or.1 hin
  obtain ⟨f, rfl⟩ := exists_eq_regOperand hf
  obtain ⟨p, rfl⟩ := exists_eq_regOperand hp
  rw [beginSelreg_of_regOperand] at h
  exact setControlFields_ne_raiseRangeError _ _ s s h

/-- Settles O31: `RangeError` is a failed validation, and only three commands have one. -/
theorem rangeErrorExactly : Obligations.RangeErrorExactly := by
  intro i s t hi hlow hexec
  rw [statusLog_rangeError_iff hi hlow hexec]
  cases i with
  | setfreq reg raw =>
    exact (beginSetfreq_eq_raiseRangeError_iff reg raw s).trans (or_congr_right (hzOutOfRange_iff raw s.config.fmclk))
  | setphase reg unit raw => exact beginSetphase_eq_raiseRangeError_iff reg unit raw s
  | selreg fsel psel => exact beginSelreg_eq_raiseRangeError_iff fsel psel s
  | setctl _ _ | setwmode _ | setomode _ => exact iff_false_intro (setControlFields_ne_raiseRangeError _ _ s s)
  | ctrlw _ | freq0w _ | freq1w _ | phase0w _ | phase1w _ => cases hi

/-! ## `TransportError` -/

theorem SameSurroundings.nextAnswer (h : SameSurroundings s u) : u.nextAnswer = s.nextAnswer := by
  rw [State.nextAnswer, State.nextAnswer, h.answers, h.draws]

theorem SameSurroundings.secondAnswer (h : SameSurroundings s u) : u.secondAnswer = s.secondAnswer := by
  rw [State.secondAnswer, State.secondAnswer, h.answers, h.draws]

/-- After an Err to the first word of a command nothing more is sent (R198). -/
theorem transmitPhase_first_err {w₀ : U16} (hlow : ResetLow 2 u) (hlen : (w₀ :: ws).length ≤ 2)
    (ha : u.nextAnswer = .err) : transmitPhase (u.startSending (w₀ :: ws)) = { u with
      txLog := u.txLog ++ [⟨w₀, .err⟩], fault := true, seq := .idle
      statusLog := u.statusLog ++ [.transportError]
      resetLine := u.resetLine.drop 1, answers := u.answers.drop 1, draws := u.draws + 1 } := by
  have hafter : transmitPhase (u.startSending (w₀ :: ws)) = afterOneWord w₀ u := by
    match ws, hlen with
    | [], _ => exact transmitPhase_one w₀ (hlow.mono (by decide))
    | [w₁], _ => rw [transmitPhase_two w₀ w₁ hlow, afterTwoWords, ha]
  simp [hafter, afterOneWord, ha, statusOfAnswer]

/-- An Err to the second word of a command comes after the first was sent (R197). -/
theorem transmitPhase_second_err (w₀ w₁ : U16) (hlow : ResetLow 2 u) (ha : u.nextAnswer = .ok)
    (ha' : u.secondAnswer = .err) : transmitPhase (u.startSending [w₀, w₁]) = { u with
      txLog := u.txLog ++ [⟨w₀, .ok⟩, ⟨w₁, .err⟩], fault := true, seq := .idle
      statusLog := u.statusLog ++ [.transportError]
      resetLine := u.resetLine.drop 2, answers := u.answers.drop 2, draws := u.draws + 2 } := by
  simp [transmitPhase_two w₀ w₁ hlow, afterTwoWords, ha, ha', statusOfAnswer]

/-- Settles O30: the update leaves the logs and the inputs alone, and the transmit phase ends at the failed word. -/
theorem transportErrorKeepsUpdateAndDropsRest : Obligations.TransportErrorKeepsUpdateAndDropsRest := by
  intro i s w₀ ws hi hlow hseq
  rcases beginCommand_cases hi s with hb | ⟨u, words, hb, hu⟩
  · rw [hb] at hseq
    cases hseq
  · obtain rfl : words = w₀ :: ws := (SeqPos.sending.inj ((congrArg State.seq hb).symm.trans hseq)).1
    have hsame := hu.surroundings
    have hlow' : ResetLow 2 u := hlow.of_resetLine_eq hsame.resetLine
    rw [exec_command hi, hb, ← hsame.nextAnswer, ← hsame.secondAnswer, ← hsame.txLog, ← hsame.statusLog,
      ← hsame.resetLine, ← hsame.answers, ← hsame.draws]
    refine ⟨fun ha => ?_, fun w₁ hw ha ha' => ?_⟩
    · exact congrArg Host.Outcome.next (transmitPhase_first_err hlow' hu.length_le ha)
    · subst hw
      exact congrArg Host.Outcome.next (transmitPhase_second_err w₀ w₁ hlow' ha ha')

end Sys2Proof.Machine
end

section
/-! SUPPORT. Reset and hazards of 70_reset_and_hazards.md: the shadow against the control word the target is known to
hold (R233, R240), a frequency word in a split mode (R241), a command run word by word (R250), and a reset inside a
command (R230). -/

namespace Sys2Proof.Machine

variable {s t u : State} {i : Instr} {ws : List U16} {k : Nat} {w c : U16}

/-! ## The control word the target is known to hold -/

theorem isControlWord_iff_targetReg (w : U16) : isControlWord w = true ↔ targetReg w = .control := by
  rw [isControlWord, beq_iff_eq, targetReg]
  rcases tagField_cases w with htag | htag | htag | htag
  · simp [htag]
  · simp [htag]
  · simp [htag]
  · cases w.getLsbD 13 <;> simp [htag]

theorem isControlWord_freqWord (r : Reg) (half : U14) : isControlWord (freqWord r half) = false := by
  rw [isControlWord, tagField_freqWord]
  cases r <;> rfl

theorem isControlWord_phaseWord (r : Reg) (phase : U12) : isControlWord (phaseWord r phase) = false := by
  rw [isControlWord, tagField_phaseWord]
  rfl

theorem isControlWord_encodeControlWord (c : U16) : isControlWord (encodeControlWord c) = true := by
  rw [isControlWord, tagField_of_reserved (encodeControlWord_reserved c)]
  rfl

/-- A control word known after a transaction is that transaction's, or was known before a word for another register. -/
theorem TargetView.control_see_cases {v : TargetView} {e : TxEntry} (h : (v.see e).control = some c) :
    (isControlWord e.word = true ∧ e.word = c) ∨ (isControlWord e.word = false ∧ v.control = some c) := by
  rw [← Bool.not_eq_true, isControlWord_iff_targetReg]
  obtain ⟨w, a⟩ := e
  cases hn : neverEmitted w with
  | true => cases a <;> simp [see, receive, lose, hn, unknown] at h
  | false =>
    cases hreg : targetReg w with
    | control =>
      cases a with
      | ok => simpa [see, receive, hn, hreg] using h
      | err => simp [see, lose, hn, hreg] at h
    | freq r => cases a <;> simpa [see, receive, lose, hn, hreg] using h
    | phase r => cases a <;> simpa [see, receive, lose, hn, hreg] using h

/-- The same over several transactions. -/
theorem targetView_control_cases {log es : List TxEntry} (h : (targetView (log ++ es)).control = some c) :
    (∃ e ∈ es, isControlWord e.word = true ∧ e.word = c) ∨
    ((∀ e ∈ es, isControlWord e.word = false) ∧ (targetView log).control = some c) := by
  induction es generalizing log with
  | nil => exact .inr ⟨by simp, by simpa using h⟩
  | cons e es ih =>
    rw [List.append_cons] at h
    rcases ih h with ⟨e', he', hword⟩ | ⟨hothers, hknown⟩
    · exact .inl ⟨e', List.mem_cons_of_mem e he', hword⟩
    · rw [targetView_append] at hknown
      rcases TargetView.control_see_cases hknown with hword | ⟨hother, hbefore⟩
      · exact .inl ⟨e, List.mem_cons_self, hword⟩
      · exact .inr ⟨List.forall_mem_cons.2 ⟨hother, hothers⟩, hbefore⟩

/-! ## The shadow and the target -/

@[simp] theorem pending_idle : SeqPos.idle.pending = [] := rfl
@[simp] theorem pending_sending (ws : List U16) (k : Nat) : (SeqPos.sending ws k).pending = ws.drop k := rfl

theorem drop_of_getElem? (hw : ws[k]? = some w) : ws.drop k = w :: ws.drop (k + 1) := by
  obtain ⟨hk, rfl⟩ := List.getElem?_eq_some_iff.1 hw
  exact List.drop_eq_getElem_cons hk

/-- `c` is the shadow's value, or a control word is on its way (R233, R240). -/
def CurrentOrOnItsWay (s : State) (c : U16) : Prop := c = s.ctrl ∨ ∃ w ∈ s.seq.pending, isControlWord w = true

theorem CurrentOrOnItsWay.eq_ctrl (h : CurrentOrOnItsWay s c) (hpending : s.seq.pending = []) : c = s.ctrl := by
  rcases h with h | ⟨w, hw, -⟩
  · exact h
  · simp [hpending] at hw

/-- The relation after further transactions: their control words are the shadow's value, and where there is none, what
was known before is current or a control word is still on its way. -/
theorem ShadowMatches.of_log (hpending : ∀ w ∈ t.seq.pending, isControlWord w = true → w = t.ctrl)
    (hlog : t.fault = false → ∃ es, t.txLog = s.txLog ++ es ∧
      (∀ e ∈ es, isControlWord e.word = true → e.word = t.ctrl) ∧
      ((∀ e ∈ es, isControlWord e.word = false) →
        ∀ c, (targetView s.txLog).control = some c → CurrentOrOnItsWay t c)) :
    ShadowMatches t := by
  refine ⟨hpending, fun hfault c hknown => ?_⟩
  obtain ⟨es, heq, hsent, hbefore⟩ := hlog hfault
  rcases targetView_control_cases (heq ▸ hknown) with ⟨e, he, hcontrol, rfl⟩ | ⟨hnone, hknown⟩
  · exact .inl (hsent e he hcontrol)
  · exact hbefore hnone c hknown

/-- Nothing is known of the target after a reset (R232). -/
theorem shadowMatches_resetBlock (s : State) : ShadowMatches s.resetBlock :=
  ⟨fun _ hw => absurd hw List.not_mem_nil, fun _ _ hknown => nomatch hknown⟩

/-- Ending in `IDLE` with no word left, nothing sent and the shadow as it was. -/
theorem ShadowMatches.of_frame (h : ShadowMatches s) (hpending : s.seq.pending = []) (hctrl : t.ctrl = s.ctrl)
    (hseq : t.seq = .idle) (hlog : t.txLog = s.txLog) (hfault : t.fault = s.fault) : ShadowMatches t := by
  obtain ⟨-, hcurrent⟩ := h
  refine .of_log (s := s) (by simp [hseq]) fun hf => ⟨[], by simp [hlog], by simp, fun _ c hknown => ?_⟩
  exact .inl (hctrl ▸ CurrentOrOnItsWay.eq_ctrl (hcurrent (hfault ▸ hf) c hknown) hpending)

/-! ### One word -/

@[simp] theorem transmitWord_txLog (w : U16) (s : State) :
    (transmitWord w s).txLog = s.txLog ++ [⟨w, s.nextAnswer⟩] := by
  rw [transmitWord_eq]
  cases s.seq <;> cases ha : s.nextAnswer <;> simp [ha, apply_ite State.txLog]

/-- A word answered Ok leaves the words after it pending; one answered Err sets `FAULT` (R150, R197). -/
theorem pending_transmitWord_or_fault (w : U16) (hs : s.seq = .sending ws k) :
    ((transmitWord w s).seq.pending = ws.drop (k + 1) ∧ (transmitWord w s).fault = s.fault) ∨
    ((transmitWord w s).seq.pending = [] ∧ (transmitWord w s).fault = true) := by
  cases ha : s.nextAnswer with
  | err => rw [transmitWord_err w hs ha]; exact .inr ⟨rfl, rfl⟩
  | ok =>
    rcases Nat.lt_or_ge (k + 1) ws.length with hk | hk
    · rw [transmitWord_ok_more w hs ha hk]; exact .inl ⟨rfl, rfl⟩
    · rw [transmitWord_ok_last w hs ha hk]; exact .inl ⟨(List.drop_of_length_le hk).symm, rfl⟩

theorem ShadowMatches.transmitWord (h : ShadowMatches s) (hs : s.seq = .sending ws k) (hw : ws[k]? = some w) :
    ShadowMatches (transmitWord w s) := by
  obtain ⟨hpending, hcurrent⟩ := h
  rw [hs, pending_sending, drop_of_getElem? hw, List.forall_mem_cons] at hpending
  obtain ⟨hword, hrest⟩ := hpending
  rcases pending_transmitWord_or_fault w hs with ⟨hp, hf⟩ | ⟨hp, hf⟩
  · refine .of_log (s := s) (by simpa [hp] using hrest) fun hfault =>
      ⟨_, transmitWord_txLog w s, by simpa using hword, fun hother c hknown => ?_⟩
    have hother : isControlWord w = false := by simpa using hother
    have hc := hcurrent (hf ▸ hfault) c hknown
    rw [hs, pending_sending, drop_of_getElem? hw] at hc
    simpa [CurrentOrOnItsWay, hp, hother] using hc
  · exact .of_log (s := s) (by simp [hp]) (by simp [hf])

/-! ### A command -/

theorem encodeControlWord_writeCtrl (v : U16) (s : State) :
    encodeControlWord (s.writeCtrl v).ctrl = (s.writeCtrl v).ctrl := by
  rw [writeCtrl_ctrl, ← encodeControlWord_eq_and, encodeControlWord_of_reserved (encodeControlWord_reserved v)]

/-- A control word that a command sends is the shadow's value after its update (R151). -/
theorem Update.eq_ctrl_of_isControlWord (h : Update i s u ws) (hw : w ∈ ws) (hcontrol : isControlWord w = true) :
    w = u.ctrl := by
  cases h with
  | control mask val => rw [List.mem_singleton.1 hw, encodeControlWord_writeCtrl]
  | freq =>
    obtain ⟨half, rfl⟩ := freqWords_emitted hw
    simp [isControlWord_freqWord] at hcontrol
  | phase =>
    rw [List.mem_singleton.1 hw, encodePhaseWord, isControlWord_phaseWord] at hcontrol
    cases hcontrol

/-- A command that sends no control word leaves the shadow alone (R160). -/
theorem Update.ctrl_eq_of_no_controlWord (h : Update i s u ws) (hno : ∀ w ∈ ws, isControlWord w = false) :
    u.ctrl = s.ctrl := by
  cases h with
  | control mask val => simp [isControlWord_encodeControlWord] at hno
  | freq => rfl
  | phase => rfl

/-- A transmit phase that leaves `FAULT = 0` found it so, and every word was answered Ok (R39, R197). -/
theorem Sent.log_of_not_fault (h : Sent ws u t) (hf : t.fault = false) :
    u.fault = false ∧ t.txLog = u.txLog ++ ws.map (⟨·, .ok⟩) := by
  obtain ⟨es, st, hlog, -, ⟨rfl, -, hfault⟩ | ⟨-, -, -, -, -, -, hfault⟩⟩ := h.log
  · exact ⟨hfault ▸ hf, hlog⟩
  · rw [hf] at hfault
    cases hfault

theorem ShadowMatches.of_sent (h : ShadowMatches s) (hs : s.seq = .idle) (hu : Update i s u ws) (hsent : Sent ws u t) :
    ShadowMatches t := by
  obtain ⟨-, hcurrent⟩ := h
  refine .of_log (s := s) (by simp [hsent.seq]) fun hf => ?_
  obtain ⟨hfault, hlog⟩ := hsent.log_of_not_fault hf
  rw [hu.surroundings.fault] at hfault
  rw [hu.surroundings.txLog] at hlog
  refine ⟨_, hlog, List.forall_mem_map.2 fun w hw hcontrol => ?_, fun hno c hknown => .inl ?_⟩
  · exact (hu.eq_ctrl_of_isControlWord hw hcontrol).trans hsent.ctrl.symm
  · calc c = s.ctrl := CurrentOrOnItsWay.eq_ctrl (hcurrent hfault c hknown) (by simp [hs])
      _ = u.ctrl := (hu.ctrl_eq_of_no_controlWord (List.forall_mem_map.1 hno)).symm
      _ = t.ctrl := hsent.ctrl.symm

/-! ### One step -/

theorem ShadowMatches.of_stepTo (h : ShadowMatches s) (hstep : StepTo s t) : ShadowMatches t := by
  cases hstep with
  | reset => exact shadowMatches_resetBlock _
  | waits _ hs => exact h.of_frame (by simp [hs]) rfl hs rfl rfl
  | illegal _ _ _ _ hs => exact h.of_frame (by simp [hs]) rfl rfl rfl rfl
  | finished ws k _ hs hw =>
    exact h.of_frame (by simpa [hs] using hw) rfl rfl rfl rfl
  | word ws k w _ hs hw => exact ShadowMatches.transmitWord (s := s.popReset) h hs hw
  | command c rest i t _ hs _ _ hi hexec =>
    have h' : ShadowMatches s.popReset.popCommand := h
    cases exec_command_cases hi hexec with
    | range => exact h'.of_frame (by simp [hs]) rfl rfl rfl rfl
    | sent u t ws _ hu hsent => exact h'.of_sent hs hu hsent
    | reset t hreset =>
      obtain ⟨v, -, rfl⟩ := hreset.eq_resetBlock
      exact shadowMatches_resetBlock v

/-- Settles O55: each thing a step can do keeps the relation; it needs none of the clauses of `Inv`. -/
theorem stepKeepsShadowMatchingTarget : Obligations.StepKeepsShadowMatchingTarget :=
  fun _ _ _ hmatches hstep => hmatches.of_stepTo (stepTo_of_step hstep)

/-- Settles O56: the one word that `SETCTL` sends is the merged value of the shadow, and it was answered Ok. -/
theorem setctlPublishesShadow : Obligations.SetctlPublishesShadow := by
  intro mask val s t _ _ _ hlow hexec hstatus
  obtain rfl := Host.Outcome.next.inj ((exec_setctl_of_resetLow mask val hlow).symm.trans hexec)
  have hok : s.nextAnswer = .ok := by
    cases ha : s.nextAnswer with
    | ok => rfl
    | err => simp [ha, statusOfAnswer] at hstatus
  rw [afterOneWord_txLog, afterOneWord_ctrl, nextAnswer_writeCtrl, hok, targetView_append, List.foldl_cons,
    List.foldl_nil, TargetView.see_control (encodeControlWord_reserved _), TargetView.receiveControl_control,
    encodeControlWord_writeCtrl]

/-! ## A frequency word in a split mode -/

namespace TargetView

variable {v : TargetView}

/-- In MostSignificantOnly mode, with no pair broken, a frequency word replaces the high half (R65 (b), R241). -/
theorem receiveFreq_high (hcontrol : v.control = some c) (hmode : writeModeOf c = .mostSignificantOnly)
    (hready : v.pairing = .ready) (r : Reg) (half : U14) :
    v.receiveFreq r half = { v with freqHi := v.freqHi.set r (some half) } := by
  simp only [receiveFreq, hcontrol, hmode, receiveSplitHalf, hready]

/-- In LeastSignificantOnly mode, with no pair broken, a frequency word replaces the low half (R65 (b), R241). -/
theorem receiveFreq_low (hcontrol : v.control = some c) (hmode : writeModeOf c = .leastSignificantOnly)
    (hready : v.pairing = .ready) (r : Reg) (half : U14) :
    v.receiveFreq r half = { v with freqLo := v.freqLo.set r (some half) } := by
  simp only [receiveFreq, hcontrol, hmode, receiveSplitHalf, hready]

end TargetView

/-- Settles O58: a word in a split mode sets one half; the two halves sent one after the other make up the word. -/
theorem splitModesReplaceOneHalf : Obligations.SplitModesReplaceOneHalf := by
  refine ⟨fun log c W r _ hcontrol hready hmode => ?_, fun log c W r _ hcontrol hready hmode => ?_,
    fun log c d W r _ hc hd hlow hhigh houtside => ?_⟩
  · simp only [splitFrequencyWord, targetView_append, List.foldl_cons, List.foldl_nil, TargetView.see_freq,
      TargetView.receiveFreq_high hcontrol hmode hready]
    exact ⟨Pair.get_set _ r _, trivial⟩
  · simp only [splitFrequencyWord, targetView_append, List.foldl_cons, List.foldl_nil, TargetView.see_freq,
      TargetView.receiveFreq_low hcontrol hmode hready]
    exact ⟨Pair.get_set _ r _, trivial⟩
  · simp only [splitFrequencyWord, targetView_append, List.foldl_cons, List.foldl_nil, TargetView.see_control hc,
      TargetView.see_control hd, TargetView.see_freq, TargetView.receiveControl_outside_pair c houtside]
    rw [TargetView.receiveFreq_low rfl hlow rfl r (lsb14 W), TargetView.receiveControl_outside_pair d (by simp),
      TargetView.receiveFreq_high rfl hhigh rfl,
      TargetView.freqWord_eq_some (Pair.get_set _ r _) (Pair.get_set _ r _), msb14_append_lsb14]

/-! ## A command word by word -/

/-- The command in progress, if any, has at least one and at most `n` words left, none of them a word of R85. -/
def Sendable (n : Nat) (s : State) : Prop :=
  ∀ ws k, s.seq = .sending ws k → k < ws.length ∧ ws.length ≤ k + n ∧ ∀ w ∈ ws, neverEmitted w = false

theorem sendNext_of_getElem? (hs : s.seq = .sending ws k) (hw : ws[k]? = some w) : sendNext s = transmitWord w s := by
  simp only [sendNext, hs, hw]

/-- A round moves to the next position of the same words, or ends the command (R150, R230). -/
theorem sendNextUnlessReset_seq (hs : s.seq = .sending ws k) : (sendNextUnlessReset s).seq = .idle ∨
    ((sendNextUnlessReset s).seq = .sending ws (k + 1) ∧ k + 1 < ws.length) := by
  unfold sendNextUnlessReset
  cases s.resetAsserted with
  | true => exact .inl rfl
  | false =>
    have hs' : s.popReset.seq = .sending ws k := hs
    rw [if_neg Bool.false_ne_true]
    cases hw : ws[k]? with
    | none => simp [sendNext, hs, hw]
    | some w =>
      rw [sendNext_of_getElem? hs' hw]
      rcases transmitWord_seq w s.popReset with hidle | ⟨vs, j, hvs, hnext, hj⟩
      · exact .inl hidle
      · obtain ⟨rfl, rfl⟩ := SeqPos.sending.inj (hs'.symm.trans hvs)
        exact .inr ⟨hnext, hj⟩

theorem Sendable.sendNextUnlessReset {n : Nat} (h : Sendable (n + 1) s) (hs : s.seq = .sending ws k) :
    Sendable n (sendNextUnlessReset s) := by
  intro vs j hvs
  rcases sendNextUnlessReset_seq hs with hidle | ⟨hnext, hk⟩
  · simp [hidle] at hvs
  · obtain ⟨rfl, rfl⟩ := SeqPos.sending.inj (hnext.symm.trans hvs)
    obtain ⟨-, hlen, hemitted⟩ := h ws k hs
    exact ⟨hk, by omega, hemitted⟩

/-- A step inside a command is a round of the transmit phase (R150, R250). -/
theorem step_eq_sendNextUnlessReset (hs : s.seq = .sending ws k) (hk : k < ws.length)
    (hemitted : ∀ w ∈ ws, neverEmitted w = false) : step s = .next (sendNextUnlessReset s) := by
  cases hr : s.resetAsserted with
  | true => rw [step_of_resetAsserted hr, sendNextUnlessReset, if_pos hr]
  | false =>
    have hw : ws[k]? = some ws[k] := List.getElem?_eq_getElem hk
    obtain ⟨i, hd⟩ := ok_of_not_neverEmitted (hemitted _ (List.getElem_mem hk))
    rw [step, fetch_of_sending hr hs hw hd, sendNextUnlessReset, hr, if_neg Bool.false_ne_true,
      sendNext_of_getElem? (s := s.popReset) hs hw]
    exact exec_of_decodeEmitted hd s.popReset

/-- The transmit phase begins with a round (R150). -/
theorem transmitPhase_round (hs : s.seq = .sending ws k) (hk : k < ws.length) :
    transmitPhase s = transmitPhase (sendNextUnlessReset s) := by
  have hdrain : transmitPhase s = drain (ws.length - (k + 1)) (sendNextUnlessReset s) := by
    rw [transmitPhase, hs]
    simp only [show ws.length - k = ws.length - (k + 1) + 1 by omega, drain, hs]
  rw [hdrain]
  rcases sendNextUnlessReset_seq hs with hidle | ⟨hnext, -⟩
  · rw [drain_idle _ hidle, transmitPhase_idle hidle]
  · rw [transmitPhase, hnext]

theorem runCommand_eq_transmitPhase {n : Nat} (h : Sendable n s) : runCommand n s = .next (transmitPhase s) := by
  induction n generalizing s with
  | zero =>
    cases hs : s.seq with
    | idle => rw [runCommand, transmitPhase_idle hs]
    | sending ws k =>
      obtain ⟨hk, hlen, -⟩ := h ws k hs
      omega
  | succ n ih =>
    cases hs : s.seq with
    | idle => simp only [runCommand, hs, transmitPhase_idle hs]
    | sending ws k =>
      obtain ⟨hk, -, hemitted⟩ := h ws k hs
      simp only [runCommand, hs, step_eq_sendNextUnlessReset hs hk hemitted]
      rw [ih (h.sendNextUnlessReset hs), ← transmitPhase_round hs hk]

/-- A command has one or two words to send, or it has failed its validation (R150). -/
theorem sendable_beginCommand (hi : i.isCommand = true) (s : State) : Sendable 2 (beginCommand i s) := by
  intro vs k hvs
  rcases beginCommand_cases hi s with hb | ⟨u, ws, hb, hu⟩
  · rw [hb] at hvs
    cases hvs
  · rw [hb] at hvs
    obtain ⟨rfl, rfl⟩ := SeqPos.sending.inj hvs
    exact ⟨List.length_pos_of_ne_nil hu.ne_nil, by simpa using hu.length_le, hu.emitted⟩

/-- Settles O52: steps inside a command are rounds of its transmit phase, of which there are at most two. -/
theorem commandEqualsItsWordsStepByStep : Obligations.CommandEqualsItsWordsStepByStep := by
  intro i s hi
  rw [runCommand_eq_transmitPhase (sendable_beginCommand hi s), exec_command hi]

/-! ## A reset inside a command -/

/-- A command with words to send has made its update only. -/
theorem exists_update_of_sending (hi : i.isCommand = true) (hseq : (beginCommand i s).seq = .sending ws k) :
    ∃ u, SameSurroundings s u ∧ ws ≠ [] ∧ exec i s = .next (transmitPhase (u.startSending ws)) := by
  rw [exec_command hi]
  rcases beginCommand_cases hi s with hb | ⟨u, vs, hb, hu⟩
  · rw [hb] at hseq
    cases hseq
  · obtain ⟨rfl, -⟩ := SeqPos.sending.inj ((congrArg State.seq hb).symm.trans hseq)
    exact ⟨u, hu.surroundings, hu.ne_nil, by rw [hb]⟩

/-- Settles O3: the transmit phase samples the reset line before each word, and the update wrote no input. -/
theorem resetInsideCommandAbandonsIt : Obligations.ResetInsideCommandAbandonsIt := by
  constructor
  · intro i s ws rest hi hseq hline
    obtain ⟨u, hsame, hne, hexec⟩ := exists_update_of_sending hi hseq
    obtain ⟨w, ws, rfl⟩ := List.exists_cons_of_ne_nil hne
    have hasserted : u.resetAsserted = true := by simp [State.resetAsserted, hsame.resetLine, hline]
    rw [hexec, transmitPhase_reset w ws hasserted, State.resetBlock]
    simp [hsame.cmdPort, hsame.resetLine, hsame.answers, hsame.draws, hsame.config, hline]
  · intro i s w₀ w₁ rest hi hseq hline hok
    obtain ⟨u, hsame, -, hexec⟩ := exists_update_of_sending hi hseq
    have hlow : u.resetAsserted = false := by simp [State.resetAsserted, hsame.resetLine, hline]
    have hasserted : u.popReset.resetAsserted = true := by simp [State.resetAsserted, hsame.resetLine, hline]
    rw [hexec, transmitPhase_two_reset w₀ w₁ hlow (hsame.nextAnswer.trans hok) hasserted, State.resetBlock]
    simp [hsame.cmdPort, hsame.resetLine, hsame.answers, hsame.draws, hsame.config, hline]

end Sys2Proof.Machine
end
